-- ==== Sys2Proof/Word.lean ====
section
/-! DEFINITION. The word types of CORE: every register, address and instruction word is 32 bits
(spec/00_scope.md R6, R10), memory is byte-addressable (spec/20_memory.md R60). -/

namespace Sys2Proof

/-- A 32-bit value: register contents, HI, LO, pc, addresses, instruction words (R6, R10). -/
abbrev Word := BitVec 32

/-- One byte of memory (R60). -/
abbrev Byte := BitVec 8

end Sys2Proof
end

