-- ==== Sys2Proof/Config.lean ====
section
/-! DEFINITION. The implementation parameters of CORE (spec/00_scope.md R6 to R8) and their default
values. The two open ones, R0_HARDWIRED and REGIONS, are the fields of `Params`, which State holds, so
that every statement is about every value of them (assumption log 1). There is no free value: "with the
parameters fixed, every state has one successor" (spec/93_implementation_defined.md, Part 1). -/

namespace Sys2Proof

/-- NREG, the number of general registers (R6, R20). -/
abbrev nreg : Nat := 32

/-- The name of a region (R8, R60). Only `text` has a meaning to the hardware: it fixes TEXT_BASE.
DESIGN CHOICE (assumption log 2): names other than the source's three examples are numbered. -/
inductive RegionName where
  | text
  | data
  | stack
  | other (id : Nat)
  deriving DecidableEq, Repr

/-- One region of the map: the bytes at `base .. base + size - 1` (R8, R60). -/
structure Region where
  name : RegionName
  base : Word
  size : Nat
  deriving DecidableEq, Repr

/-- The first address past the region, as an exact number (R8 (c)). -/
def Region.limit (r : Region) : Nat := r.base.toNat + r.size

/-- The open parameters of the spec: R0_HARDWIRED (R7) and REGIONS (R8). -/
structure Params where
  r0Hardwired : Bool
  regions : List Region
  deriving DecidableEq, Repr

/-- The default REGIONS of R8. -/
def defaultRegions : List Region :=
  [ { name := .text,  base := 0x00400000#32, size := 0x00100000 },
    { name := .data,  base := 0x10000000#32, size := 0x00100000 },
    { name := .stack, base := 0x7FF00000#32, size := 0x00100000 } ]

/-- The default parameters: R0_HARDWIRED false (R7) and the default REGIONS (R8). -/
def Params.default : Params := { r0Hardwired := false, regions := defaultRegions }

/-- The region named `text`, if the map has one (R8 (d)). -/
def Params.textRegion (p : Params) : Option Region :=
  p.regions.find? fun r => decide (r.name = .text)

/-- TEXT_BASE, the base of the region named `text` (R6, R8 (d), R74). A map without one is refused by
`Params.wf`; this function then answers 0 (DESIGN CHOICE, assumption log 10). -/
def Params.textBase (p : Params) : Word :=
  match p.textRegion with
  | some r => r.base
  | none => 0#32

/-- The size of the text region in bytes (R272); 0 for a map without one (assumption log 10). -/
def Params.textSize (p : Params) : Nat :=
  match p.textRegion with
  | some r => r.size
  | none => 0

end Sys2Proof
end

