-- ==== Sys2Proof/Syntax.lean ====
section
/-! DEFINITION. The 44 instructions of spec/opcode_table.json, one constructor per row, each carrying the
fields its rule uses (spec/30_encoding.md R100) and none of the fields R105 says are ignored. Register
fields are indices 0..31, the shift amount is 0..31, so every term is within its encoding's range by its
type. -/

namespace Sys2Proof

/-- A general register number, 0..31 (R20). -/
abbrev Reg := Fin nreg

/-- A shift amount, `unsigned(shamt)`, 0..31 (R94, R140). -/
abbrev Shamt := Fin 32

/-- A 16-bit immediate field (R90). -/
abbrev Imm16 := BitVec 16

/-- A 26-bit jump target field (R90). -/
abbrev Target26 := BitVec 26

/-- The instruction set (R2). Operand order follows the assembler syntax of R110, with the base
register before the displacement in loads and stores. -/
inductive Instr where
  -- arithmetic (R121 to R126)
  | add (rd rs rt : Reg)
  | addu (rd rs rt : Reg)
  | sub (rd rs rt : Reg)
  | subu (rd rs rt : Reg)
  | addi (rt rs : Reg) (imm : Imm16)
  | addiu (rt rs : Reg) (imm : Imm16)
  -- bitwise (R130 to R136)
  | and (rd rs rt : Reg)
  | or (rd rs rt : Reg)
  | xor (rd rs rt : Reg)
  | nor (rd rs rt : Reg)
  | andi (rt rs : Reg) (imm : Imm16)
  | ori (rt rs : Reg) (imm : Imm16)
  | xori (rt rs : Reg) (imm : Imm16)
  -- shifts (R140 to R142)
  | sll (rd rt : Reg) (shamt : Shamt)
  | srl (rd rt : Reg) (shamt : Shamt)
  | sra (rd rt : Reg) (shamt : Shamt)
  -- compares (R145, R146)
  | slt (rd rs rt : Reg)
  | slti (rt rs : Reg) (imm : Imm16)
  -- load upper immediate (R150)
  | lui (rt : Reg) (imm : Imm16)
  -- multiply, divide, HI/LO moves (R161 to R168)
  | mult (rs rt : Reg)
  | multu (rs rt : Reg)
  | div (rs rt : Reg)
  | divu (rs rt : Reg)
  | mfhi (rd : Reg)
  | mflo (rd : Reg)
  | mthi (rs : Reg)
  | mtlo (rs : Reg)
  -- loads and stores (R182 to R187)
  | lw (rt base : Reg) (imm : Imm16)
  | lh (rt base : Reg) (imm : Imm16)
  | lb (rt base : Reg) (imm : Imm16)
  | sw (rt base : Reg) (imm : Imm16)
  | sh (rt base : Reg) (imm : Imm16)
  | sb (rt base : Reg) (imm : Imm16)
  -- branches (R201 to R206)
  | beq (rs rt : Reg) (imm : Imm16)
  | bne (rs rt : Reg) (imm : Imm16)
  | blez (rs : Reg) (imm : Imm16)
  | bgtz (rs : Reg) (imm : Imm16)
  | bltz (rs : Reg) (imm : Imm16)
  | bgez (rs : Reg) (imm : Imm16)
  -- jumps (R207 to R210)
  | j (target : Target26)
  | jal (target : Target26)
  | jr (rs : Reg)
  | jalr (rd rs : Reg)
  -- halt (R230)
  | syscall
  deriving DecidableEq, Repr

end Sys2Proof
end

