-- ==== Sys2Proof/Decode.lean ====
section
/-! DEFINITION. Instruction decode and encode (spec/30_encoding.md). `decodeWord` is R100's decoder on a
32-bit word; `decode` reads the word from bytes, little-endian (spec/20_memory.md R67). Both are total:
a word that is none of the 44 instructions is rejected by a named reason. `encode` is written from the
same tables (R90, R101 to R103), with every ignored field (R105) zero. `OpcodeRow` and `Instr.row` state
the mask and match columns of spec/opcode_table.json. -/

namespace Sys2Proof

/-! ### Fields (R90) -/

/-- `op`, bits [31:26]. -/
def fieldOp (w : Word) : BitVec 6 := w.extractLsb' 26 6
/-- `rs`, bits [25:21]. -/
def fieldRs (w : Word) : BitVec 5 := w.extractLsb' 21 5
/-- `rt`, bits [20:16]. -/
def fieldRt (w : Word) : BitVec 5 := w.extractLsb' 16 5
/-- `rd`, bits [15:11]. -/
def fieldRd (w : Word) : BitVec 5 := w.extractLsb' 11 5
/-- `shamt`, bits [10:6]. -/
def fieldShamt (w : Word) : BitVec 5 := w.extractLsb' 6 5
/-- `funct`, bits [5:0]. -/
def fieldFunct (w : Word) : BitVec 6 := w.extractLsb' 0 6
/-- `imm16`, bits [15:0]. -/
def fieldImm16 (w : Word) : Imm16 := w.extractLsb' 0 16
/-- `target26`, bits [25:0]. -/
def fieldTarget26 (w : Word) : Target26 := w.extractLsb' 0 26

/-- A 5-bit field as an index 0..31. -/
def fieldIndex (f : BitVec 5) : Fin 32 := ⟨f.toNat, f.isLt⟩

/-- The register named by `rs`. -/
def regRs (w : Word) : Reg := fieldIndex (fieldRs w)
/-- The register named by `rt`. -/
def regRt (w : Word) : Reg := fieldIndex (fieldRt w)
/-- The register named by `rd`. -/
def regRd (w : Word) : Reg := fieldIndex (fieldRd w)
/-- The shift amount in `shamt`. -/
def amount (w : Word) : Shamt := fieldIndex (fieldShamt w)

/-! ### Decode (R100 to R105) -/

/-- Why bytes are no instruction (R104). All of them are safe: a rejected word runs as the no-op of
R232, and `truncated` cannot arise from a fetch, which reads four bytes. -/
inductive Reject where
  /-- `op = 0` with a `funct` outside the 23 of R102. -/
  | specialFunct (funct : BitVec 6)
  /-- `op = 1` with an `rt` other than 0 and 1 (R103). -/
  | regimmRt (rt : BitVec 5)
  /-- an `op` that R101 marks unrecognized. -/
  | primaryOpcode (op : BitVec 6)
  /-- fewer than four bytes: no instruction word (R90, R92). -/
  | truncated
  deriving DecidableEq, Repr

/-- The SPECIAL map, keyed by `funct` (R102). -/
def decodeSpecial (w : Word) : Except Reject Instr :=
  match fieldFunct w with
  | 0x00#6 => .ok (.sll (regRd w) (regRt w) (amount w))
  | 0x02#6 => .ok (.srl (regRd w) (regRt w) (amount w))
  | 0x03#6 => .ok (.sra (regRd w) (regRt w) (amount w))
  | 0x08#6 => .ok (.jr (regRs w))
  | 0x09#6 => .ok (.jalr (regRd w) (regRs w))
  | 0x0C#6 => .ok .syscall
  | 0x10#6 => .ok (.mfhi (regRd w))
  | 0x11#6 => .ok (.mthi (regRs w))
  | 0x12#6 => .ok (.mflo (regRd w))
  | 0x13#6 => .ok (.mtlo (regRs w))
  | 0x18#6 => .ok (.mult (regRs w) (regRt w))
  | 0x19#6 => .ok (.multu (regRs w) (regRt w))
  | 0x1A#6 => .ok (.div (regRs w) (regRt w))
  | 0x1B#6 => .ok (.divu (regRs w) (regRt w))
  | 0x20#6 => .ok (.add (regRd w) (regRs w) (regRt w))
  | 0x21#6 => .ok (.addu (regRd w) (regRs w) (regRt w))
  | 0x22#6 => .ok (.sub (regRd w) (regRs w) (regRt w))
  | 0x23#6 => .ok (.subu (regRd w) (regRs w) (regRt w))
  | 0x24#6 => .ok (.and (regRd w) (regRs w) (regRt w))
  | 0x25#6 => .ok (.or (regRd w) (regRs w) (regRt w))
  | 0x26#6 => .ok (.xor (regRd w) (regRs w) (regRt w))
  | 0x27#6 => .ok (.nor (regRd w) (regRs w) (regRt w))
  | 0x2A#6 => .ok (.slt (regRd w) (regRs w) (regRt w))
  | f => .error (.specialFunct f)

/-- The REGIMM map, keyed by `rt` (R103). -/
def decodeRegimm (w : Word) : Except Reject Instr :=
  match fieldRt w with
  | 0x00#5 => .ok (.bltz (regRs w) (fieldImm16 w))
  | 0x01#5 => .ok (.bgez (regRs w) (fieldImm16 w))
  | f => .error (.regimmRt f)

/-- `decode(w)` of R100 on one instruction word, keyed by `op` (R101). -/
def decodeWord (w : Word) : Except Reject Instr :=
  match fieldOp w with
  | 0x00#6 => decodeSpecial w
  | 0x01#6 => decodeRegimm w
  | 0x02#6 => .ok (.j (fieldTarget26 w))
  | 0x03#6 => .ok (.jal (fieldTarget26 w))
  | 0x04#6 => .ok (.beq (regRs w) (regRt w) (fieldImm16 w))
  | 0x05#6 => .ok (.bne (regRs w) (regRt w) (fieldImm16 w))
  | 0x06#6 => .ok (.blez (regRs w) (fieldImm16 w))
  | 0x07#6 => .ok (.bgtz (regRs w) (fieldImm16 w))
  | 0x08#6 => .ok (.addi (regRt w) (regRs w) (fieldImm16 w))
  | 0x09#6 => .ok (.addiu (regRt w) (regRs w) (fieldImm16 w))
  | 0x0A#6 => .ok (.slti (regRt w) (regRs w) (fieldImm16 w))
  | 0x0C#6 => .ok (.andi (regRt w) (regRs w) (fieldImm16 w))
  | 0x0D#6 => .ok (.ori (regRt w) (regRs w) (fieldImm16 w))
  | 0x0E#6 => .ok (.xori (regRt w) (regRs w) (fieldImm16 w))
  | 0x0F#6 => .ok (.lui (regRt w) (fieldImm16 w))
  | 0x20#6 => .ok (.lb (regRt w) (regRs w) (fieldImm16 w))
  | 0x21#6 => .ok (.lh (regRt w) (regRs w) (fieldImm16 w))
  | 0x23#6 => .ok (.lw (regRt w) (regRs w) (fieldImm16 w))
  | 0x28#6 => .ok (.sb (regRt w) (regRs w) (fieldImm16 w))
  | 0x29#6 => .ok (.sh (regRt w) (regRs w) (fieldImm16 w))
  | 0x2B#6 => .ok (.sw (regRt w) (regRs w) (fieldImm16 w))
  | f => .error (.primaryOpcode f)

/-- The record R100's decoder returns, as the host sees it (R112): one of the 44 operations or
`UNRECOGNIZED(w)`. -/
inductive Decoded where
  | operation (i : Instr)
  | unrecognized (w : Word)
  deriving DecidableEq, Repr

/-- `decode(w)` with R100's own result. -/
def decodeRecord (w : Word) : Decoded :=
  match decodeWord w with
  | .ok i => .operation i
  | .error _ => .unrecognized w

/-- Four bytes as a word, the byte at the lowest address least significant (R65, R67). -/
def wordOfBytes (b0 b1 b2 b3 : Byte) : Word := b3 ++ b2 ++ b1 ++ b0

/-- Byte `k` of a word, bits `[8k+7 : 8k]` (R66). -/
def byteOf (w : Word) (k : Nat) : Byte := w.extractLsb' (8 * k) 8

/-- A word as the four bytes memory holds, lowest address first (R66, R272). -/
def bytesOfWord (w : Word) : List Byte := [byteOf w 0, byteOf w 1, byteOf w 2, byteOf w 3]

/-- Decode the instruction at the head of a list of bytes and answer it with the rest. -/
def decode : List Byte → Except Reject (Instr × List Byte)
  | b0 :: b1 :: b2 :: b3 :: rest =>
    match decodeWord (wordOfBytes b0 b1 b2 b3) with
    | .ok i => .ok (i, rest)
    | .error r => .error r
  | _ => .error .truncated

/-- The instruction the decoder reads from an opcode-table word: bit 0 of `w` is the least significant
bit of the word and `nbits` the row's length; bits above `nbits` are 0. -/
def decodeTableWord (nbits w : Nat) : Option Instr :=
  match decode (bytesOfWord (BitVec.ofNat 32 (w % 2 ^ nbits))) with
  | .ok (i, _) => some i
  | .error _ => none

/-! ### Encode (R90, R101 to R103) -/

/-- An R-type word from its fields (R90, R93). -/
def packR (rs rt rd shamt : BitVec 5) (funct : BitVec 6) : Word :=
  0x00#6 ++ rs ++ rt ++ rd ++ shamt ++ funct

/-- An I-type word from its fields (R90). -/
def packI (op : BitVec 6) (rs rt : BitVec 5) (imm : Imm16) : Word :=
  op ++ rs ++ rt ++ imm

/-- A J-type word from its fields (R90). -/
def packJ (op : BitVec 6) (target : Target26) : Word := op ++ target

/-- An index 0..31 as a 5-bit field. -/
def indexField (i : Fin 32) : BitVec 5 := BitVec.ofNat 5 i.val

/-- R-type with three registers, `op rd, rs, rt`. -/
def encodeRegs (funct : BitVec 6) (rd rs rt : Reg) : Word :=
  packR (indexField rs) (indexField rt) (indexField rd) 0#5 funct

/-- R-type shift, `op rd, rt, shamt`. -/
def encodeShift (funct : BitVec 6) (rd rt : Reg) (shamt : Shamt) : Word :=
  packR 0#5 (indexField rt) (indexField rd) (indexField shamt) funct

/-- I-type with `rs`, `rt` and an immediate. -/
def encodeImm (op : BitVec 6) (rs rt : Reg) (imm : Imm16) : Word :=
  packI op (indexField rs) (indexField rt) imm

/-- The word of an instruction, ignored fields zero. -/
def encode : Instr → Word
  | .add rd rs rt => encodeRegs 0x20#6 rd rs rt
  | .addu rd rs rt => encodeRegs 0x21#6 rd rs rt
  | .sub rd rs rt => encodeRegs 0x22#6 rd rs rt
  | .subu rd rs rt => encodeRegs 0x23#6 rd rs rt
  | .addi rt rs imm => encodeImm 0x08#6 rs rt imm
  | .addiu rt rs imm => encodeImm 0x09#6 rs rt imm
  | .and rd rs rt => encodeRegs 0x24#6 rd rs rt
  | .or rd rs rt => encodeRegs 0x25#6 rd rs rt
  | .xor rd rs rt => encodeRegs 0x26#6 rd rs rt
  | .nor rd rs rt => encodeRegs 0x27#6 rd rs rt
  | .andi rt rs imm => encodeImm 0x0C#6 rs rt imm
  | .ori rt rs imm => encodeImm 0x0D#6 rs rt imm
  | .xori rt rs imm => encodeImm 0x0E#6 rs rt imm
  | .sll rd rt shamt => encodeShift 0x00#6 rd rt shamt
  | .srl rd rt shamt => encodeShift 0x02#6 rd rt shamt
  | .sra rd rt shamt => encodeShift 0x03#6 rd rt shamt
  | .slt rd rs rt => encodeRegs 0x2A#6 rd rs rt
  | .slti rt rs imm => encodeImm 0x0A#6 rs rt imm
  | .lui rt imm => packI 0x0F#6 0#5 (indexField rt) imm
  | .mult rs rt => packR (indexField rs) (indexField rt) 0#5 0#5 0x18#6
  | .multu rs rt => packR (indexField rs) (indexField rt) 0#5 0#5 0x19#6
  | .div rs rt => packR (indexField rs) (indexField rt) 0#5 0#5 0x1A#6
  | .divu rs rt => packR (indexField rs) (indexField rt) 0#5 0#5 0x1B#6
  | .mfhi rd => packR 0#5 0#5 (indexField rd) 0#5 0x10#6
  | .mflo rd => packR 0#5 0#5 (indexField rd) 0#5 0x12#6
  | .mthi rs => packR (indexField rs) 0#5 0#5 0#5 0x11#6
  | .mtlo rs => packR (indexField rs) 0#5 0#5 0#5 0x13#6
  | .lw rt base imm => encodeImm 0x23#6 base rt imm
  | .lh rt base imm => encodeImm 0x21#6 base rt imm
  | .lb rt base imm => encodeImm 0x20#6 base rt imm
  | .sw rt base imm => encodeImm 0x2B#6 base rt imm
  | .sh rt base imm => encodeImm 0x29#6 base rt imm
  | .sb rt base imm => encodeImm 0x28#6 base rt imm
  | .beq rs rt imm => encodeImm 0x04#6 rs rt imm
  | .bne rs rt imm => encodeImm 0x05#6 rs rt imm
  | .blez rs imm => packI 0x06#6 (indexField rs) 0#5 imm
  | .bgtz rs imm => packI 0x07#6 (indexField rs) 0#5 imm
  | .bltz rs imm => packI 0x01#6 (indexField rs) 0x00#5 imm
  | .bgez rs imm => packI 0x01#6 (indexField rs) 0x01#5 imm
  | .j target => packJ 0x02#6 target
  | .jal target => packJ 0x03#6 target
  | .jr rs => packR (indexField rs) 0#5 0#5 0#5 0x08#6
  | .jalr rd rs => packR (indexField rs) 0#5 (indexField rd) 0#5 0x09#6
  | .syscall => packR 0#5 0#5 0#5 0#5 0x0C#6

/-- The bytes of an instruction, lowest address first. -/
def encodeBytes (i : Instr) : List Byte := bytesOfWord (encode i)

/-! ### The opcode table's columns -/

/-- A row of spec/opcode_table.json: the bits that are fixed and their values. -/
structure OpcodeRow where
  mask : Word
  pattern : Word
  deriving DecidableEq, Repr

/-- The word has the row's fixed bits. -/
def OpcodeRow.hits (r : OpcodeRow) (w : Word) : Prop := w &&& r.mask = r.pattern

/-- A SPECIAL row: `op` and `funct` are fixed. -/
def OpcodeRow.special (funct : Word) : OpcodeRow := { mask := 0xFC00003F#32, pattern := funct }

/-- A row whose `op` alone is fixed. -/
def OpcodeRow.primary (pattern : Word) : OpcodeRow := { mask := 0xFC000000#32, pattern := pattern }

/-- A REGIMM row: `op` and `rt` are fixed. -/
def OpcodeRow.regimm (pattern : Word) : OpcodeRow := { mask := 0xFC1F0000#32, pattern := pattern }

/-- The row of spec/opcode_table.json an instruction belongs to. -/
def Instr.row : Instr → OpcodeRow
  | .add .. => .special 0x00000020#32
  | .addu .. => .special 0x00000021#32
  | .sub .. => .special 0x00000022#32
  | .subu .. => .special 0x00000023#32
  | .addi .. => .primary 0x20000000#32
  | .addiu .. => .primary 0x24000000#32
  | .and .. => .special 0x00000024#32
  | .or .. => .special 0x00000025#32
  | .xor .. => .special 0x00000026#32
  | .nor .. => .special 0x00000027#32
  | .andi .. => .primary 0x30000000#32
  | .ori .. => .primary 0x34000000#32
  | .xori .. => .primary 0x38000000#32
  | .sll .. => .special 0x00000000#32
  | .srl .. => .special 0x00000002#32
  | .sra .. => .special 0x00000003#32
  | .slt .. => .special 0x0000002A#32
  | .slti .. => .primary 0x28000000#32
  | .lui .. => .primary 0x3C000000#32
  | .mult .. => .special 0x00000018#32
  | .multu .. => .special 0x00000019#32
  | .div .. => .special 0x0000001A#32
  | .divu .. => .special 0x0000001B#32
  | .mfhi .. => .special 0x00000010#32
  | .mflo .. => .special 0x00000012#32
  | .mthi .. => .special 0x00000011#32
  | .mtlo .. => .special 0x00000013#32
  | .lw .. => .primary 0x8C000000#32
  | .lh .. => .primary 0x84000000#32
  | .lb .. => .primary 0x80000000#32
  | .sw .. => .primary 0xAC000000#32
  | .sh .. => .primary 0xA4000000#32
  | .sb .. => .primary 0xA0000000#32
  | .beq .. => .primary 0x10000000#32
  | .bne .. => .primary 0x14000000#32
  | .blez .. => .primary 0x18000000#32
  | .bgtz .. => .primary 0x1C000000#32
  | .bltz .. => .regimm 0x04000000#32
  | .bgez .. => .regimm 0x04010000#32
  | .j .. => .primary 0x08000000#32
  | .jal .. => .primary 0x0C000000#32
  | .jr .. => .special 0x00000008#32
  | .jalr .. => .special 0x00000009#32
  | .syscall => .special 0x0000000C#32

/-- The 44 rows of spec/opcode_table.json, SPECIAL, REGIMM and primary rows in turn. -/
def opcodeTable : List OpcodeRow :=
  ([0x00#32, 0x02#32, 0x03#32, 0x08#32, 0x09#32, 0x0C#32, 0x10#32, 0x11#32, 0x12#32, 0x13#32, 0x18#32,
    0x19#32, 0x1A#32, 0x1B#32, 0x20#32, 0x21#32, 0x22#32, 0x23#32, 0x24#32, 0x25#32, 0x26#32, 0x27#32,
    0x2A#32].map OpcodeRow.special) ++
  ([0x04000000#32, 0x04010000#32].map OpcodeRow.regimm) ++
  ([0x08000000#32, 0x0C000000#32, 0x10000000#32, 0x14000000#32, 0x18000000#32, 0x1C000000#32,
    0x20000000#32, 0x24000000#32, 0x28000000#32, 0x30000000#32, 0x34000000#32, 0x38000000#32,
    0x3C000000#32, 0x80000000#32, 0x84000000#32, 0x8C000000#32, 0xA0000000#32, 0xA4000000#32,
    0xAC000000#32].map OpcodeRow.primary)

/-- The bits of a word the instruction ignores (R105). -/
def Instr.ignoredMask : Instr → Word
  | .add .. | .addu .. | .sub .. | .subu .. | .and .. | .or .. | .xor .. | .nor .. | .slt .. => 0x000007C0#32
  | .sll .. | .srl .. | .sra .. => 0x03E00000#32
  | .jr .. => 0x001FFFC0#32
  | .jalr .. => 0x001F07C0#32
  | .syscall => 0x03FFFFC0#32
  | .mfhi .. | .mflo .. => 0x03FF07C0#32
  | .mthi .. | .mtlo .. => 0x001FFFC0#32
  | .mult .. | .multu .. | .div .. | .divu .. => 0x0000FFC0#32
  | .blez .. | .bgtz .. => 0x001F0000#32
  | .lui .. => 0x03E00000#32
  | .addi .. | .addiu .. | .andi .. | .ori .. | .xori .. | .slti .. => 0#32
  | .lw .. | .lh .. | .lb .. | .sw .. | .sh .. | .sb .. => 0#32
  | .beq .. | .bne .. | .bltz .. | .bgez .. => 0#32
  | .j .. | .jal .. => 0#32

end Sys2Proof
end

