-- ==== Sys2Proof/Machine/Operands.lean ====
section
/-! DEFINITION. How operands and results are assembled from fields (spec/30_encoding.md R94 to R96) and
the arithmetic of the instructions (spec/40_arith_logic.md, spec/41_muldiv_hilo.md), as functions of
their operands alone. -/

namespace Sys2Proof.Machine

/-! ### Immediates and addresses (R94, R95, R180) -/

/-- `imm_s = sext_32(imm16)`: ADDI, ADDIU, SLTI, displacements, branches (R94, R95). -/
def immS (imm : Imm16) : Word := imm.signExtend 32

/-- `imm_z = zext_32(imm16)`: ANDI, ORI, XORI (R94, R95). -/
def immZ (imm : Imm16) : Word := imm.setWidth 32

/-- The LUI value, `imm16 ++ 0x0000` (R94, R150). -/
def luiValue (imm : Imm16) : Word := imm ++ 0#16

/-- The effective address `x[rs] + sext_32(imm16)`, modulo 2^32 (R180). -/
def effectiveAddress (base : Word) (imm : Imm16) : Word := base + immS imm

/-- The target of a taken branch, `pc + 4 + (sext_32(imm16) << 2)` (R200). -/
def branchTarget (pc : Word) (imm : Imm16) : Word := pc + 4#32 + (immS imm <<< 2)

/-- The target of J and JAL, `pc[31:28] ++ target26 ++ 0b00`, of the jump's own pc (R207). -/
def jumpTarget (pc : Word) (target : Target26) : Word := pc.extractLsb' 28 4 ++ target ++ 0#2

/-- The link value of JAL and JALR, `pc + 8` (R208, R210). -/
def linkValue (pc : Word) : Word := pc + 8#32

/-! ### Shifts (R140 to R142) -/

/-- `v << n`, zeros entering at the bottom (R140). -/
def shiftLeft (v : Word) (n : Shamt) : Word := v <<< n.val

/-- `zext_32(v[31 : n])`, zeros entering at the top (R141). -/
def shiftRightLogical (v : Word) (n : Shamt) : Word := v >>> n.val

/-- `sext_32(v[31 : n])`, copies of bit 31 entering at the top (R142). -/
def shiftRightArith (v : Word) (n : Shamt) : Word := v.sshiftRight n.val

/-! ### Multiply and divide (R161 to R164) -/

/-- A pair for HI and LO. -/
structure HiLo where
  hi : Word
  lo : Word
  deriving DecidableEq, Repr

/-- A 64-bit product split into HI = P[63:32] and LO = P[31:0] (R161, R162). -/
def splitProduct (p : BitVec 64) : HiLo := { hi := p.extractLsb' 32 32, lo := p.extractLsb' 0 32 }

/-- MULT: `bits_64(signed(a) * signed(b))` (R161). -/
def signedProduct (a b : Word) : HiLo := splitProduct (BitVec.ofInt 64 (a.toInt * b.toInt))

/-- MULTU: `bits_64(unsigned(a) * unsigned(b))` (R162). -/
def unsignedProduct (a b : Word) : HiLo := splitProduct (BitVec.ofNat 64 (a.toNat * b.toNat))

/-- The quotient truncated toward zero, `sign(n) * sign(d) * floor(|n| / |d|)` (R163). -/
def truncQuotient (n d : Int) : Int := n.sign * d.sign * ((n.natAbs / d.natAbs : Nat) : Int)

/-- DIV on operands it does not fault on: LO the quotient, HI the remainder `n - q * d` (R163). -/
def signedDivide (a b : Word) : HiLo :=
  { lo := BitVec.ofInt 32 (truncQuotient a.toInt b.toInt)
    hi := BitVec.ofInt 32 (a.toInt - truncQuotient a.toInt b.toInt * b.toInt) }

/-- DIVU on operands it does not fault on: LO = floor(n / d), HI = n mod d (R164). -/
def unsignedDivide (a b : Word) : HiLo :=
  { lo := BitVec.ofNat 32 (a.toNat / b.toNat)
    hi := BitVec.ofNat 32 (a.toNat % b.toNat) }

/-- The operands of DIV whose quotient 2^31 does not fit in 32 bits (R163). -/
def divOverflows (a b : Word) : Bool := decide (a = 0x80000000#32) && decide (b = 0xFFFFFFFF#32)

end Sys2Proof.Machine
end

