-- ==== Sys2Proof/Machine/State.lean ====
section
/-! DEFINITION. The state of CORE (spec/10_state.md, spec/20_memory.md R60, spec/70_reset_and_hazards.md
R270) and the reasons a step can stop. Every field is plain data. -/

namespace Sys2Proof.Machine

/-- The causes of a fault, FAULT_CAUSE codes 1 to 8 (spec/60_exceptions.md R241). CORE's faults are
described whole by the spec (R243): a step that raises one answers a NEXT state whose status is FAULTED
and whose fault record is written, so no step of this model answers `Host.Outcome.fault` (assumption
log 4). Every one of them is safe: the state before the step is kept. -/
inductive Fault where
  /-- Code 1, raised by every step's fetch when `pc mod 4 ≠ 0`. Safe. -/
  | fetchMisaligned
  /-- Code 2, raised by every step's fetch when `pc` is in no region. Safe. -/
  | fetchUnmapped
  /-- Code 3, raised by LW and LH on a misaligned effective address. Safe. -/
  | loadMisaligned
  /-- Code 4, raised by LW, LH and LB on an effective address in no region. Safe. -/
  | loadUnmapped
  /-- Code 5, raised by SW and SH on a misaligned effective address. Safe. -/
  | storeMisaligned
  /-- Code 6, raised by SW, SH and SB on an effective address in no region. Safe. -/
  | storeUnmapped
  /-- Code 7, raised by DIV and DIVU when the divisor is 0. Safe. -/
  | divZero
  /-- Code 8, raised by DIV of 0x80000000 by 0xFFFFFFFF. Safe. -/
  | divOverflow
  deriving DecidableEq, Repr

/-- The reasons the model has no meaning for an instruction. No arm of `exec` answers one: every
instruction of the opcode table has its meaning. -/
inductive Refusal where
  /-- Raised by an arm of `exec` whose instruction has no meaning yet. Safe: nothing runs. -/
  | notModelled (mnemonic : String)
  deriving DecidableEq, Repr

/-- The run status (R30). FAULTED and STOPPED are terminal until reset. -/
inductive RunStatus where
  | running
  | stopped
  | faulted
  deriving DecidableEq, Repr

/-- The double-buffered architectural state `{pc, x[0..31], HI, LO}` (R35). -/
structure Arch where
  pc : Word
  x : Vector Word nreg
  hi : Word
  lo : Word
  deriving DecidableEq, Repr

/-- The bytes of every region, as (address, byte) pairs with strictly rising addresses and no byte 0:
an address that is not listed holds 0, the value of every byte after initialize and reset (R45, R60).
The byte at offset `off` of region `r` is the one at address `r.base + off` (assumption log 3). -/
abbrev Memory := List Host.Cell

/-- The state of CORE. -/
structure State where
  /-- The open parameters of this machine (R7, R8); nothing changes them. -/
  params : Params
  /-- The copy every read of a step reads (R35, R36). -/
  current : Arch
  /-- The copy every write of a step writes (R35, R36). -/
  next : Arch
  /-- The region buffers (R60). -/
  mem : Memory
  /-- The run status (R30). -/
  status : RunStatus
  /-- The instruction counter (R31). -/
  icount : BitVec 64
  /-- FAULT_CAUSE (R32, R241). -/
  faultCause : BitVec 8
  /-- FAULT_PC (R32). -/
  faultPc : Word
  /-- FAULT_ADDR (R32). -/
  faultAddr : Word
  /-- FAULT_WORD (R32). -/
  faultWord : Word
  /-- ILL (R33). -/
  ill : Bool
  /-- ILL_PC (R33). -/
  illPc : Word
  /-- ILL_WORD (R33). -/
  illWord : Word
  /-- IMAGE, the last program image given to loadProgram (R43). -/
  image : List Word
  deriving DecidableEq, Repr

/-- The architectural state after initialize and reset: pc = TEXT_BASE and every register, HI and LO 0
(R45). -/
def Arch.zeroed (textBase : Word) : Arch :=
  { pc := textBase, x := Vector.replicate nreg 0#32, hi := 0#32, lo := 0#32 }

/-- The state after the host's initialize() on a machine with parameters `p` (R45, R270): every memory
byte 0 and IMAGE empty. -/
def State.initialized (p : Params) : State :=
  { params := p
    current := Arch.zeroed p.textBase
    next := Arch.zeroed p.textBase
    mem := []
    status := .running
    icount := 0#64
    faultCause := 0#8
    faultPc := 0#32
    faultAddr := 0#32
    faultWord := 0#32
    ill := false
    illPc := 0#32
    illWord := 0#32
    image := [] }

/-- The machine right after reset: initialize() with the spec's default parameters (R7, R8, R45, R270).
"initialize is the power-on operation" (R270); no program is loaded (assumption log 11). -/
def State.reset : State := State.initialized Params.default

end Sys2Proof.Machine
end

