-- ==== Sys2Proof/Machine/Ops.lean ====
section
/-! DEFINITION. The named operations every meaning is written over: memory and the region arbiter
(spec/20_memory.md R63 to R67), the register primitives (spec/00_scope.md R11), the transaction of one
step with its commit (spec/10_state.md R40, R41), and taking a fault (spec/10_state.md R40,
spec/60_exceptions.md R243). CORE has no return from a fault: only reset leaves FAULTED (R245). -/

namespace Sys2Proof.Machine

/-! ### Memory bytes -/

/-- The byte held at an address; 0 where none is listed (R45, R60). -/
def Memory.byte : Memory → Nat → Byte
  | [], _ => 0#8
  | (k, b) :: rest, a => if a = k then b else Memory.byte rest a

/-- Write one byte and keep the canonical form: a byte 0 is not listed. -/
def Memory.setByte : Memory → Nat → Byte → Memory
  | [], a, v => if v = 0#8 then [] else [(a, v)]
  | (k, b) :: rest, a, v =>
    if a < k then (if v = 0#8 then (k, b) :: rest else (a, v) :: (k, b) :: rest)
    else if a = k then (if v = 0#8 then rest else (a, v) :: rest)
    else (k, b) :: Memory.setByte rest a v

/-- The canonical form: addresses strictly rising, no listed byte 0. -/
def Memory.wf : Memory → Bool
  | [] => true
  | (k, b) :: rest => decide (b ≠ 0#8) && rest.all (fun c => decide (k < c.1)) && Memory.wf rest

/-- The 2 bytes at an address, little-endian (R65). -/
def Memory.read16 (m : Memory) (a : Nat) : BitVec 16 := m.byte (a + 1) ++ m.byte a

/-- The 4 bytes at an address, little-endian (R65). -/
def Memory.read32 (m : Memory) (a : Nat) : Word :=
  wordOfBytes (m.byte a) (m.byte (a + 1)) (m.byte (a + 2)) (m.byte (a + 3))

/-- Write the low `n` bytes of a value, little-endian: for k = 0 .. n-1 the byte at `a + k` becomes
`v[8k+7 : 8k]` (R66). -/
def Memory.write (m : Memory) (a : Nat) (v : Word) : Nat → Memory
  | 0 => m
  | n + 1 => (Memory.write m a v n).setByte (a + n) (byteOf v n)

/-- Write words one after the other from an address, four bytes a word (R272). -/
def Memory.writeWords (m : Memory) (a : Nat) : List Word → Memory
  | [] => m
  | w :: ws => Memory.writeWords (m.write a w 4) (a + 4) ws

/-! ### The region arbiter and address translator (R63, R64) -/

/-- The region holds the address (R63). -/
def regionHolds (r : Region) (addr : Word) : Bool :=
  decide (r.base.toNat ≤ addr.toNat) && decide (addr.toNat < r.limit)

/-- The region an address lies in and its offset there, `unsigned(addr) - unsigned(r.base)`; none for
an unmapped address (R63). -/
def lookup (p : Params) (addr : Word) : Option (Region × Nat) :=
  match p.regions.find? fun r => regionHolds r addr with
  | some r => some (r, addr.toNat - r.base.toNat)
  | none => none

/-- Where the byte at an offset of a region's buffer is kept (assumption log 3). -/
def cellOf (r : Region) (off : Nat) : Nat := r.base.toNat + off

/-- What an access is for (R64). -/
inductive AccessKind where
  | fetch
  | load
  | store
  deriving DecidableEq, Repr

/-- `MISALIGNED(kind)` (R64). -/
def AccessKind.misaligned : AccessKind → Fault
  | .fetch => .fetchMisaligned
  | .load => .loadMisaligned
  | .store => .storeMisaligned

/-- `UNMAPPED(kind)` (R64). -/
def AccessKind.unmapped : AccessKind → Fault
  | .fetch => .fetchUnmapped
  | .load => .loadUnmapped
  | .store => .storeUnmapped

/-- `raise Fault(cause, addr)` (spec/00_scope.md R13): what ends a step without a commit. -/
structure Raise where
  cause : Fault
  addr : Word
  deriving DecidableEq, Repr

/-- `check(addr, n, kind)` (R64): the alignment test first, then the lookup. -/
def check (p : Params) (addr : Word) (n : Nat) (kind : AccessKind) : Except Raise (Region × Nat) :=
  if addr.toNat % n ≠ 0 then .error { cause := kind.misaligned, addr := addr }
  else
    match lookup p addr with
    | some loc => .ok loc
    | none => .error { cause := kind.unmapped, addr := addr }

/-- `MemRead(addr, 1)` (R65). -/
def memRead8 (s : State) (addr : Word) : Except Raise Byte :=
  match check s.params addr 1 .load with
  | .ok (r, off) => .ok (s.mem.byte (cellOf r off))
  | .error e => .error e

/-- `MemRead(addr, 2)` (R65). -/
def memRead16 (s : State) (addr : Word) : Except Raise (BitVec 16) :=
  match check s.params addr 2 .load with
  | .ok (r, off) => .ok (s.mem.read16 (cellOf r off))
  | .error e => .error e

/-- `MemRead(addr, 4)`, of kind LOAD or FETCH (R65, R67). -/
def memRead32 (s : State) (addr : Word) (kind : AccessKind) : Except Raise Word :=
  match check s.params addr 4 kind with
  | .ok (r, off) => .ok (s.mem.read32 (cellOf r off))
  | .error e => .error e

/-- `Fetch(pc)`: `MemRead(pc, 4)` with kind FETCH (R67). -/
def fetch (s : State) : Except Raise Word := memRead32 s s.current.pc .fetch

/-- The word `w` of the step in progress, as the fault and illegal records keep it: the word at `pc`.
Memory changes only at the commit, so it is the word the step's fetch read (assumption log 6). -/
def wordAtPc (s : State) : Word := s.mem.read32 s.current.pc.toNat

/-! ### Registers (R7, R11) -/

/-- Register `i` is register 0 and R0_HARDWIRED is true: it reads 0 and discards writes (R7). -/
def hardwired (s : State) (i : Reg) : Bool := s.params.r0Hardwired && decide (i = 0)

/-- `x[i]`, read from the current copy (R11). -/
def State.readX (s : State) (i : Reg) : Word := if hardwired s i then 0#32 else s.current.x[i.val]

/-- A register file with register `i` set to `v`. -/
def Arch.setX (a : Arch) (i : Reg) (v : Word) : Arch := { a with x := a.x.set i.val v }

/-! ### The transaction of one step (R36, R40, R41) -/

/-- A recorded store, `W = (addr, n, v)` (R66): the cell its first byte goes to, its width in bytes and
its value, whose low `n` bytes are stored. -/
structure PendingWrite where
  cell : Nat
  n : Nat
  value : Word
  deriving DecidableEq, Repr

/-- A step in progress: the machine, whose current copy is read and whose next copy is written, and the
step's own variables `W`, `H` and `I` (R40). -/
structure Txn where
  st : State
  pendingWrite : Option PendingWrite
  halt : Bool
  illegal : Bool
  deriving DecidableEq, Repr

/-- The start of a step: nothing pending, and the default advance `next.pc <- pc + 4` (R24, R40). -/
def Txn.start (s : State) : Txn :=
  { st := { s with next := { s.next with pc := s.current.pc + 4#32 } }
    pendingWrite := none
    halt := false
    illegal := false }

/-- `x[i]` (R11). -/
def Txn.readX (t : Txn) (i : Reg) : Word := t.st.readX i

/-- `x[i] <- v`: writes the next copy; discarded for a hardwired register 0 (R7, R11). -/
def Txn.writeX (t : Txn) (i : Reg) (v : Word) : Txn :=
  if hardwired t.st i then t else { t with st := { t.st with next := t.st.next.setX i v } }

/-- `pc`, the address of the instruction being executed (R11, R23). -/
def Txn.pc (t : Txn) : Word := t.st.current.pc

/-- `pc <- target` (R11). -/
def Txn.writePc (t : Txn) (target : Word) : Txn :=
  { t with st := { t.st with next := { t.st.next with pc := target } } }

/-- `HI` (R11). -/
def Txn.readHi (t : Txn) : Word := t.st.current.hi

/-- `LO` (R11). -/
def Txn.readLo (t : Txn) : Word := t.st.current.lo

/-- `HI <- v` (R11). -/
def Txn.writeHi (t : Txn) (v : Word) : Txn :=
  { t with st := { t.st with next := { t.st.next with hi := v } } }

/-- `LO <- v` (R11). -/
def Txn.writeLo (t : Txn) (v : Word) : Txn :=
  { t with st := { t.st with next := { t.st.next with lo := v } } }

/-- `MemWrite(addr, n, v)`: checks now, records the write, and stores nothing before the commit (R66). -/
def Txn.memWrite (t : Txn) (addr : Word) (n : Nat) (v : Word) : Except Raise Txn :=
  match check t.st.params addr n .store with
  | .ok (r, off) => .ok { t with pendingWrite := some { cell := cellOf r off, n := n, value := v } }
  | .error e => .error e

/-- `halt` (R13, R230). -/
def Txn.requestHalt (t : Txn) : Txn := { t with halt := true }

/-- `illegal` (R13, R232). -/
def Txn.markIllegal (t : Txn) : Txn := { t with illegal := true }

/-- Region bytes after the pending write (R41, R66). -/
def applyWrite (m : Memory) : Option PendingWrite → Memory
  | some w => m.write w.cell w.value w.n
  | none => m

/-- This step is the first to execute an unrecognized encoding: `I and ILL = 0` (R41). -/
def Txn.recordsIllegal (t : Txn) : Bool := t.illegal && !t.st.ill

/-- `commit()` (R41): the store lands, current <- next, icount + 1, the halt takes effect, and the
illegal record keeps the first unrecognized encoding (R33). -/
def Txn.commit (t : Txn) : State :=
  { t.st with
    mem := applyWrite t.st.mem t.pendingWrite
    current := t.st.next
    icount := t.st.icount + 1#64
    status := if t.halt then .stopped else t.st.status
    ill := t.st.ill || t.illegal
    illPc := if t.recordsIllegal then t.st.current.pc else t.st.illPc
    illWord := if t.recordsIllegal then wordAtPc t.st else t.st.illWord }

/-- The cause codes of R241. -/
def Fault.code : Fault → BitVec 8
  | .fetchMisaligned => 1#8
  | .fetchUnmapped => 2#8
  | .loadMisaligned => 3#8
  | .loadUnmapped => 4#8
  | .storeMisaligned => 5#8
  | .storeUnmapped => 6#8
  | .divZero => 7#8
  | .divOverflow => 8#8

/-- Taking a fault (R40, R243): the step's effects are discarded, the fault record is written and the
status becomes FAULTED. `word` is the instruction word of the step, 0 for a fetch fault (R32). -/
def takeFault (s : State) (e : Raise) (word : Word) : State :=
  { s with
    next := s.current
    faultCause := e.cause.code
    faultPc := s.current.pc
    faultAddr := e.addr
    faultWord := word
    status := .faulted }

/-- One instruction's transaction (R40): the default advance, the instruction's own rule `body`, and then
the commit, or the fault it raised. -/
def perform (s : State) (body : Txn → Except Raise Txn) : Host.Outcome State Fault Refusal :=
  match body (Txn.start s) with
  | .ok t => .next t.commit
  | .error e => .next (takeFault s e (wordAtPc s))

end Sys2Proof.Machine
end

