-- ==== Sys2Proof/Machine/Arith.lean ====
section
/-! DEFINITION. Arithmetic: ADD, ADDU, SUB, SUBU, ADDI, ADDIU (spec/40_arith_logic.md R120 to R126). All
wrap modulo 2^32 and none traps. -/

namespace Sys2Proof.Machine

/-- ADD (R121). -/
def execAdd (rd rs rt : Reg) (s : State) : Host.Outcome State Fault Refusal :=
  perform s fun t => .ok (t.writeX rd (t.readX rs + t.readX rt))

/-- ADDU (R122). -/
def execAddu (rd rs rt : Reg) (s : State) : Host.Outcome State Fault Refusal :=
  perform s fun t => .ok (t.writeX rd (t.readX rs + t.readX rt))

/-- SUB (R123). -/
def execSub (rd rs rt : Reg) (s : State) : Host.Outcome State Fault Refusal :=
  perform s fun t => .ok (t.writeX rd (t.readX rs - t.readX rt))

/-- SUBU (R124). -/
def execSubu (rd rs rt : Reg) (s : State) : Host.Outcome State Fault Refusal :=
  perform s fun t => .ok (t.writeX rd (t.readX rs - t.readX rt))

/-- ADDI (R125). -/
def execAddi (rt rs : Reg) (imm : Imm16) (s : State) : Host.Outcome State Fault Refusal :=
  perform s fun t => .ok (t.writeX rt (t.readX rs + immS imm))

/-- ADDIU (R126). -/
def execAddiu (rt rs : Reg) (imm : Imm16) (s : State) : Host.Outcome State Fault Refusal :=
  perform s fun t => .ok (t.writeX rt (t.readX rs + immS imm))

end Sys2Proof.Machine
end

