-- ==== Sys2Proof/Machine/Bitwise.lean ====
section
/-! DEFINITION. Bitwise instructions and LUI (spec/40_arith_logic.md R130 to R136, R150). Immediates are
zero-extended. -/

namespace Sys2Proof.Machine

/-- AND (R130). -/
def execAnd (rd rs rt : Reg) (s : State) : Host.Outcome State Fault Refusal :=
  perform s fun t => .ok (t.writeX rd (t.readX rs &&& t.readX rt))

/-- OR (R131). -/
def execOr (rd rs rt : Reg) (s : State) : Host.Outcome State Fault Refusal :=
  perform s fun t => .ok (t.writeX rd (t.readX rs ||| t.readX rt))

/-- XOR (R132). -/
def execXor (rd rs rt : Reg) (s : State) : Host.Outcome State Fault Refusal :=
  perform s fun t => .ok (t.writeX rd (t.readX rs ^^^ t.readX rt))

/-- NOR (R133). -/
def execNor (rd rs rt : Reg) (s : State) : Host.Outcome State Fault Refusal :=
  perform s fun t => .ok (t.writeX rd (~~~(t.readX rs ||| t.readX rt)))

/-- ANDI (R134). -/
def execAndi (rt rs : Reg) (imm : Imm16) (s : State) : Host.Outcome State Fault Refusal :=
  perform s fun t => .ok (t.writeX rt (t.readX rs &&& immZ imm))

/-- ORI (R135). -/
def execOri (rt rs : Reg) (imm : Imm16) (s : State) : Host.Outcome State Fault Refusal :=
  perform s fun t => .ok (t.writeX rt (t.readX rs ||| immZ imm))

/-- XORI (R136). -/
def execXori (rt rs : Reg) (imm : Imm16) (s : State) : Host.Outcome State Fault Refusal :=
  perform s fun t => .ok (t.writeX rt (t.readX rs ^^^ immZ imm))

/-- LUI (R150). -/
def execLui (rt : Reg) (imm : Imm16) (s : State) : Host.Outcome State Fault Refusal :=
  perform s fun t => .ok (t.writeX rt (luiValue imm))

end Sys2Proof.Machine
end

