-- ==== Sys2Proof/Machine/Flags.lean ====
section
/-! DEFINITION. CORE has no status flags and no condition codes (spec/10_state.md R28): compares write a
general register and branches test registers directly. This file holds the conditions that other machines
keep in flags, as functions of the registers they test (spec/40_arith_logic.md R145, R146,
spec/43_control.md R201 to R206). Register values are read as signed where the rule says so (R155). -/

namespace Sys2Proof.Machine

/-- `signed(a) < signed(b)` (R145, R146). -/
def lessSigned (a b : Word) : Bool := decide (a.toInt < b.toInt)

/-- `x[rs] = x[rt]` (R201). -/
def isEqual (a b : Word) : Bool := decide (a = b)

/-- `signed(a) <= 0` (R203). -/
def isNotPositive (a : Word) : Bool := decide (a.toInt ≤ 0)

/-- `signed(a) > 0` (R204). -/
def isPositive (a : Word) : Bool := decide (0 < a.toInt)

/-- `signed(a) < 0` (R205). -/
def isNegative (a : Word) : Bool := decide (a.toInt < 0)

/-- `signed(a) >= 0` (R206). -/
def isNotNegative (a : Word) : Bool := decide (0 ≤ a.toInt)

/-- The result of a compare: 0x00000001 if it holds, else 0x00000000 (R145). -/
def compareResult (c : Bool) : Word := if c then 0x00000001#32 else 0x00000000#32

end Sys2Proof.Machine
end

