-- ==== Sys2Proof/Machine/Branch.lean ====
section
/-! DEFINITION. The six conditional branches (spec/43_control.md R200 to R206): no delay slot, and no
check of the target, which is the next fetch's (R200). -/

namespace Sys2Proof.Machine

/-- Overwrite the default advance with the branch target when the condition holds (R200). -/
def Txn.branchIf (t : Txn) (taken : Bool) (imm : Imm16) : Txn :=
  if taken then t.writePc (branchTarget t.pc imm) else t

/-- BEQ (R201). -/
def execBeq (rs rt : Reg) (imm : Imm16) (s : State) : Host.Outcome State Fault Refusal :=
  perform s fun t => .ok (t.branchIf (isEqual (t.readX rs) (t.readX rt)) imm)

/-- BNE (R202). -/
def execBne (rs rt : Reg) (imm : Imm16) (s : State) : Host.Outcome State Fault Refusal :=
  perform s fun t => .ok (t.branchIf (!isEqual (t.readX rs) (t.readX rt)) imm)

/-- BLEZ (R203). -/
def execBlez (rs : Reg) (imm : Imm16) (s : State) : Host.Outcome State Fault Refusal :=
  perform s fun t => .ok (t.branchIf (isNotPositive (t.readX rs)) imm)

/-- BGTZ (R204). -/
def execBgtz (rs : Reg) (imm : Imm16) (s : State) : Host.Outcome State Fault Refusal :=
  perform s fun t => .ok (t.branchIf (isPositive (t.readX rs)) imm)

/-- BLTZ (R205). -/
def execBltz (rs : Reg) (imm : Imm16) (s : State) : Host.Outcome State Fault Refusal :=
  perform s fun t => .ok (t.branchIf (isNegative (t.readX rs)) imm)

/-- BGEZ (R206). -/
def execBgez (rs : Reg) (imm : Imm16) (s : State) : Host.Outcome State Fault Refusal :=
  perform s fun t => .ok (t.branchIf (isNotNegative (t.readX rs)) imm)

end Sys2Proof.Machine
end

