-- ==== Sys2Proof/Machine/Compare.lean ====
section
/-! DEFINITION. Signed compares: SLT, SLTI (spec/40_arith_logic.md R145, R146). -/

namespace Sys2Proof.Machine

/-- SLT (R145). -/
def execSlt (rd rs rt : Reg) (s : State) : Host.Outcome State Fault Refusal :=
  perform s fun t => .ok (t.writeX rd (compareResult (lessSigned (t.readX rs) (t.readX rt))))

/-- SLTI (R146). -/
def execSlti (rt rs : Reg) (imm : Imm16) (s : State) : Host.Outcome State Fault Refusal :=
  perform s fun t => .ok (t.writeX rt (compareResult (lessSigned (t.readX rs) (immS imm))))

end Sys2Proof.Machine
end

