-- ==== Sys2Proof/Machine/Jump.lean ====
section
/-! DEFINITION. Jumps: J, JAL, JR, JALR (spec/43_control.md R207 to R210). The link value is pc + 8
(R208, R210; spec/90_conflicts.md C2). Any 32-bit target is accepted; the next fetch checks it (R25). -/

namespace Sys2Proof.Machine

/-- J (R207). -/
def execJ (target : Target26) (s : State) : Host.Outcome State Fault Refusal :=
  perform s fun t => .ok (t.writePc (jumpTarget t.pc target))

/-- JAL (R208). -/
def execJal (target : Target26) (s : State) : Host.Outcome State Fault Refusal :=
  perform s fun t => .ok ((t.writeX 31 (linkValue t.pc)).writePc (jumpTarget t.pc target))

/-- JR (R209). -/
def execJr (rs : Reg) (s : State) : Host.Outcome State Fault Refusal :=
  perform s fun t => .ok (t.writePc (t.readX rs))

/-- JALR (R210): the target is read from the current copy, so rd = rs jumps to the old value. -/
def execJalr (rd rs : Reg) (s : State) : Host.Outcome State Fault Refusal :=
  perform s fun t => .ok ((t.writeX rd (linkValue t.pc)).writePc (t.readX rs))

end Sys2Proof.Machine
end

