-- ==== Sys2Proof/Machine/LoadStore.lean ====
section
/-! DEFINITION. Loads and stores (spec/42_load_store.md R180 to R187). A load's fault writes no register
and a store's fault writes no byte (R181). -/

namespace Sys2Proof.Machine

/-- The effective address of a load or store, from the current copy (R180). -/
def Txn.ea (t : Txn) (base : Reg) (imm : Imm16) : Word := effectiveAddress (t.readX base) imm

/-- LW (R182). -/
def execLw (rt base : Reg) (imm : Imm16) (s : State) : Host.Outcome State Fault Refusal :=
  perform s fun t =>
    match memRead32 t.st (t.ea base imm) .load with
    | .ok v => .ok (t.writeX rt v)
    | .error e => .error e

/-- LH, sign-extended (R183). -/
def execLh (rt base : Reg) (imm : Imm16) (s : State) : Host.Outcome State Fault Refusal :=
  perform s fun t =>
    match memRead16 t.st (t.ea base imm) with
    | .ok v => .ok (t.writeX rt (v.signExtend 32))
    | .error e => .error e

/-- LB, sign-extended (R184). -/
def execLb (rt base : Reg) (imm : Imm16) (s : State) : Host.Outcome State Fault Refusal :=
  perform s fun t =>
    match memRead8 t.st (t.ea base imm) with
    | .ok v => .ok (t.writeX rt (v.signExtend 32))
    | .error e => .error e

/-- SW (R185). -/
def execSw (rt base : Reg) (imm : Imm16) (s : State) : Host.Outcome State Fault Refusal :=
  perform s fun t => t.memWrite (t.ea base imm) 4 (t.readX rt)

/-- SH, the low 16 bits (R186). -/
def execSh (rt base : Reg) (imm : Imm16) (s : State) : Host.Outcome State Fault Refusal :=
  perform s fun t => t.memWrite (t.ea base imm) 2 (t.readX rt)

/-- SB, the low 8 bits (R187). -/
def execSb (rt base : Reg) (imm : Imm16) (s : State) : Host.Outcome State Fault Refusal :=
  perform s fun t => t.memWrite (t.ea base imm) 1 (t.readX rt)

end Sys2Proof.Machine
end

