-- ==== Sys2Proof/Machine/MulDiv.lean ====
section
/-! DEFINITION. Multiply, divide and the HI/LO moves (spec/41_muldiv_hilo.md R160 to R168). -/

namespace Sys2Proof.Machine

/-- Write both accumulators (R160). -/
def Txn.writeHiLo (t : Txn) (p : HiLo) : Txn := (t.writeHi p.hi).writeLo p.lo

/-- MULT (R161). -/
def execMult (rs rt : Reg) (s : State) : Host.Outcome State Fault Refusal :=
  perform s fun t => .ok (t.writeHiLo (signedProduct (t.readX rs) (t.readX rt)))

/-- MULTU (R162). -/
def execMultu (rs rt : Reg) (s : State) : Host.Outcome State Fault Refusal :=
  perform s fun t => .ok (t.writeHiLo (unsignedProduct (t.readX rs) (t.readX rt)))

/-- DIV (R163): DIV_ZERO, then DIV_OVERFLOW, then quotient and remainder. -/
def execDiv (rs rt : Reg) (s : State) : Host.Outcome State Fault Refusal :=
  perform s fun t =>
    if t.readX rt = 0x00000000#32 then .error { cause := .divZero, addr := 0#32 }
    else if divOverflows (t.readX rs) (t.readX rt) then .error { cause := .divOverflow, addr := 0#32 }
    else .ok (t.writeHiLo (signedDivide (t.readX rs) (t.readX rt)))

/-- DIVU (R164): DIV_ZERO, else quotient and remainder. -/
def execDivu (rs rt : Reg) (s : State) : Host.Outcome State Fault Refusal :=
  perform s fun t =>
    if t.readX rt = 0x00000000#32 then .error { cause := .divZero, addr := 0#32 }
    else .ok (t.writeHiLo (unsignedDivide (t.readX rs) (t.readX rt)))

/-- MFHI (R165). -/
def execMfhi (rd : Reg) (s : State) : Host.Outcome State Fault Refusal :=
  perform s fun t => .ok (t.writeX rd t.readHi)

/-- MFLO (R166). -/
def execMflo (rd : Reg) (s : State) : Host.Outcome State Fault Refusal :=
  perform s fun t => .ok (t.writeX rd t.readLo)

/-- MTHI (R167). -/
def execMthi (rs : Reg) (s : State) : Host.Outcome State Fault Refusal :=
  perform s fun t => .ok (t.writeHi (t.readX rs))

/-- MTLO (R168). -/
def execMtlo (rs : Reg) (s : State) : Host.Outcome State Fault Refusal :=
  perform s fun t => .ok (t.writeLo (t.readX rs))

end Sys2Proof.Machine
end

