-- ==== Sys2Proof/Machine/Shift.lean ====
section
/-! DEFINITION. Shifts: SLL, SRL, SRA (spec/40_arith_logic.md R140 to R142). SLL $0,$0,0 is the
conventional nop (spec/30_encoding.md R106). -/

namespace Sys2Proof.Machine

/-- SLL (R140). -/
def execSll (rd rt : Reg) (shamt : Shamt) (s : State) : Host.Outcome State Fault Refusal :=
  perform s fun t => .ok (t.writeX rd (shiftLeft (t.readX rt) shamt))

/-- SRL (R141). -/
def execSrl (rd rt : Reg) (shamt : Shamt) (s : State) : Host.Outcome State Fault Refusal :=
  perform s fun t => .ok (t.writeX rd (shiftRightLogical (t.readX rt) shamt))

/-- SRA (R142). -/
def execSra (rd rt : Reg) (shamt : Shamt) (s : State) : Host.Outcome State Fault Refusal :=
  perform s fun t => .ok (t.writeX rd (shiftRightArith (t.readX rt) shamt))

end Sys2Proof.Machine
end

