-- ==== Sys2Proof/Machine/System.lean ====
section
/-! DEFINITION. The halt and the unrecognized encoding (spec/44_system.md R230 to R233). -/

namespace Sys2Proof.Machine

/-- SYSCALL, the halt (R230): it reads no register (R231). -/
def execSyscall (s : State) : Host.Outcome State Fault Refusal :=
  perform s fun t => .ok t.requestHalt

/-- An unrecognized encoding (R232): a committed no-op that marks the illegal record. It is what a step
does with a word that the decoder rejects, and no instruction of the opcode table. -/
def execUnrecognized (s : State) : Host.Outcome State Fault Refusal :=
  perform s fun t => .ok t.markIllegal

end Sys2Proof.Machine
end

