-- ==== Sys2Proof/Machine/Step.lean ====
section
/-! DEFINITION. One step of CORE (spec/10_state.md R40, spec/70_reset_and_hazards.md R276): fetch, decode,
execute and commit of one instruction as one indivisible transaction. -/

namespace Sys2Proof.Machine

/-- One step. When status is not RUNNING it changes nothing (R276; the host's NOT_RUNNING is
`hostStep`'s). A fetch fault records FAULT_WORD 0 (R32, R40). A word that decodes to no instruction runs
as the unrecognized encoding (R232). -/
def step (s : State) : Host.Outcome State Fault Refusal :=
  match s.status with
  | .running =>
    match fetch s with
    | .error e => .next (takeFault s e 0#32)
    | .ok w =>
      match decodeWord w with
      | .ok i => exec i s
      | .error _ => execUnrecognized s
  | .stopped => .next s
  | .faulted => .next s

/-- The state with an instruction word stored where the next step fetches: the four bytes at `pc`,
little-endian (R67), with the bits above `nbits` zero. Where `pc` cannot be fetched from, the next step
faults whatever memory holds, and nothing is stored (assumption log 11). -/
def State.withFetchWord (s : State) (nbits w : Nat) : State :=
  match check s.params s.current.pc 4 .fetch with
  | .ok (r, off) => { s with mem := s.mem.write (cellOf r off) (BitVec.ofNat 32 (w % 2 ^ nbits)) 4 }
  | .error _ => s

end Sys2Proof.Machine
end

