-- ==== Sys2Proof/WellFormed.lean ====
section
/-! DEFINITION. What is well formed: the constraints (a) to (e) that spec/00_scope.md R8 puts on REGIONS,
and the size limit of spec/70_reset_and_hazards.md R272 on a program image. An `Instr` needs no check of
its own: its register, shift, immediate and target fields have exactly the range of their encoding fields
(spec/30_encoding.md R90), so every term of `Instr` is well formed. -/

namespace Sys2Proof

/-- The two regions share no address (R8 (a)). -/
def Region.apart (a b : Region) : Bool :=
  decide (a.limit ≤ b.base.toNat) || decide (b.limit ≤ a.base.toNat)

/-- R8 (a): no two regions overlap. -/
def regionsApart : List Region → Bool
  | [] => true
  | r :: rs => rs.all r.apart && regionsApart rs

/-- R8 (b): every base and every size is a multiple of 4, and every size is greater than 0. -/
def regionsAligned (rs : List Region) : Bool :=
  rs.all fun r => decide (r.base.toNat % 4 = 0) && decide (r.size % 4 = 0) && decide (0 < r.size)

/-- R8 (c): no region wraps around the top of the address space. -/
def regionsInSpace (rs : List Region) : Bool :=
  rs.all fun r => decide (r.limit ≤ 2 ^ 32)

/-- R8 (d): exactly one region is named `text`. -/
def oneTextRegion (rs : List Region) : Bool :=
  decide ((rs.filter fun r => decide (r.name = .text)).length = 1)

/-- R8 (e): some region contains the addresses 0x10010000 to 0x10010003. -/
def mapsScenarioWord (rs : List Region) : Bool :=
  rs.any fun r => decide (r.base.toNat ≤ 0x10010000) && decide (0x10010004 ≤ r.limit)

/-- The parameters meet every constraint of R8. -/
def Params.wf (p : Params) : Bool :=
  regionsApart p.regions && regionsAligned p.regions && regionsInSpace p.regions &&
    oneTextRegion p.regions && mapsScenarioWord p.regions

/-- The image fits the text region, the test of R272: not `4*N > size(text region)`. -/
def Params.imageFits (p : Params) (words : List Word) : Bool :=
  decide (4 * words.length ≤ p.textSize)

end Sys2Proof
end

