-- ==== Sys2Proof/Machine/HostInterface.lean ====
section
/-! DEFINITION. The operations the host calls on CORE between steps (spec/00_scope.md R4):
initialize, loadProgram, reset (spec/70_reset_and_hazards.md R270 to R275), step, runFor, runToCompletion
(R276 to R278), the read and write accessors (spec/10_state.md R39, R42; spec/20_memory.md R71) and
decodeForDisplay (spec/30_encoding.md R112). initialize is `State.initialized` of Machine/State.lean. -/

namespace Sys2Proof.Machine

/-! ### Loading and reset -/

/-- The results of loadProgram (R272, R273). -/
inductive LoadResult where
  /-- The word count N. -/
  | loaded (n : Nat)
  /-- LOAD_ERROR: the image is larger than the text region; nothing was written. -/
  | loadError
  deriving DecidableEq, Repr

/-- Memory with the image's words from TEXT_BASE on (R272). -/
def writeImage (p : Params) (m : Memory) (words : List Word) : Memory :=
  m.writeWords p.textBase.toNat words

/-- `loadProgram(words)` (R272). -/
def loadProgram (words : List Word) (s : State) : State × LoadResult :=
  if s.params.imageFits words then
    ({ s with mem := writeImage s.params s.mem words, image := words }, .loaded words.length)
  else (s, .loadError)

/-- `reset()` (R274): everything zeroed, the program of IMAGE reloaded, status RUNNING. -/
def hostReset (s : State) : State :=
  { State.initialized s.params with
    mem := writeImage s.params [] s.image
    image := s.image }

/-- The launch state of a program: `initialize(); loadProgram(P)` (R275). -/
def State.launch (p : Params) (words : List Word) : State :=
  (loadProgram words (State.initialized p)).1

/-! ### Running -/

/-- The results of step() (R276). -/
inductive StepResult where
  | ok
  | halted
  | faulted
  | notRunning
  deriving DecidableEq, Repr

/-- The state after one step. A step always answers a next state; the other two outcomes are never
reached. -/
def stepState (s : State) : State :=
  match step s with
  | .next t => t
  | .fault _ => s
  | .refused _ => s

/-- The result of a step from `s`: NOT_RUNNING, or what the step's end status says (R40, R276). -/
def stepResult (s : State) : StepResult :=
  match s.status with
  | .running =>
    match (stepState s).status with
    | .running => .ok
    | .stopped => .halted
    | .faulted => .faulted
  | .stopped => .notRunning
  | .faulted => .notRunning

/-- `step()` as the host sees it (R276). -/
def hostStep (s : State) : State × StepResult := (stepState s, stepResult s)

/-- Steps up to `n` times while the status is RUNNING, with the number of steps that committed: a step
that faults does not commit (R31, R277). -/
def runSteps : Nat → State → State × Nat
  | 0, s => (s, 0)
  | n + 1, s =>
    match stepResult s with
    | .notRunning => (s, 0)
    | .faulted => (stepState s, 0)
    | .halted => (stepState s, 1)
    | .ok =>
      let r := runSteps n (stepState s)
      (r.1, r.2 + 1)

/-- The results of runFor and runToCompletion (R277). -/
inductive RunResult where
  /-- The number of steps that committed and the final status. -/
  | ran (committed : Nat) (status : RunStatus)
  | notRunning
  deriving DecidableEq, Repr

/-- `runFor(n)` (R277). -/
def runFor (n : Nat) (s : State) : State × RunResult :=
  match s.status with
  | .running => ((runSteps n s).1, .ran (runSteps n s).2 (runSteps n s).1.status)
  | .stopped => (s, .notRunning)
  | .faulted => (s, .notRunning)

/-- `runToCompletion()` from `s` returns with state `t` (R278): some number of steps leads to `t`, which
is not RUNNING. A program that neither halts nor faults is related to no state: the call does not return
(spec/93_implementation_defined.md U8). -/
def RunsToCompletion (s t : State) : Prop := ∃ n, (runSteps n s).1 = t ∧ t.status ≠ .running

/-- runToCompletion under a host's cap on the number of steps: none is the host's "did not halt"
(R278, spec/92_eei_decisions.md D29). -/
def runToCompletionWithin (cap : Nat) (s : State) : Option State :=
  match (runSteps cap s).1.status with
  | .running => none
  | .stopped => some (runSteps cap s).1
  | .faulted => some (runSteps cap s).1

/-! ### Accessors -/

/-- Poke a general register: both copies, any status; discarded for a hardwired register 0 (R39). -/
def pokeX (i : Reg) (v : Word) (s : State) : State :=
  if hardwired s i then s else { s with current := s.current.setX i v, next := s.next.setX i v }

/-- Poke HI: both copies, any status (R39). -/
def pokeHi (v : Word) (s : State) : State :=
  { s with current := { s.current with hi := v }, next := { s.next with hi := v } }

/-- Poke LO: both copies, any status (R39). -/
def pokeLo (v : Word) (s : State) : State :=
  { s with current := { s.current with lo := v }, next := { s.next with lo := v } }

/-- Read pc (R42). -/
def readPc (s : State) : Word := s.current.pc
/-- Read HI (R42). -/
def readHi (s : State) : Word := s.current.hi
/-- Read LO (R42). -/
def readLo (s : State) : Word := s.current.lo

/-- The 2-bit code of the run status (R30, R34). -/
def RunStatus.code : RunStatus → BitVec 2
  | .running => 0#2
  | .stopped => 1#2
  | .faulted => 2#2

/-- Read the status register (R34, R42). -/
def readStatus (s : State) : BitVec 2 := s.status.code

/-- Read ILL as its one bit (R33, R42). -/
def readIll (s : State) : BitVec 1 := if s.ill then 1#1 else 0#1

/-- The results of the host's memory read (R71). -/
inductive ReadResult where
  | word (w : Word)
  | invalidAddress
  deriving DecidableEq, Repr

/-- `readWord(addr)`: no fault and no change of state in any case (R71). -/
def readWord (s : State) (addr : Word) : ReadResult :=
  match memRead32 s addr .load with
  | .ok w => .word w
  | .error _ => .invalidAddress

/-- The results of decodeForDisplay (R112). -/
inductive DisplayResult where
  | record (d : Decoded)
  | invalidAddress
  deriving DecidableEq, Repr

/-- `decodeForDisplay(address)`: the decoded record; its text is the host's (R112). -/
def decodeForDisplay (s : State) (addr : Word) : DisplayResult :=
  match memRead32 s addr .load with
  | .ok w => .record (decodeRecord w)
  | .error _ => .invalidAddress

end Sys2Proof.Machine
end

