-- ==== Sys2Proof/Safety.lean ====
section
/-! DEFINITION. The terms claims about CORE are stated in: the machine's invariant, what a committed
instruction and a taken fault leave, the frames, and the spec's own tables of destinations, stores and
fault conditions, written from the spec's words and not from the meanings. -/

namespace Sys2Proof.Machine

/-! ### The invariant -/

/-- `current == next`, which holds at the start of every step (spec/10_state.md R37). -/
def State.Unified (s : State) : Prop := s.current = s.next

/-- The address lies in some region (spec/20_memory.md R61). -/
def Mapped (p : Params) (addr : Nat) : Prop := ∃ r ∈ p.regions, r.base.toNat ≤ addr ∧ addr < r.limit

/-- What holds of every state between host operations. -/
structure Inv (s : State) : Prop where
  /-- The region map meets R8. -/
  paramsWf : s.params.wf = true
  /-- R37. -/
  unified : s.Unified
  /-- Memory is in canonical form. -/
  memoryWf : s.mem.wf = true
  /-- Only mapped bytes hold anything (R60, R61). -/
  onlyMappedBytes : ∀ a, s.mem.byte a ≠ 0#8 → Mapped s.params a
  /-- IMAGE is an image that loadProgram accepted (R43, R272). -/
  imageFits : s.params.imageFits s.image = true
  /-- FAULT_CAUSE holds 0 to 8; 9 to 255 never occur (R34). -/
  causeInRange : s.faultCause.toNat ≤ 8
  /-- The fault record is written exactly when the status becomes FAULTED (R32). -/
  faultedIff : s.status = .faulted ↔ s.faultCause ≠ 0#8
  /-- With no fault recorded the rest of the fault record is 0 (R32, R34). -/
  noFaultRecord : s.faultCause = 0#8 → s.faultPc = 0#32 ∧ s.faultAddr = 0#32 ∧ s.faultWord = 0#32
  /-- With ILL = 0 the rest of the illegal record is 0 (R33, R34). -/
  noIllegalRecord : s.ill = false → s.illPc = 0#32 ∧ s.illWord = 0#32

/-! ### Frames -/

/-- Every byte of memory reads as before. -/
def SameBytes (s t : State) : Prop := ∀ a, t.mem.byte a = s.mem.byte a

/-- Every byte of memory outside `addr .. addr + n - 1` reads as before. -/
def SameBytesOutside (s t : State) (addr : Word) (n : Nat) : Prop :=
  ∀ a, ¬(addr.toNat ≤ a ∧ a < addr.toNat + n) → t.mem.byte a = s.mem.byte a

/-- Every general register is unchanged. -/
def SameRegisters (s t : State) : Prop := t.current.x = s.current.x

/-- HI and LO are unchanged. -/
def SameHiLo (s t : State) : Prop := t.current.hi = s.current.hi ∧ t.current.lo = s.current.lo

/-- The fault record is unchanged (R32). -/
def SameFaultRecord (s t : State) : Prop :=
  t.faultCause = s.faultCause ∧ t.faultPc = s.faultPc ∧ t.faultAddr = s.faultAddr ∧ t.faultWord = s.faultWord

/-- The illegal-instruction record is unchanged (R33). -/
def SameIllegalRecord (s t : State) : Prop := t.ill = s.ill ∧ t.illPc = s.illPc ∧ t.illWord = s.illWord

/-- Register `rd` is written with `v`, as R7 and R11 say: a hardwired register 0 reads 0 and keeps what
it stores; every other register reads as before. -/
structure WritesRegister (s t : State) (rd : Reg) (v : Word) : Prop where
  reads : t.readX rd = if hardwired s rd then 0#32 else v
  others : ∀ r, r ≠ rd → t.readX r = s.readX r
  discarded : hardwired s rd = true → t.current.x = s.current.x

/-- What every committed instruction of the opcode table does besides its own effect (R41): the two copies
are unified, the counter counts it, and the records, the parameters and IMAGE are unchanged. -/
structure Committed (s t : State) : Prop where
  unified : t.Unified
  counted : t.icount = s.icount + 1#64
  faultRecord : SameFaultRecord s t
  illegalRecord : SameIllegalRecord s t
  params : t.params = s.params
  image : t.image = s.image

/-- A fault taken (R243): the architectural state, memory, the counter, the illegal record, the parameters
and IMAGE as before, the fault record written and the status FAULTED. -/
structure FaultTaken (s t : State) (cause : Fault) (addr word : Word) : Prop where
  current : t.current = s.current
  next : t.next = s.current
  memory : SameBytes s t
  notCounted : t.icount = s.icount
  faultCause : t.faultCause = cause.code
  faultPc : t.faultPc = s.current.pc
  faultAddr : t.faultAddr = addr
  faultWord : t.faultWord = word
  status : t.status = .faulted
  illegalRecord : SameIllegalRecord s t
  params : t.params = s.params
  image : t.image = s.image

/-- The register and record values of R45 with pc at `textBase`. -/
structure Zeroed (t : State) (textBase : Word) : Prop where
  pc : t.current.pc = textBase
  registers : ∀ r : Reg, t.current.x[r.val] = 0#32
  hi : t.current.hi = 0#32
  lo : t.current.lo = 0#32
  bothCopies : t.Unified
  status : t.status = .running
  icount : t.icount = 0#64
  faultRecord : t.faultCause = 0#8 ∧ t.faultPc = 0#32 ∧ t.faultAddr = 0#32 ∧ t.faultWord = 0#32
  illegalRecord : t.ill = false ∧ t.illPc = 0#32 ∧ t.illWord = 0#32

/-- Memory holds the words of an image from `base` on, little-endian, and 0 everywhere else (R45, R272). -/
def HoldsExactly (t : State) (base : Word) (image : List Word) : Prop :=
  (∀ (k : Nat) (hk : k < image.length) (j : Nat), j < 4 →
    t.mem.byte (base.toNat + 4 * k + j) = image[k].extractLsb' (8 * j) 8) ∧
  ∀ a, ¬(base.toNat ≤ a ∧ a < base.toNat + 4 * image.length) → t.mem.byte a = 0#8

/-! ### The shapes of completed instructions -/

/-- `i` completes, writes `v` to register `rd` and nothing else, and advances pc by 4 (R120, R24). -/
def SetsRegister (i : Instr) (s : State) (rd : Reg) (v : Word) : Prop :=
  ∃ t, exec i s = .next t ∧ WritesRegister s t rd v ∧ SameHiLo s t ∧
    t.current.pc = s.current.pc + 4#32 ∧ SameBytes s t ∧ t.status = s.status ∧ Committed s t

/-- `i` completes, leaves `hi` and `lo` in HI and LO and nothing else, and advances pc by 4 (R160). -/
def SetsHiLo (i : Instr) (s : State) (hi lo : Word) : Prop :=
  ∃ t, exec i s = .next t ∧ SameRegisters s t ∧ t.current.hi = hi ∧ t.current.lo = lo ∧
    t.current.pc = s.current.pc + 4#32 ∧ SameBytes s t ∧ t.status = s.status ∧ Committed s t

/-- `i` completes, leaves pc at `target` and changes nothing else (R200, R207, R209). -/
def GoesTo (i : Instr) (s : State) (target : Word) : Prop :=
  ∃ t, exec i s = .next t ∧ SameRegisters s t ∧ SameHiLo s t ∧
    t.current.pc = target ∧ SameBytes s t ∧ t.status = s.status ∧ Committed s t

/-- `i` completes, leaves pc at `target`, writes `link` to register `rd` and changes nothing else (R208,
R210). -/
def LinksAndGoesTo (i : Instr) (s : State) (rd : Reg) (link target : Word) : Prop :=
  ∃ t, exec i s = .next t ∧ WritesRegister s t rd link ∧ SameHiLo s t ∧
    t.current.pc = target ∧ SameBytes s t ∧ t.status = s.status ∧ Committed s t

/-- `i` completes, stores the low `n` bytes of `v` little-endian at `addr` and nothing else, and advances
pc by 4 (R66, R181). -/
def StoresBytes (i : Instr) (s : State) (addr : Word) (n : Nat) (v : Word) : Prop :=
  ∃ t, exec i s = .next t ∧ SameRegisters s t ∧ SameHiLo s t ∧
    t.current.pc = s.current.pc + 4#32 ∧
    (∀ k, k < n → t.mem.byte (addr.toNat + k) = v.extractLsb' (8 * k) 8) ∧
    SameBytesOutside s t addr n ∧ t.status = s.status ∧ Committed s t

/-- `i` faults with this cause and address, and records the word at pc (R243). -/
def FaultsWith (i : Instr) (s : State) (cause : Fault) (addr : Word) : Prop :=
  ∃ t, exec i s = .next t ∧ FaultTaken s t cause addr (s.mem.read32 s.current.pc.toNat)

/-! ### Encodings, as the rules name them -/

/-- Every word with op 0 and this funct decodes to `f` of the word (R102). -/
def SpecialEncoding (funct : BitVec 6) (f : Word → Instr) : Prop :=
  ∀ w, fieldOp w = 0x00#6 → fieldFunct w = funct → decodeWord w = .ok (f w)

/-- Every word with this op decodes to `f` of the word (R101). -/
def PrimaryEncoding (op : BitVec 6) (f : Word → Instr) : Prop :=
  ∀ w, fieldOp w = op → decodeWord w = .ok (f w)

/-- Every word with op 1 and this rt decodes to `f` of the word (R103). -/
def RegimmEncoding (rt : BitVec 5) (f : Word → Instr) : Prop :=
  ∀ w, fieldOp w = 0x01#6 → fieldRt w = rt → decodeWord w = .ok (f w)

/-! ### The spec's tables -/

/-- The general register an instruction writes, if any (R22). -/
def destination : Instr → Option Reg
  | .add rd _ _ | .addu rd _ _ | .sub rd _ _ | .subu rd _ _ | .and rd _ _ | .or rd _ _ | .xor rd _ _
  | .nor rd _ _ | .slt rd _ _ | .sll rd _ _ | .srl rd _ _ | .sra rd _ _ | .mfhi rd | .mflo rd
  | .jalr rd _ => some rd
  | .addi rt _ _ | .addiu rt _ _ | .andi rt _ _ | .ori rt _ _ | .xori rt _ _ | .slti rt _ _ | .lui rt _
  | .lw rt _ _ | .lh rt _ _ | .lb rt _ _ => some rt
  | .jal _ => some 31
  | .mult .. | .multu .. | .div .. | .divu .. | .mthi .. | .mtlo .. | .sw .. | .sh .. | .sb .. | .beq ..
  | .bne .. | .blez .. | .bgtz .. | .bltz .. | .bgez .. | .j .. | .jr .. | .syscall => none

/-- The address and width of an instruction's store, if it is one (R185 to R187). -/
def storeTarget (s : State) : Instr → Option (Word × Nat)
  | .sw _ base imm => some (effectiveAddress (s.readX base) imm, 4)
  | .sh _ base imm => some (effectiveAddress (s.readX base) imm, 2)
  | .sb _ base imm => some (effectiveAddress (s.readX base) imm, 1)
  | .add .. | .addu .. | .sub .. | .subu .. | .addi .. | .addiu .. | .and .. | .or .. | .xor .. | .nor ..
  | .andi .. | .ori .. | .xori .. | .sll .. | .srl .. | .sra .. | .slt .. | .slti .. | .lui .. | .mult ..
  | .multu .. | .div .. | .divu .. | .mfhi .. | .mflo .. | .mthi .. | .mtlo .. | .lw .. | .lh .. | .lb ..
  | .beq .. | .bne .. | .blez .. | .bgtz .. | .bltz .. | .bgez .. | .j .. | .jal .. | .jr .. | .jalr ..
  | .syscall => none

/-- The instruction is in the branch or jump families (R24). -/
def isBranchOrJump : Instr → Bool
  | .beq .. | .bne .. | .blez .. | .bgtz .. | .bltz .. | .bgez .. | .j .. | .jal .. | .jr .. | .jalr .. => true
  | .add .. | .addu .. | .sub .. | .subu .. | .addi .. | .addiu .. | .and .. | .or .. | .xor .. | .nor ..
  | .andi .. | .ori .. | .xori .. | .sll .. | .srl .. | .sra .. | .slt .. | .slti .. | .lui .. | .mult ..
  | .multu .. | .div .. | .divu .. | .mfhi .. | .mflo .. | .mthi .. | .mtlo .. | .lw .. | .lh .. | .lb ..
  | .sw .. | .sh .. | .sb .. | .syscall => false

/-- The instruction writes HI (R27). -/
def writesHi : Instr → Bool
  | .mult .. | .multu .. | .div .. | .divu .. | .mthi .. => true
  | .add .. | .addu .. | .sub .. | .subu .. | .addi .. | .addiu .. | .and .. | .or .. | .xor .. | .nor ..
  | .andi .. | .ori .. | .xori .. | .sll .. | .srl .. | .sra .. | .slt .. | .slti .. | .lui .. | .mfhi ..
  | .mflo .. | .mtlo .. | .lw .. | .lh .. | .lb .. | .sw .. | .sh .. | .sb .. | .beq .. | .bne .. | .blez ..
  | .bgtz .. | .bltz .. | .bgez .. | .j .. | .jal .. | .jr .. | .jalr .. | .syscall => false

/-- The instruction writes LO (R27). -/
def writesLo : Instr → Bool
  | .mult .. | .multu .. | .div .. | .divu .. | .mtlo .. => true
  | .add .. | .addu .. | .sub .. | .subu .. | .addi .. | .addiu .. | .and .. | .or .. | .xor .. | .nor ..
  | .andi .. | .ori .. | .xori .. | .sll .. | .srl .. | .sra .. | .slt .. | .slti .. | .lui .. | .mfhi ..
  | .mflo .. | .mthi .. | .lw .. | .lh .. | .lb .. | .sw .. | .sh .. | .sb .. | .beq .. | .bne .. | .blez ..
  | .bgtz .. | .bltz .. | .bgez .. | .j .. | .jal .. | .jr .. | .jalr .. | .syscall => false

/-- The address is mapped, as a test (R61). -/
def mappedTest (p : Params) (addr : Word) : Bool :=
  p.regions.any fun r => decide (r.base.toNat ≤ addr.toNat) && decide (addr.toNat < r.base.toNat + r.size)

/-- The fault of one data access or fetch: misaligned before unmapped (R69, R70, R244). -/
def accessFault (p : Params) (addr : Word) (n : Nat) (misaligned unmapped : Fault) : Option (Fault × Word) :=
  if addr.toNat % n ≠ 0 then some (misaligned, addr)
  else if mappedTest p addr then none
  else some (unmapped, addr)

/-- The fault an instruction raises in a state, with its FAULT_ADDR (R241). -/
def instrFault (s : State) : Instr → Option (Fault × Word)
  | .lw _ base imm =>
    accessFault s.params (effectiveAddress (s.readX base) imm) 4 .loadMisaligned .loadUnmapped
  | .lh _ base imm =>
    accessFault s.params (effectiveAddress (s.readX base) imm) 2 .loadMisaligned .loadUnmapped
  | .lb _ base imm =>
    accessFault s.params (effectiveAddress (s.readX base) imm) 1 .loadMisaligned .loadUnmapped
  | .sw _ base imm =>
    accessFault s.params (effectiveAddress (s.readX base) imm) 4 .storeMisaligned .storeUnmapped
  | .sh _ base imm =>
    accessFault s.params (effectiveAddress (s.readX base) imm) 2 .storeMisaligned .storeUnmapped
  | .sb _ base imm =>
    accessFault s.params (effectiveAddress (s.readX base) imm) 1 .storeMisaligned .storeUnmapped
  | .div rs rt =>
    if s.readX rt = 0#32 then some (.divZero, 0#32)
    else if s.readX rs = 0x80000000#32 ∧ s.readX rt = 0xFFFFFFFF#32 then some (.divOverflow, 0#32)
    else none
  | .divu _ rt => if s.readX rt = 0#32 then some (.divZero, 0#32) else none
  | .add .. | .addu .. | .sub .. | .subu .. | .addi .. | .addiu .. | .and .. | .or .. | .xor .. | .nor ..
  | .andi .. | .ori .. | .xori .. | .sll .. | .srl .. | .sra .. | .slt .. | .slti .. | .lui .. | .mult ..
  | .multu .. | .mfhi .. | .mflo .. | .mthi .. | .mtlo .. | .beq .. | .bne .. | .blez .. | .bgtz .. | .bltz ..
  | .bgez .. | .j .. | .jal .. | .jr .. | .jalr .. | .syscall => none

/-- The fault of a step in a state, with its FAULT_ADDR and FAULT_WORD, in the order of R244: fetch
misaligned, fetch unmapped, then the instruction's own. -/
def stepFault (s : State) : Option (Fault × Word × Word) :=
  match accessFault s.params s.current.pc 4 .fetchMisaligned .fetchUnmapped with
  | some (f, a) => some (f, a, 0#32)
  | none =>
    match decodeWord (s.mem.read32 s.current.pc.toNat) with
    | .ok i => (instrFault s i).map fun e => (e.1, e.2, s.mem.read32 s.current.pc.toNat)
    | .error _ => none

/-- The instruction word the step in state `s` fetches is `w` (R40, R67): pc is aligned and mapped, and
`w` stands there little-endian. -/
structure Fetches (s : State) (w : Word) : Prop where
  aligned : s.current.pc.toNat % 4 = 0
  mapped : mappedTest s.params s.current.pc = true
  word : ∀ k, k < 4 → s.mem.byte (s.current.pc.toNat + k) = w.extractLsb' (8 * k) 8

end Sys2Proof.Machine
end

