-- ==== Sys2Proof/Certificates/Slice0/Obligations.lean ====
section
/-! DEFINITION. The statements about CORE for the provers, each a Prop. They are stated from the numbered
rules of spec/, for every state that meets their premises and every value of the parameters R0_HARDWIRED
and REGIONS. `State.Unified` (R37) is the premise that rules out states between the two halves of a commit;
`StepKeepsTheInvariant` states that no step leaves it. -/

open Sys2Proof Sys2Proof.Machine

/-! ### Encoding and decode -/

/-- R90, R100 to R103: decoding an encoded instruction gives it back, from its word and from its bytes
with any bytes after them. -/
def Obligations.DecodeOfEncodeIsIdentity : Prop :=
  ∀ (i : Instr) (rest : List Byte),
    decodeWord (encode i) = .ok i ∧ decode (encodeBytes i ++ rest) = .ok (i, rest)

/-- R105: a word decodes to an instruction exactly if it is that instruction's word but for the bits the
instruction ignores. -/
def Obligations.DecodeIgnoresExactlyTheUnusedFields : Prop :=
  ∀ (w : Word) (i : Instr), decodeWord w = .ok i ↔ w &&& ~~~i.ignoredMask = encode i

/-- spec/opcode_table.json: a word decodes to an instruction of a row exactly if it has the row's fixed
bits. -/
def Obligations.OpcodeTableRowsDecideTheInstruction : Prop :=
  (∀ (w : Word) (i : Instr), decodeWord w = .ok i → i.row ∈ opcodeTable ∧ i.row.hits w) ∧
  (∀ (w : Word) (row : OpcodeRow), row ∈ opcodeTable → row.hits w → ∃ i, decodeWord w = .ok i ∧ i.row = row)

/-- R104, R232: which words are unrecognized, and that each runs as a committed no-op which only the first
of them records. -/
def Obligations.UnrecognizedWordsRunAsNoOps : Prop :=
  (∀ w : Word, decodeRecord w = .unrecognized w ↔
    (fieldOp w = 0x00#6 ∧ fieldFunct w ∉
      [0x00#6, 0x02#6, 0x03#6, 0x08#6, 0x09#6, 0x0C#6, 0x10#6, 0x11#6, 0x12#6, 0x13#6, 0x18#6, 0x19#6,
       0x1A#6, 0x1B#6, 0x20#6, 0x21#6, 0x22#6, 0x23#6, 0x24#6, 0x25#6, 0x26#6, 0x27#6, 0x2A#6]) ∨
    (fieldOp w = 0x01#6 ∧ fieldRt w ≠ 0x00#5 ∧ fieldRt w ≠ 0x01#5) ∨
    (fieldOp w = 0x0B#6 ∨ (0x10 ≤ (fieldOp w).toNat ∧ (fieldOp w).toNat ≤ 0x1F) ∨ fieldOp w = 0x22#6 ∨
      (0x24 ≤ (fieldOp w).toNat ∧ (fieldOp w).toNat ≤ 0x27) ∨ fieldOp w = 0x2A#6 ∨
      0x2C ≤ (fieldOp w).toNat)) ∧
  (∀ (s : State) (w : Word), s.Unified → s.status = .running → Fetches s w →
    decodeRecord w = .unrecognized w →
    ∃ t, step s = .next t ∧ SameRegisters s t ∧ SameHiLo s t ∧ SameBytes s t ∧
      t.current.pc = s.current.pc + 4#32 ∧ t.icount = s.icount + 1#64 ∧ t.status = .running ∧
      SameFaultRecord s t ∧ t.ill = true ∧
      (s.ill = false → t.illPc = s.current.pc ∧ t.illWord = w) ∧
      (s.ill = true → t.illPc = s.illPc ∧ t.illWord = s.illWord) ∧
      t.Unified ∧ t.params = s.params ∧ t.image = s.image)

/-- R93: the R-type, I-type and J-type fields of every word re-encode to it. -/
def Obligations.FieldsReencodeToTheWord : Prop :=
  ∀ x : Word,
    ((fieldOp x).setWidth 32 <<< 26 ||| (fieldRs x).setWidth 32 <<< 21 ||| (fieldRt x).setWidth 32 <<< 16 |||
      (fieldRd x).setWidth 32 <<< 11 ||| (fieldShamt x).setWidth 32 <<< 6 ||| (fieldFunct x).setWidth 32) = x ∧
    ((fieldOp x).setWidth 32 <<< 26 ||| (fieldRs x).setWidth 32 <<< 21 ||| (fieldRt x).setWidth 32 <<< 16 |||
      (fieldImm16 x).setWidth 32) = x ∧
    ((fieldOp x).setWidth 32 <<< 26 ||| (fieldTarget26 x).setWidth 32) = x

/-- The source's own words and one of each other family, written out in spec/95_test_vectors.md, decode to
the instructions they stand for. -/
def Obligations.SampleWordsDecode : Prop :=
  decodeWord 0x20020005#32 = .ok (.addi 2 0 5#16) ∧
  decodeWord 0x00432020#32 = .ok (.add 4 2 3) ∧
  decodeWord 0x0000000C#32 = .ok .syscall ∧
  decodeWord 0x000A4FC3#32 = .ok (.sra 9 10 31) ∧
  decodeWord 0x00430018#32 = .ok (.mult 2 3) ∧
  decodeWord 0x8C23FFFC#32 = .ok (.lw 3 1 0xFFFC#16) ∧
  decodeWord 0xA4220002#32 = .ok (.sh 2 1 2#16) ∧
  decodeWord 0x04217FFF#32 = .ok (.bgez 1 0x7FFF#16) ∧
  decodeWord 0x0C100040#32 = .ok (.jal 0x100040#26) ∧
  decodeWord 0x00C02809#32 = .ok (.jalr 5 6)

/-- R95: the two extensions of a 16-bit immediate. -/
def Obligations.ImmediatesAreExtendedAsStated : Prop :=
  (∀ imm : Imm16, immS imm = BitVec.ofInt 32 imm.toInt ∧ immZ imm = BitVec.ofNat 32 imm.toNat) ∧
  immS 0xFFFC#16 = 0xFFFFFFFC#32 ∧ immZ 0xFFFC#16 = 0x0000FFFC#32 ∧
  immS 0x7FFF#16 = 0x00007FFF#32 ∧ immZ 0x7FFF#16 = 0x00007FFF#32

/-! ### The step -/

/-- R40: when the bytes at an aligned, mapped pc decode to an instruction, a RUNNING step is its
transaction, and nothing is added around it. -/
def Obligations.StepRunsTheDecodedInstruction : Prop :=
  ∀ (s : State) (i : Instr) (rest : List Byte), s.status = .running →
    s.current.pc.toNat % 4 = 0 → Mapped s.params s.current.pc.toNat →
    decode [s.mem.byte s.current.pc.toNat, s.mem.byte (s.current.pc.toNat + 1),
      s.mem.byte (s.current.pc.toNat + 2), s.mem.byte (s.current.pc.toNat + 3)] = .ok (i, rest) →
    step s = exec i s

/-- R25: JR and JALR write any value to pc, the next fetch checks it, and no other instruction moves an
aligned pc to an address that is not a multiple of 4. -/
def Obligations.FetchChecksThePcAndJumpsDoNot : Prop :=
  (∀ (s : State) (rs rd : Reg), s.Unified → GoesTo (.jr rs) s (s.readX rs) ∧
    LinksAndGoesTo (.jalr rd rs) s rd (s.current.pc + 8#32) (s.readX rs)) ∧
  (∀ s : State, s.status = .running →
    (s.current.pc.toNat % 4 ≠ 0 →
      ∃ t, step s = .next t ∧ FaultTaken s t .fetchMisaligned s.current.pc 0#32) ∧
    (s.current.pc.toNat % 4 = 0 → ¬Mapped s.params s.current.pc.toNat →
      ∃ t, step s = .next t ∧ FaultTaken s t .fetchUnmapped s.current.pc 0#32)) ∧
  (∀ (i : Instr) (s t : State), s.current.pc.toNat % 4 = 0 → (∀ rs, i ≠ .jr rs) →
    (∀ rd rs, i ≠ .jalr rd rs) → exec i s = .next t → t.current.pc.toNat % 4 = 0)

/-- R276: step() runs one step when RUNNING and reports OK, HALTED or FAULTED; otherwise it changes nothing
and reports NOT_RUNNING. -/
def Obligations.StepReportsItsResult : Prop :=
  ∀ s : State,
    (s.status ≠ .running → step s = .next s ∧ hostStep s = (s, .notRunning)) ∧
    (s.status = .running → ∃ t, step s = .next t ∧
      (t.status = .running → hostStep s = (t, .ok)) ∧
      (t.status = .stopped → hostStep s = (t, .halted)) ∧
      (t.status = .faulted → hostStep s = (t, .faulted)))

/-- spec/93_implementation_defined.md Part 1, "with the parameters fixed, every state has one successor":
no instruction and no step of any state is refused or left without a next state. -/
def Obligations.EveryStateHasOneSuccessor : Prop :=
  (∀ (i : Instr) (s : State), ∃ t, exec i s = .next t) ∧ ∀ s : State, ∃ t, step s = .next t

/-- The machine's invariant `Inv` (R8, R32 to R34, R37, R43, R60, R61) is kept by every step. -/
def Obligations.StepKeepsTheInvariant : Prop :=
  ∀ s t : State, Inv s → step s = .next t → Inv t

/-- spec/10_state.md section 9 (R45): the reset state meets the invariant. -/
def Obligations.ResetMeetsTheInvariant : Prop := Inv State.reset

/-- R37, R43: initialize, loadProgram, reset, the pokes and the run driver keep the invariant. -/
def Obligations.HostOperationsKeepTheInvariant : Prop :=
  (∀ p : Params, p.wf = true → Inv (State.initialized p)) ∧
  ∀ s : State, Inv s →
    (∀ words, Inv (loadProgram words s).1) ∧ Inv (hostReset s) ∧ (∀ r v, Inv (pokeX r v s)) ∧
    (∀ v, Inv (pokeHi v s)) ∧ (∀ v, Inv (pokeLo v s)) ∧ Inv (hostStep s).1 ∧ ∀ n, Inv (runFor n s).1

/-- R45, R270, R274: what initialize and reset leave. -/
def Obligations.InitializeAndResetLeaveTheResetState : Prop :=
  State.reset = State.initialized Params.default ∧
  (∀ p : Params, Zeroed (State.initialized p) p.textBase ∧ HoldsExactly (State.initialized p) p.textBase [] ∧
    (State.initialized p).image = [] ∧ (State.initialized p).params = p) ∧
  (∀ s : State, Zeroed (hostReset s) s.params.textBase ∧
    HoldsExactly (hostReset s) s.params.textBase s.image ∧
    (hostReset s).image = s.image ∧ (hostReset s).params = s.params)

/-- R243: a step that ends in FAULTED keeps everything it found but the fault record and the status, and
FAULTED is terminal until reset. -/
def Obligations.FaultsArePreciseAndTerminal : Prop :=
  ∀ s t : State, s.status = .running → step s = .next t → t.status = .faulted →
    (∃ f addr word, FaultTaken s t f addr word) ∧ step t = .next t ∧ (hostReset t).status = .running

/-- R241, R244: the cause codes, and that a RUNNING step faults exactly when the table says, with the first
cause in the order of R244 and its FAULT_ADDR and FAULT_WORD; every other step commits. -/
def Obligations.FaultsAreExactlyThoseTabulated : Prop :=
  ([Fault.fetchMisaligned, .fetchUnmapped, .loadMisaligned, .loadUnmapped, .storeMisaligned, .storeUnmapped,
    .divZero, .divOverflow].map Fault.code = [1#8, 2#8, 3#8, 4#8, 5#8, 6#8, 7#8, 8#8]) ∧
  ∀ s : State, s.status = .running → ∃ t, step s = .next t ∧
    match stepFault s with
    | some (f, addr, word) => FaultTaken s t f addr word
    | none => t.status ≠ .faulted ∧ SameFaultRecord s t ∧ t.icount = s.icount + 1#64

/-- R31: the counter counts committed steps and only those, and no step depends on it. -/
def Obligations.OnlyCommittedStepsAreCounted : Prop :=
  ∀ s t : State, step s = .next t →
    (s.status ≠ .running → t.icount = s.icount) ∧
    (s.status = .running → t.status = .faulted → t.icount = s.icount) ∧
    (s.status = .running → t.status ≠ .faulted → t.icount = s.icount + 1#64) ∧
    ∀ c : BitVec 64, step { s with icount := c } = .next { t with icount := c + (t.icount - s.icount) }

/-- R30: the status codes; STOPPED only by the halt, and no step changes the status except from RUNNING. -/
def Obligations.StatusChangesOnlyFromRunning : Prop :=
  (RunStatus.code .running = 0#2 ∧ RunStatus.code .stopped = 1#2 ∧ RunStatus.code .faulted = 2#2) ∧
  ∀ s t : State, step s = .next t →
    (s.status ≠ .running → t.status = s.status ∧ (hostReset s).status = .running) ∧
    (s.status = .running →
      (t.status = .stopped ↔ ∃ w, Fetches s w ∧ decodeWord w = .ok .syscall) ∧
      (t.status = .faulted ↔ (stepFault s).isSome = true))

/-- spec/10_state.md section 1: an instruction changes no general register but the one R22 lists for it. -/
def Obligations.OnlyTheListedInstructionsWriteRegisters : Prop :=
  ∀ (i : Instr) (s t : State), s.Unified → exec i s = .next t →
    ∀ r : Reg, destination i ≠ some r → t.readX r = s.readX r ∧ t.current.x[r.val] = s.current.x[r.val]

/-- R27: HI and LO are written only by the multiplies, the divides, MTHI and MTLO, read only by MFHI and
MFLO, and read and poked by the host. -/
def Obligations.HiLoAreReachedOnlyByTheirInstructions : Prop :=
  (∀ (i : Instr) (s t : State), s.Unified → exec i s = .next t →
    (writesHi i = false → t.current.hi = s.current.hi) ∧ (writesLo i = false → t.current.lo = s.current.lo)) ∧
  (∀ (i : Instr) (s t : State) (v : Word), exec i s = .next t → (∀ rd, i ≠ .mfhi rd) →
    ∃ u, exec i (pokeHi v s) = .next u ∧ SameRegisters t u ∧ u.current.pc = t.current.pc ∧
      u.current.lo = t.current.lo ∧ SameBytes t u ∧ u.status = t.status ∧ u.icount = t.icount) ∧
  (∀ (i : Instr) (s t : State) (v : Word), exec i s = .next t → (∀ rd, i ≠ .mflo rd) →
    ∃ u, exec i (pokeLo v s) = .next u ∧ SameRegisters t u ∧ u.current.pc = t.current.pc ∧
      u.current.hi = t.current.hi ∧ SameBytes t u ∧ u.status = t.status ∧ u.icount = t.icount) ∧
  (∀ (s : State) (v : Word), readHi (pokeHi v s) = v ∧ readLo (pokeHi v s) = readLo s ∧
    readLo (pokeLo v s) = v ∧ readHi (pokeLo v s) = readHi s)

/-- spec/20_memory.md section 1: no instruction but a store changes a byte of memory, and a store changes
none outside the bytes it stores to. -/
def Obligations.OnlyStoresChangeMemory : Prop :=
  ∀ (i : Instr) (s t : State), s.mem.wf = true → exec i s = .next t →
    (storeTarget s i = none → SameBytes s t) ∧
    (∀ addr n, storeTarget s i = some (addr, n) → SameBytesOutside s t addr n)

/-- R24: every instruction outside the branch and jump families advances pc by 4, and so does an
unrecognized word. -/
def Obligations.DefaultAdvanceIsFour : Prop :=
  (∀ (i : Instr) (s t : State), isBranchOrJump i = false → instrFault s i = none → exec i s = .next t →
    t.current.pc = s.current.pc + 4#32) ∧
  (∀ (s t : State) (w : Word) (e : Reject), s.status = .running → Fetches s w → decodeWord w = .error e →
    step s = .next t → t.current.pc = s.current.pc + 4#32)

/-- R43: IMAGE is the last image loadProgram accepted, no step changes it or depends on it, and reset keeps
it and reloads the program from it; no step changes the parameters. -/
def Obligations.ImageIsReachedOnlyByTheLoader : Prop :=
  (∀ (s : State) (words : List Word),
    (s.params.imageFits words = true → (loadProgram words s).1.image = words) ∧
    (s.params.imageFits words = false → (loadProgram words s).1.image = s.image)) ∧
  (∀ s t : State, step s = .next t → t.image = s.image ∧ t.params = s.params ∧
    ∀ image, step { s with image := image } = .next { t with image := image }) ∧
  (∀ s : State, (hostReset s).image = s.image ∧ HoldsExactly (hostReset s) s.params.textBase s.image)

/-- R33: the illegal-instruction record keeps the first committed unrecognized encoding until reset, and
setting it does not change the status. -/
def Obligations.IllegalRecordIsSticky : Prop :=
  (∀ s t : State, step s = .next t →
    (s.ill = true → SameIllegalRecord s t) ∧
    (s.ill = false → (t.ill = true ↔ s.status = .running ∧ ∃ w e, Fetches s w ∧ decodeWord w = .error e)) ∧
    (s.ill = false → t.ill = true → t.illPc = s.current.pc ∧ Fetches s t.illWord ∧ t.status = .running) ∧
    (t.ill = false → SameIllegalRecord s t)) ∧
  (∀ s : State, (hostReset s).ill = false ∧ (hostReset s).illPc = 0#32 ∧ (hostReset s).illWord = 0#32)

/-! ### The region arbiter -/

/-- R63, R64: an address translates to the one region that holds it, the check tests alignment before
mapping, and a passed check puts all n bytes in that region. -/
def Obligations.ArbiterRoutesEachAccessToOneRegion : Prop :=
  ∀ (p : Params) (addr : Word), p.wf = true →
    (lookup p addr = none ↔ ¬Mapped p addr.toNat) ∧
    (∀ r ∈ p.regions, r.base.toNat ≤ addr.toNat → addr.toNat < r.base.toNat + r.size →
      lookup p addr = some (r, addr.toNat - r.base.toNat)) ∧
    (∀ (n : Nat) (kind : AccessKind), n = 1 ∨ n = 2 ∨ n = 4 →
      (addr.toNat % n ≠ 0 → check p addr n kind = .error { cause := kind.misaligned, addr := addr }) ∧
      (addr.toNat % n = 0 → lookup p addr = none →
        check p addr n kind = .error { cause := kind.unmapped, addr := addr }) ∧
      (∀ r off, addr.toNat % n = 0 → lookup p addr = some (r, off) →
        check p addr n kind = .ok (r, off) ∧
        ∀ k, k < n → addr.toNat + k < 2 ^ 32 ∧
          lookup p (addr + BitVec.ofNat 32 k) = some (r, off + k))) ∧
    AccessKind.fetch.misaligned = .fetchMisaligned ∧ AccessKind.fetch.unmapped = .fetchUnmapped ∧
    AccessKind.load.misaligned = .loadMisaligned ∧ AccessKind.load.unmapped = .loadUnmapped ∧
    AccessKind.store.misaligned = .storeMisaligned ∧ AccessKind.store.unmapped = .storeUnmapped

/-! ### Arithmetic, bitwise, shifts, compares -/

/-- R121 to R124: ADD, ADDU, SUB, SUBU write the sum or difference modulo 2^32 and nothing else, for every
operand; none traps. -/
def Obligations.AddAndSubtractWrapAndNeverTrap : Prop :=
  SpecialEncoding 0x20#6 (fun w => .add (regRd w) (regRs w) (regRt w)) ∧
  SpecialEncoding 0x21#6 (fun w => .addu (regRd w) (regRs w) (regRt w)) ∧
  SpecialEncoding 0x22#6 (fun w => .sub (regRd w) (regRs w) (regRt w)) ∧
  SpecialEncoding 0x23#6 (fun w => .subu (regRd w) (regRs w) (regRt w)) ∧
  ∀ (s : State) (rd rs rt : Reg), s.Unified →
    SetsRegister (.add rd rs rt) s rd (BitVec.ofInt 32 ((s.readX rs).toInt + (s.readX rt).toInt)) ∧
    SetsRegister (.addu rd rs rt) s rd (BitVec.ofNat 32 ((s.readX rs).toNat + (s.readX rt).toNat)) ∧
    SetsRegister (.sub rd rs rt) s rd (BitVec.ofInt 32 ((s.readX rs).toInt - (s.readX rt).toInt)) ∧
    SetsRegister (.subu rd rs rt) s rd (BitVec.ofInt 32 ((s.readX rs).toNat - (s.readX rt).toNat : Int))

/-- R125, R126: ADDI and ADDIU add the sign-extended immediate modulo 2^32; neither traps. -/
def Obligations.AddImmediatesSignExtendAndWrap : Prop :=
  PrimaryEncoding 0x08#6 (fun w => .addi (regRt w) (regRs w) (fieldImm16 w)) ∧
  PrimaryEncoding 0x09#6 (fun w => .addiu (regRt w) (regRs w) (fieldImm16 w)) ∧
  ∀ (s : State) (rt rs : Reg) (imm : Imm16), s.Unified →
    SetsRegister (.addi rt rs imm) s rt (BitVec.ofInt 32 ((s.readX rs).toInt + imm.toInt)) ∧
    SetsRegister (.addiu rt rs imm) s rt (BitVec.ofInt 32 ((s.readX rs).toInt + imm.toInt))

/-- R130 to R133: AND, OR, XOR, NOR. -/
def Obligations.BitwiseRegistersCombineBits : Prop :=
  SpecialEncoding 0x24#6 (fun w => .and (regRd w) (regRs w) (regRt w)) ∧
  SpecialEncoding 0x25#6 (fun w => .or (regRd w) (regRs w) (regRt w)) ∧
  SpecialEncoding 0x26#6 (fun w => .xor (regRd w) (regRs w) (regRt w)) ∧
  SpecialEncoding 0x27#6 (fun w => .nor (regRd w) (regRs w) (regRt w)) ∧
  ∀ (s : State) (rd rs rt : Reg), s.Unified →
    SetsRegister (.and rd rs rt) s rd (s.readX rs &&& s.readX rt) ∧
    SetsRegister (.or rd rs rt) s rd (s.readX rs ||| s.readX rt) ∧
    SetsRegister (.xor rd rs rt) s rd (s.readX rs ^^^ s.readX rt) ∧
    SetsRegister (.nor rd rs rt) s rd (~~~(s.readX rs ||| s.readX rt))

/-- R134 to R136: ANDI, ORI, XORI combine with the zero-extended immediate: the low half is combined, and
the high half is 0 for ANDI and passes through for ORI and XORI. -/
def Obligations.BitwiseImmediatesZeroExtend : Prop :=
  PrimaryEncoding 0x0C#6 (fun w => .andi (regRt w) (regRs w) (fieldImm16 w)) ∧
  PrimaryEncoding 0x0D#6 (fun w => .ori (regRt w) (regRs w) (fieldImm16 w)) ∧
  PrimaryEncoding 0x0E#6 (fun w => .xori (regRt w) (regRs w) (fieldImm16 w)) ∧
  ∀ (s : State) (rt rs : Reg) (imm : Imm16), s.Unified →
    SetsRegister (.andi rt rs imm) s rt (0#16 ++ ((s.readX rs).extractLsb' 0 16 &&& imm)) ∧
    SetsRegister (.ori rt rs imm) s rt
      ((s.readX rs).extractLsb' 16 16 ++ ((s.readX rs).extractLsb' 0 16 ||| imm)) ∧
    SetsRegister (.xori rt rs imm) s rt
      ((s.readX rs).extractLsb' 16 16 ++ ((s.readX rs).extractLsb' 0 16 ^^^ imm))

/-- R140 to R142: SLL is multiplication by 2^shamt modulo 2^32, SRL the unsigned quotient and SRA the
signed quotient rounded down, for every amount 0 to 31. -/
def Obligations.ShiftsScaleByPowersOfTwo : Prop :=
  SpecialEncoding 0x00#6 (fun w => .sll (regRd w) (regRt w) (amount w)) ∧
  SpecialEncoding 0x02#6 (fun w => .srl (regRd w) (regRt w) (amount w)) ∧
  SpecialEncoding 0x03#6 (fun w => .sra (regRd w) (regRt w) (amount w)) ∧
  ∀ (s : State) (rd rt : Reg) (n : Shamt), s.Unified →
    SetsRegister (.sll rd rt n) s rd (BitVec.ofNat 32 ((s.readX rt).toNat * 2 ^ n.val)) ∧
    SetsRegister (.srl rd rt n) s rd (BitVec.ofNat 32 ((s.readX rt).toNat / 2 ^ n.val)) ∧
    SetsRegister (.sra rd rt n) s rd (BitVec.ofInt 32 ((s.readX rt).toInt / 2 ^ n.val))

/-- R145, R146: SLT and SLTI write 1 or 0 as the signed comparison holds or not. -/
def Obligations.SetOnLessThanComparesSigned : Prop :=
  SpecialEncoding 0x2A#6 (fun w => .slt (regRd w) (regRs w) (regRt w)) ∧
  PrimaryEncoding 0x0A#6 (fun w => .slti (regRt w) (regRs w) (fieldImm16 w)) ∧
  (∀ (s : State) (rd rs rt : Reg), s.Unified →
    SetsRegister (.slt rd rs rt) s rd (if (s.readX rs).toInt < (s.readX rt).toInt then 1#32 else 0#32)) ∧
  (∀ (s : State) (rt rs : Reg) (imm : Imm16), s.Unified →
    SetsRegister (.slti rt rs imm) s rt (if (s.readX rs).toInt < imm.toInt then 1#32 else 0#32))

/-- R150: LUI loads the upper half and zeroes the lower. -/
def Obligations.LoadUpperImmediateFillsTheUpperHalf : Prop :=
  PrimaryEncoding 0x0F#6 (fun w => .lui (regRt w) (fieldImm16 w)) ∧
  ∀ (s : State) (rt : Reg) (imm : Imm16), s.Unified →
    SetsRegister (.lui rt imm) s rt (BitVec.ofNat 32 (imm.toNat * 2 ^ 16))

/-! ### Multiply, divide, HI and LO -/

/-- R161, R162: MULT and MULTU leave the upper and lower halves of the exact product in HI and LO. -/
def Obligations.MultiplyLeavesTheProductInHiLo : Prop :=
  SpecialEncoding 0x18#6 (fun w => .mult (regRs w) (regRt w)) ∧
  SpecialEncoding 0x19#6 (fun w => .multu (regRs w) (regRt w)) ∧
  ∀ (s : State) (rs rt : Reg), s.Unified →
    SetsHiLo (.mult rs rt) s
      (BitVec.ofInt 32 ((s.readX rs).toInt * (s.readX rt).toInt / 2 ^ 32))
      (BitVec.ofInt 32 ((s.readX rs).toInt * (s.readX rt).toInt)) ∧
    SetsHiLo (.multu rs rt) s
      (BitVec.ofNat 32 ((s.readX rs).toNat * (s.readX rt).toNat / 2 ^ 32))
      (BitVec.ofNat 32 ((s.readX rs).toNat * (s.readX rt).toNat))

/-- R163: DIV faults with DIV_ZERO on divisor 0 and with DIV_OVERFLOW on -2^31 / -1, and otherwise leaves
the quotient truncated toward zero in LO and the remainder in HI. -/
def Obligations.SignedDivideTruncatesOrFaults : Prop :=
  SpecialEncoding 0x1A#6 (fun w => .div (regRs w) (regRt w)) ∧
  (∀ (s : State) (rs rt : Reg), s.Unified → s.readX rt ≠ 0#32 →
    ¬(s.readX rs = 0x80000000#32 ∧ s.readX rt = 0xFFFFFFFF#32) →
    SetsHiLo (.div rs rt) s
      (BitVec.ofInt 32 ((s.readX rs).toInt.tmod (s.readX rt).toInt))
      (BitVec.ofInt 32 ((s.readX rs).toInt.tdiv (s.readX rt).toInt))) ∧
  (∀ (s : State) (rs rt : Reg), s.readX rt = 0#32 → FaultsWith (.div rs rt) s .divZero 0#32) ∧
  (∀ (s : State) (rs rt : Reg), s.readX rs = 0x80000000#32 → s.readX rt = 0xFFFFFFFF#32 →
    FaultsWith (.div rs rt) s .divOverflow 0#32)

/-- R164: DIVU faults with DIV_ZERO on divisor 0, and otherwise leaves quotient and remainder in LO and
HI. -/
def Obligations.UnsignedDivideOrFaults : Prop :=
  SpecialEncoding 0x1B#6 (fun w => .divu (regRs w) (regRt w)) ∧
  (∀ (s : State) (rs rt : Reg), s.Unified → s.readX rt ≠ 0#32 →
    SetsHiLo (.divu rs rt) s
      (BitVec.ofNat 32 ((s.readX rs).toNat % (s.readX rt).toNat))
      (BitVec.ofNat 32 ((s.readX rs).toNat / (s.readX rt).toNat))) ∧
  (∀ (s : State) (rs rt : Reg), s.readX rt = 0#32 → FaultsWith (.divu rs rt) s .divZero 0#32)

/-- R169: the multiply and divide laws, of what the instructions leave in HI and LO. -/
def Obligations.MultiplyAndDivideLaws : Prop :=
  ∀ (s : State) (rs rt : Reg),
    (∃ t, exec (.mult rs rt) s = .next t ∧
      (t.current.hi ++ t.current.lo).toInt = (s.readX rs).toInt * (s.readX rt).toInt) ∧
    (∃ t, exec (.multu rs rt) s = .next t ∧
      (t.current.hi ++ t.current.lo).toNat = (s.readX rs).toNat * (s.readX rt).toNat) ∧
    (s.readX rt ≠ 0#32 → ¬(s.readX rs = 0x80000000#32 ∧ s.readX rt = 0xFFFFFFFF#32) →
      ∃ t, exec (.div rs rt) s = .next t ∧
        (s.readX rs).toInt = t.current.lo.toInt * (s.readX rt).toInt + t.current.hi.toInt ∧
        t.current.hi.toInt.natAbs < (s.readX rt).toInt.natAbs ∧
        (t.current.hi = 0#32 ∨ t.current.hi.toInt.sign = (s.readX rs).toInt.sign)) ∧
    (s.readX rt ≠ 0#32 →
      ∃ t, exec (.divu rs rt) s = .next t ∧
        (s.readX rs).toNat = t.current.lo.toNat * (s.readX rt).toNat + t.current.hi.toNat ∧
        t.current.hi.toNat < (s.readX rt).toNat) ∧
    (s.readX rt = 0#32 → FaultsWith (.div rs rt) s .divZero 0#32 ∧ FaultsWith (.divu rs rt) s .divZero 0#32) ∧
    (s.readX rs = 0x80000000#32 → s.readX rt = 0xFFFFFFFF#32 → FaultsWith (.div rs rt) s .divOverflow 0#32)

/-- R165, R166: MFHI and MFLO copy HI or LO to a general register. -/
def Obligations.MovesFromHiLoCopy : Prop :=
  SpecialEncoding 0x10#6 (fun w => .mfhi (regRd w)) ∧
  SpecialEncoding 0x12#6 (fun w => .mflo (regRd w)) ∧
  ∀ (s : State) (rd : Reg), s.Unified →
    SetsRegister (.mfhi rd) s rd s.current.hi ∧ SetsRegister (.mflo rd) s rd s.current.lo

/-- R167, R168: MTHI and MTLO copy a general register to HI or LO and leave the other alone. -/
def Obligations.MovesToHiLoCopy : Prop :=
  SpecialEncoding 0x11#6 (fun w => .mthi (regRs w)) ∧
  SpecialEncoding 0x13#6 (fun w => .mtlo (regRs w)) ∧
  ∀ (s : State) (rs : Reg), s.Unified →
    SetsHiLo (.mthi rs) s (s.readX rs) s.current.lo ∧ SetsHiLo (.mtlo rs) s s.current.hi (s.readX rs)

/-! ### Loads and stores -/

/-- R180: the effective address is base plus displacement modulo 2^32, and no load or store but a load to
its own base changes the base register. -/
def Obligations.EffectiveAddressWrapsAndKeepsTheBase : Prop :=
  (∀ (b : Word) (imm : Imm16), effectiveAddress b imm = BitVec.ofInt 32 (b.toNat + imm.toInt)) ∧
  effectiveAddress 0xFFFFFFFC#32 0x0008#16 = 0x00000004#32 ∧
  effectiveAddress 0x00000000#32 0xFFFC#16 = 0xFFFFFFFC#32 ∧
  ∀ (s t : State) (rt base : Reg) (imm : Imm16), s.Unified →
    (exec (.sw rt base imm) s = .next t ∨ exec (.sh rt base imm) s = .next t ∨
      exec (.sb rt base imm) s = .next t ∨
      (rt ≠ base ∧ (exec (.lw rt base imm) s = .next t ∨ exec (.lh rt base imm) s = .next t ∨
        exec (.lb rt base imm) s = .next t))) →
    t.readX base = s.readX base

/-- R182: LW loads the aligned, mapped word little-endian, and otherwise faults, misaligned before
unmapped. -/
def Obligations.LoadWordReadsOrFaults : Prop :=
  PrimaryEncoding 0x23#6 (fun w => .lw (regRt w) (regRs w) (fieldImm16 w)) ∧
  ∀ (s : State) (rt base : Reg) (imm : Imm16) (ea : Word), ea = effectiveAddress (s.readX base) imm →
    (s.Unified → ea.toNat % 4 = 0 → Mapped s.params ea.toNat → SetsRegister (.lw rt base imm) s rt
      (s.mem.byte (ea.toNat + 3) ++ s.mem.byte (ea.toNat + 2) ++ s.mem.byte (ea.toNat + 1) ++
        s.mem.byte ea.toNat)) ∧
    (ea.toNat % 4 ≠ 0 → FaultsWith (.lw rt base imm) s .loadMisaligned ea) ∧
    (ea.toNat % 4 = 0 → ¬Mapped s.params ea.toNat → FaultsWith (.lw rt base imm) s .loadUnmapped ea)

/-- R183, R184: LH and LB load the halfword or byte sign-extended, or fault; a byte is never misaligned. -/
def Obligations.SubwordLoadsSignExtendOrFault : Prop :=
  PrimaryEncoding 0x21#6 (fun w => .lh (regRt w) (regRs w) (fieldImm16 w)) ∧
  PrimaryEncoding 0x20#6 (fun w => .lb (regRt w) (regRs w) (fieldImm16 w)) ∧
  ∀ (s : State) (rt base : Reg) (imm : Imm16) (ea : Word), ea = effectiveAddress (s.readX base) imm →
    (s.Unified → ea.toNat % 2 = 0 → Mapped s.params ea.toNat → SetsRegister (.lh rt base imm) s rt
      (BitVec.ofInt 32 (s.mem.byte (ea.toNat + 1) ++ s.mem.byte ea.toNat).toInt)) ∧
    (ea.toNat % 2 ≠ 0 → FaultsWith (.lh rt base imm) s .loadMisaligned ea) ∧
    (ea.toNat % 2 = 0 → ¬Mapped s.params ea.toNat → FaultsWith (.lh rt base imm) s .loadUnmapped ea) ∧
    (s.Unified → Mapped s.params ea.toNat → SetsRegister (.lb rt base imm) s rt
      (BitVec.ofInt 32 (s.mem.byte ea.toNat).toInt)) ∧
    (¬Mapped s.params ea.toNat → FaultsWith (.lb rt base imm) s .loadUnmapped ea)

/-- R185 to R187: SW, SH and SB store the low 4, 2 or 1 bytes of the register at the effective address and
nothing else, or fault; the address stored to is the one the meaning computes. -/
def Obligations.StoresWriteTheirBytesOrFault : Prop :=
  PrimaryEncoding 0x2B#6 (fun w => .sw (regRt w) (regRs w) (fieldImm16 w)) ∧
  PrimaryEncoding 0x29#6 (fun w => .sh (regRt w) (regRs w) (fieldImm16 w)) ∧
  PrimaryEncoding 0x28#6 (fun w => .sb (regRt w) (regRs w) (fieldImm16 w)) ∧
  ∀ (s : State) (rt base : Reg) (imm : Imm16) (ea : Word), ea = effectiveAddress (s.readX base) imm →
    (s.Unified → s.mem.wf = true → ea.toNat % 4 = 0 → Mapped s.params ea.toNat →
      StoresBytes (.sw rt base imm) s ea 4 (s.readX rt)) ∧
    (ea.toNat % 4 ≠ 0 → FaultsWith (.sw rt base imm) s .storeMisaligned ea) ∧
    (ea.toNat % 4 = 0 → ¬Mapped s.params ea.toNat → FaultsWith (.sw rt base imm) s .storeUnmapped ea) ∧
    (s.Unified → s.mem.wf = true → ea.toNat % 2 = 0 → Mapped s.params ea.toNat →
      StoresBytes (.sh rt base imm) s ea 2 (s.readX rt)) ∧
    (ea.toNat % 2 ≠ 0 → FaultsWith (.sh rt base imm) s .storeMisaligned ea) ∧
    (ea.toNat % 2 = 0 → ¬Mapped s.params ea.toNat → FaultsWith (.sh rt base imm) s .storeUnmapped ea) ∧
    (s.Unified → s.mem.wf = true → Mapped s.params ea.toNat →
      StoresBytes (.sb rt base imm) s ea 1 (s.readX rt)) ∧
    (¬Mapped s.params ea.toNat → FaultsWith (.sb rt base imm) s .storeUnmapped ea)

/-- R85: a load returns what a store of the same width put at its address, as long as no store to those
bytes came between, at every mapped aligned address. -/
def Obligations.LoadReturnsTheStoredValue : Prop :=
  ∀ (s t u : State) (rt base rd base' : Reg) (imm imm' : Imm16) (ea : Word),
    s.mem.wf = true → u.Unified → u.params = s.params →
    ea = effectiveAddress (s.readX base) imm → effectiveAddress (u.readX base') imm' = ea →
    (exec (.sw rt base imm) s = .next t → instrFault s (.sw rt base imm) = none →
      (∀ k, k < 4 → u.mem.byte (ea.toNat + k) = t.mem.byte (ea.toNat + k)) →
      SetsRegister (.lw rd base' imm') u rd (s.readX rt)) ∧
    (exec (.sh rt base imm) s = .next t → instrFault s (.sh rt base imm) = none →
      (∀ k, k < 2 → u.mem.byte (ea.toNat + k) = t.mem.byte (ea.toNat + k)) →
      SetsRegister (.lh rd base' imm') u rd (((s.readX rt).extractLsb' 0 16).signExtend 32)) ∧
    (exec (.sb rt base imm) s = .next t → instrFault s (.sb rt base imm) = none →
      u.mem.byte ea.toNat = t.mem.byte ea.toNat →
      SetsRegister (.lb rd base' imm') u rd (((s.readX rt).extractLsb' 0 8).signExtend 32))

/-- R68: at an aligned, mapped address that holds the little-endian word v, LB at +k reads v[8k+7:8k], LH at
+0 and +2 read v[15:0] and v[31:16], each sign-extended, LW and a fetch read v; and SW of a value there
makes v that value. -/
def Obligations.MixedWidthAccessesAreLittleEndian : Prop :=
  (∀ (s : State) (rt base : Reg) (imm : Imm16) (a v : Word) (k : Nat), Inv s → a.toNat % 4 = 0 →
    Mapped s.params a.toNat →
    v = s.mem.byte (a.toNat + 3) ++ s.mem.byte (a.toNat + 2) ++ s.mem.byte (a.toNat + 1) ++
      s.mem.byte a.toNat →
    k < 4 → effectiveAddress (s.readX base) imm = a + BitVec.ofNat 32 k →
    SetsRegister (.lb rt base imm) s rt ((v.extractLsb' (8 * k) 8).signExtend 32) ∧
    (k % 2 = 0 → SetsRegister (.lh rt base imm) s rt ((v.extractLsb' (8 * k) 16).signExtend 32)) ∧
    (k = 0 → SetsRegister (.lw rt base imm) s rt v) ∧
    (s.current.pc = a → fetch s = .ok v)) ∧
  (∀ (s t : State) (rt base : Reg) (imm : Imm16) (ea : Word), Inv s →
    ea = effectiveAddress (s.readX base) imm → instrFault s (.sw rt base imm) = none →
    exec (.sw rt base imm) s = .next t →
    t.mem.byte (ea.toNat + 3) ++ t.mem.byte (ea.toNat + 2) ++ t.mem.byte (ea.toNat + 1) ++
      t.mem.byte ea.toNat = s.readX rt)

/-- R83: a fetch reads the bytes memory holds after every store committed before it, so the step after a
store runs the stored word, and a store over its own instruction's word still stores. -/
def Obligations.FetchSeesStoredInstructions : Prop :=
  (∀ u : State, u.current.pc.toNat % 4 = 0 → Mapped u.params u.current.pc.toNat →
    fetch u = .ok (u.mem.byte (u.current.pc.toNat + 3) ++ u.mem.byte (u.current.pc.toNat + 2) ++
      u.mem.byte (u.current.pc.toNat + 1) ++ u.mem.byte u.current.pc.toNat)) ∧
  (∀ (s t u : State) (rt base : Reg) (imm : Imm16) (ea : Word) (i : Instr), s.mem.wf = true →
    ea = effectiveAddress (s.readX base) imm → instrFault s (.sw rt base imm) = none →
    exec (.sw rt base imm) s = .next t → u.params = s.params → u.current.pc = ea → u.status = .running →
    (∀ k, k < 4 → u.mem.byte (ea.toNat + k) = t.mem.byte (ea.toNat + k)) →
    fetch u = .ok (s.readX rt) ∧ (decodeWord (s.readX rt) = .ok i → step u = exec i u)) ∧
  (∀ (s : State) (rt base : Reg) (imm : Imm16) (w : Word), Inv s → s.status = .running → Fetches s w →
    decodeWord w = .ok (.sw rt base imm) → effectiveAddress (s.readX base) imm = s.current.pc →
    step s = exec (.sw rt base imm) s ∧ StoresBytes (.sw rt base imm) s s.current.pc 4 (s.readX rt))

/-! ### Branches, jumps, halt -/

/-- R201, R202: BEQ and BNE go to pc + 4 + 4 * offset when the registers are equal or not, else to pc + 4,
and change nothing else. -/
def Obligations.EqualityBranchesGoWhereStated : Prop :=
  PrimaryEncoding 0x04#6 (fun w => .beq (regRs w) (regRt w) (fieldImm16 w)) ∧
  PrimaryEncoding 0x05#6 (fun w => .bne (regRs w) (regRt w) (fieldImm16 w)) ∧
  ∀ (s : State) (rs rt : Reg) (imm : Imm16) (target : Word), s.Unified →
    target = BitVec.ofInt 32 (s.current.pc.toNat + 4 + imm.toInt * 4) →
    GoesTo (.beq rs rt imm) s (if s.readX rs = s.readX rt then target else s.current.pc + 4#32) ∧
    GoesTo (.bne rs rt imm) s (if s.readX rs ≠ s.readX rt then target else s.current.pc + 4#32)

/-- R203 to R206: BLEZ, BGTZ, BLTZ, BGEZ test the signed register against 0. -/
def Obligations.SignBranchesGoWhereStated : Prop :=
  PrimaryEncoding 0x06#6 (fun w => .blez (regRs w) (fieldImm16 w)) ∧
  PrimaryEncoding 0x07#6 (fun w => .bgtz (regRs w) (fieldImm16 w)) ∧
  RegimmEncoding 0x00#5 (fun w => .bltz (regRs w) (fieldImm16 w)) ∧
  RegimmEncoding 0x01#5 (fun w => .bgez (regRs w) (fieldImm16 w)) ∧
  ∀ (s : State) (rs : Reg) (imm : Imm16) (target : Word), s.Unified →
    target = BitVec.ofInt 32 (s.current.pc.toNat + 4 + imm.toInt * 4) →
    GoesTo (.blez rs imm) s (if (s.readX rs).toInt ≤ 0 then target else s.current.pc + 4#32) ∧
    GoesTo (.bgtz rs imm) s (if 0 < (s.readX rs).toInt then target else s.current.pc + 4#32) ∧
    GoesTo (.bltz rs imm) s (if (s.readX rs).toInt < 0 then target else s.current.pc + 4#32) ∧
    GoesTo (.bgez rs imm) s (if 0 ≤ (s.readX rs).toInt then target else s.current.pc + 4#32)

/-- R207, R208: J and JAL go to the target in the 256 MiB block of the jump itself; JAL links pc + 8 in
register 31. -/
def Obligations.JumpsStayInTheirBlock : Prop :=
  PrimaryEncoding 0x02#6 (fun w => .j (fieldTarget26 w)) ∧
  PrimaryEncoding 0x03#6 (fun w => .jal (fieldTarget26 w)) ∧
  ∀ (s : State) (target : Target26) (dest : Word), s.Unified →
    dest = BitVec.ofNat 32 (s.current.pc.toNat / 2 ^ 28 * 2 ^ 28 + target.toNat * 4) →
    GoesTo (.j target) s dest ∧ LinksAndGoesTo (.jal target) s 31 (s.current.pc + 8#32) dest

/-- R209, R210: JR and JALR go to the register's old value, whatever it is; JALR links pc + 8 in rd. -/
def Obligations.RegisterJumpsGoToTheOldValue : Prop :=
  SpecialEncoding 0x08#6 (fun w => .jr (regRs w)) ∧
  SpecialEncoding 0x09#6 (fun w => .jalr (regRd w) (regRs w)) ∧
  ∀ (s : State) (rd rs : Reg), s.Unified →
    GoesTo (.jr rs) s (s.readX rs) ∧
    LinksAndGoesTo (.jalr rd rs) s rd (s.current.pc + 8#32) (s.readX rs)

/-- spec/43_control.md section 3: a return through the link register of a JAL or JALR at address A goes to
A + 8. -/
def Obligations.ReturnFromCallSkipsOneWord : Prop :=
  ∀ (s t u : State) (target : Target26) (rd rs : Reg), s.Unified → u.Unified →
    (exec (.jal target) s = .next t → u.readX 31 = t.readX 31 →
      GoesTo (.jr 31) u (s.current.pc + 8#32)) ∧
    (exec (.jalr rd rs) s = .next t → hardwired s rd = false → u.readX rd = t.readX rd →
      GoesTo (.jr rd) u (s.current.pc + 8#32))

/-- R230, R231: the halt stops the core in every state, whatever the registers hold, writes no register,
HI, LO or memory, advances pc by 4 and is counted. -/
def Obligations.HaltStopsUnconditionally : Prop :=
  SpecialEncoding 0x0C#6 (fun _ => .syscall) ∧
  ∀ s : State, s.Unified →
    ∃ t, exec .syscall s = .next t ∧ SameRegisters s t ∧ SameHiLo s t ∧ SameBytes s t ∧
      t.current.pc = s.current.pc + 4#32 ∧ t.status = .stopped ∧ Committed s t

/-! ### Register 0 -/

/-- R7: with R0_HARDWIRED true register 0 reads 0 and discards every write, of instructions and pokes; with
false it is an ordinary register. -/
def Obligations.RegisterZeroFollowsItsParameter : Prop :=
  (∀ s : State, s.params.r0Hardwired = true →
    s.readX 0 = 0#32 ∧ (∀ v, pokeX 0 v s = s) ∧
    ∀ (i : Instr) (t : State), s.Unified → exec i s = .next t →
      t.readX 0 = 0#32 ∧ t.current.x[0] = s.current.x[0]) ∧
  (∀ s : State, s.params.r0Hardwired = false →
    s.readX 0 = s.current.x[0] ∧ (∀ v, (pokeX 0 v s).readX 0 = v) ∧
    ∀ (rs rt : Reg), s.Unified →
      ∃ t, exec (.add 0 rs rt) s = .next t ∧ t.readX 0 = s.readX rs + s.readX rt)

/-! ### The host's operations -/

/-- R272, R273: loadProgram writes the image from TEXT_BASE on, keeps it in IMAGE and changes nothing else,
or refuses an image larger than the text region whole. -/
def Obligations.LoadProgramWritesTheImageOrNothing : Prop :=
  ∀ (s : State) (words : List Word), s.mem.wf = true →
    (4 * words.length ≤ s.params.textSize →
      ∃ t, loadProgram words s = (t, .loaded words.length) ∧ t.image = words ∧
        (∀ (k : Nat) (hk : k < words.length) (j : Nat), j < 4 →
          t.mem.byte (s.params.textBase.toNat + 4 * k + j) = words[k].extractLsb' (8 * j) 8) ∧
        (∀ a, ¬(s.params.textBase.toNat ≤ a ∧ a < s.params.textBase.toNat + 4 * words.length) →
          t.mem.byte a = s.mem.byte a) ∧
        t.current = s.current ∧ t.next = s.next ∧ t.status = s.status ∧ t.icount = s.icount ∧
        SameFaultRecord s t ∧ SameIllegalRecord s t ∧ t.params = s.params) ∧
    (s.params.textSize < 4 * words.length → loadProgram words s = (s, .loadError))

/-- R275: the launch state of a program is the state of a reset that follows its loading, in any state, and
its contents. -/
def Obligations.LaunchIsResetAfterLoading : Prop :=
  ∀ (p : Params) (words : List Word), p.imageFits words = true →
    Zeroed (State.launch p words) p.textBase ∧ HoldsExactly (State.launch p words) p.textBase words ∧
    (State.launch p words).image = words ∧ (State.launch p words).params = p ∧
    ∀ s : State, s.params = p → hostReset (loadProgram words s).1 = State.launch p words

/-- R39: a poke sets one register, HI or LO in both copies, in every status, and changes nothing else; a
poke of a hardwired register 0 is discarded. -/
def Obligations.PokesSetBothCopies : Prop :=
  ∀ (s : State) (r : Reg) (v : Word),
    (hardwired s r = true → pokeX r v s = s) ∧
    (hardwired s r = false →
      (pokeX r v s).current = s.current.setX r v ∧ (pokeX r v s).next = s.next.setX r v ∧
      (pokeX r v s).readX r = v ∧ ∀ q, q ≠ r → (pokeX r v s).readX q = s.readX q) ∧
    ((pokeHi v s).current = { s.current with hi := v } ∧ (pokeHi v s).next = { s.next with hi := v }) ∧
    ((pokeLo v s).current = { s.current with lo := v } ∧ (pokeLo v s).next = { s.next with lo := v }) ∧
    ∀ t, t = pokeX r v s ∨ t = pokeHi v s ∨ t = pokeLo v s →
      t.current.pc = s.current.pc ∧ t.mem = s.mem ∧ t.status = s.status ∧ t.icount = s.icount ∧
      SameFaultRecord s t ∧ SameIllegalRecord s t ∧ t.image = s.image ∧ t.params = s.params

/-- R277: runFor(n) does nothing outside RUNNING; in RUNNING it makes up to n steps, each from a RUNNING
state, stops early when the status is no longer RUNNING, and reports how many of them committed and the
final status. -/
def Obligations.RunForStopsEarlyAndCountsCommits : Prop :=
  ∀ (n : Nat) (s : State),
    (s.status ≠ .running → runFor n s = (s, .notRunning)) ∧
    (s.status = .running → ∃ k, k ≤ n ∧ (runFor n s).1 = stepState^[k] s ∧
      (∀ j, j < k → (stepState^[j] s).status = .running) ∧
      (k = n ∨ (stepState^[k] s).status ≠ .running) ∧
      (runFor n s).2 = .ran (if (stepState^[k] s).status = .faulted then k - 1 else k)
        (stepState^[k] s).status)

/-- spec/70_reset_and_hazards.md section 2: runToCompletion returns one state or none, a cap finds it, and a
branch to itself never returns. -/
def Obligations.RunToCompletionReturnsAtMostOnce : Prop :=
  (∀ s t : State, RunsToCompletion s t ↔ ∃ cap, runToCompletionWithin cap s = some t) ∧
  (∀ s t u : State, RunsToCompletion s t → RunsToCompletion s u → t = u) ∧
  (∀ (s : State) (w : Word) (r : Reg), s.Unified → s.status = .running → Fetches s w →
    decodeWord w = .ok (.beq r r 0xFFFF#16) → ¬∃ t, RunsToCompletion s t)

/-- R71, R112: readWord and decodeForDisplay read an aligned, mapped word and answer INVALID_ADDRESS for any
other address. -/
def Obligations.HostReadsNeverFault : Prop :=
  ∀ (s : State) (addr : Word) (w : Word),
    w = s.mem.byte (addr.toNat + 3) ++ s.mem.byte (addr.toNat + 2) ++ s.mem.byte (addr.toNat + 1) ++
      s.mem.byte addr.toNat →
    (addr.toNat % 4 = 0 → Mapped s.params addr.toNat →
      readWord s addr = .word w ∧ decodeForDisplay s addr = .record (decodeRecord w)) ∧
    (addr.toNat % 4 ≠ 0 ∨ ¬Mapped s.params addr.toNat →
      readWord s addr = .invalidAddress ∧ decodeForDisplay s addr = .invalidAddress)
end

