-- ==== Sys2Proof/Laws/Memory.lean ====
section
/-! SUPPORT. The laws of memory: a read after a write, what a write leaves alone, and that every memory
operation keeps the canonical form. -/

namespace Sys2Proof.Machine

/-- A byte reads as written at its address and as before elsewhere. -/
theorem Memory.byte_setByte (m : Memory) (a : Nat) (v : Byte) (c : Nat) (h : m.wf = true) :
    (m.setByte a v).byte c = if c = a then v else m.byte c := by
  have below : ∀ (m : Memory) (k : Nat), (m.all fun c => decide (k < c.1)) = true →
      ∀ c, c ≤ k → m.byte c = 0#8 := by
    intro m k hm c hc
    induction m with
    | nil => rfl
    | cons p rest ih =>
      obtain ⟨q, b⟩ := p
      simp only [List.all_cons, Bool.and_eq_true, decide_eq_true_eq] at hm
      simp only [Memory.byte]
      rw [if_neg (by omega)]
      exact ih hm.2
  induction m with
  | nil => by_cases hv : v = 0#8 <;> simp [Memory.setByte, Memory.byte, hv]
  | cons p rest ih =>
    obtain ⟨k, b⟩ := p
    simp only [Memory.wf, Bool.and_eq_true, decide_eq_true_eq] at h
    obtain ⟨⟨-, hall⟩, hrest⟩ := h
    have hk := below rest k hall
    simp only [Memory.setByte]
    by_cases h1 : a < k
    · simp only [h1, if_true]
      by_cases hv : v = 0#8
      · simp only [hv, if_true]
        by_cases hc : c = a
        · subst hc
          simp only [Memory.byte, if_true]
          rw [if_neg (by omega)]
          exact hk c (by omega)
        · simp [hc]
      · simp only [hv, if_false, Memory.byte]
    · by_cases h2 : a = k
      · subst h2
        simp only [Nat.lt_irrefl, if_false, if_true]
        by_cases hv : v = 0#8
        · simp only [hv, if_true, Memory.byte]
          by_cases hc : c = a
          · simp [hc, hk a (Nat.le_refl a)]
          · simp [hc]
        · simp only [hv, if_false, Memory.byte]
          by_cases hc : c = a <;> simp [hc]
      · simp only [h1, h2, if_false, Memory.byte, ih hrest]
        by_cases hc : c = k
        · subst hc
          rw [if_pos rfl, if_neg (Ne.symm h2), if_pos rfl]
        · simp [hc]

/-- A lower bound on every listed address survives a write above it. -/
theorem Memory.all_setByte (m : Memory) (a : Nat) (v : Byte) (k : Nat)
    (h : (m.all fun c => decide (k < c.1)) = true) (hk : k < a) :
    ((m.setByte a v).all fun c => decide (k < c.1)) = true := by
  induction m with
  | nil => by_cases hv : v = 0#8 <;> simp [Memory.setByte, hv, hk]
  | cons p rest ih =>
    obtain ⟨q, b⟩ := p
    have hq := h
    simp only [List.all_cons, Bool.and_eq_true, decide_eq_true_eq] at h
    simp only [Memory.setByte]
    split
    · split
      · exact hq
      · rw [List.all_cons, hq]; simp [hk]
    · split
      · split
        · exact h.2
        · rw [List.all_cons, h.2]; simp [hk]
      · rw [List.all_cons, ih h.2]; simp [h.1]

/-- A byte that is not 0 is listed. -/
theorem Memory.listed_of_byte_ne_zero (m : Memory) (a : Nat) (h : m.byte a ≠ 0#8) : ∃ c ∈ m, c.1 = a := by
  induction m with
  | nil => exact absurd rfl h
  | cons p rest ih =>
    obtain ⟨k, b⟩ := p
    by_cases hk : a = k
    · exact ⟨(k, b), by simp, hk.symm⟩
    · simp only [Memory.byte, hk, if_false] at h
      obtain ⟨c, hc, hca⟩ := ih h
      exact ⟨c, by simp [hc], hca⟩

/-- Writing a byte keeps the canonical form. -/
theorem Memory.wf_setByte (m : Memory) (a : Nat) (v : Byte) (h : m.wf = true) :
    (m.setByte a v).wf = true := by
  induction m with
  | nil => by_cases hv : v = 0#8 <;> simp [Memory.setByte, Memory.wf, hv]
  | cons p rest ih =>
    obtain ⟨k, b⟩ := p
    have hm := h
    simp only [Memory.wf, Bool.and_eq_true, decide_eq_true_eq] at h
    obtain ⟨⟨hb, hall⟩, hrest⟩ := h
    simp only [Memory.setByte]
    split
    · rename_i hlt
      split
      · exact hm
      · rename_i hv
        have : (rest.all fun c => decide (a < c.1)) = true := by
          simp only [List.all_eq_true, decide_eq_true_eq] at hall ⊢
          intro c hc
          have := hall c hc
          omega
        simp [Memory.wf, hv, hlt, this, hb, hall, hrest]
    · split
      · rename_i hlt heq
        split
        · exact hrest
        · rename_i hv
          subst heq
          simp [Memory.wf, hv, hall, hrest]
      · rename_i hlt hne
        simp only [Memory.wf, Bool.and_eq_true, decide_eq_true_eq]
        exact ⟨⟨hb, Memory.all_setByte rest a v k hall (by omega)⟩, ih hrest⟩

/-- A wider write keeps the canonical form. -/
theorem Memory.wf_write (m : Memory) (a : Nat) (v : Word) (n : Nat) (h : m.wf = true) :
    (m.write a v n).wf = true := by
  induction n with
  | zero => exact h
  | succ n ih => exact Memory.wf_setByte _ _ _ ih

/-- What a wider write leaves at every address (R66). -/
theorem Memory.byte_write (m : Memory) (a : Nat) (v : Word) (n c : Nat) (h : m.wf = true) :
    (m.write a v n).byte c = if a ≤ c ∧ c < a + n then byteOf v (c - a) else m.byte c := by
  induction n with
  | zero => simp [Memory.write]
  | succ n ih =>
    rw [Memory.write, Memory.byte_setByte _ _ _ _ (Memory.wf_write m a v n h), ih]
    by_cases hc : c = a + n
    · subst hc
      rw [if_pos rfl, if_pos (by omega)]
      congr 1
      omega
    · rw [if_neg hc]
      by_cases hin : a ≤ c ∧ c < a + n
      · rw [if_pos hin, if_pos (by omega)]
      · rw [if_neg hin, if_neg (by omega)]

/-- A program image keeps the canonical form. -/
theorem Memory.wf_writeWords (m : Memory) (a : Nat) (ws : List Word) (h : m.wf = true) :
    (m.writeWords a ws).wf = true := by
  induction ws generalizing m a with
  | nil => exact h
  | cons w ws ih => exact ih _ _ (Memory.wf_write m a w 4 h)

/-- Bytes outside a written image are as before (R272). -/
theorem Memory.byte_writeWords_outside (m : Memory) (a : Nat) (ws : List Word) (c : Nat)
    (h : m.wf = true) (hc : ¬(a ≤ c ∧ c < a + 4 * ws.length)) :
    (m.writeWords a ws).byte c = m.byte c := by
  induction ws generalizing m a with
  | nil => rfl
  | cons w ws ih =>
    simp only [List.length_cons] at hc
    rw [Memory.writeWords, ih _ _ (Memory.wf_write m a w 4 h) (by omega), Memory.byte_write _ _ _ _ _ h,
      if_neg (by omega)]

/-- Word `k` of a written image stands little-endian at `a + 4k` (R67, R272). -/
theorem Memory.byte_writeWords_inside (m : Memory) (a : Nat) (ws : List Word) (k j : Nat)
    (h : m.wf = true) (hk : k < ws.length) (hj : j < 4) :
    (m.writeWords a ws).byte (a + 4 * k + j) = byteOf ws[k] j := by
  induction ws generalizing m a k with
  | nil => simp at hk
  | cons w ws ih =>
    rw [Memory.writeWords]
    cases k with
    | zero =>
      rw [Memory.byte_writeWords_outside _ _ _ _ (Memory.wf_write m a w 4 h) (by omega),
        Memory.byte_write _ _ _ _ _ h, if_pos (by omega)]
      simp
    | succ k =>
      have := ih (m.write a w 4) (a + 4) k (Memory.wf_write m a w 4 h) (by simpa using hk)
      rw [show a + 4 * (k + 1) + j = a + 4 + 4 * k + j from by omega, this]
      simp

/-- The four bytes of a word put together give the word. -/
theorem wordOfBytes_byteOf (w : Word) :
    wordOfBytes (byteOf w 0) (byteOf w 1) (byteOf w 2) (byteOf w 3) = w := by
  apply BitVec.eq_of_getLsbD_eq
  intro i hi
  simp only [wordOfBytes, byteOf, BitVec.getLsbD_append, BitVec.getLsbD_extractLsb']
  by_cases h1 : i < 8
  · simp [h1]
  · by_cases h2 : i - 8 < 8
    · have e : 8 + (i - 8) = i := by omega
      simp [h1, h2, e]
    · by_cases h3 : i - 8 - 8 < 8
      · have e : 16 + (i - 8 - 8) = i := by omega
        simp [h1, h2, h3, e]
      · have e : 24 + (i - 8 - 8 - 8) = i := by omega
        have h4 : i - 8 - 8 - 8 < 8 := by omega
        simp [h1, h2, h3, h4, e]

/-- Four bytes that are those of `w` read as `w`. -/
theorem Memory.read32_of_bytes (m : Memory) (a : Nat) (w : Word)
    (h : ∀ k, k < 4 → m.byte (a + k) = byteOf w k) : m.read32 a = w := by
  have h0 := h 0 (by decide)
  rw [Nat.add_zero] at h0
  rw [Memory.read32, h0, h 1 (by decide), h 2 (by decide), h 3 (by decide), wordOfBytes_byteOf]

/-- A word reads back as written (R85). -/
theorem Memory.read32_write (m : Memory) (a : Nat) (v : Word) (h : m.wf = true) :
    (m.write a v 4).read32 a = v := by
  apply Memory.read32_of_bytes
  intro k hk
  rw [Memory.byte_write _ _ _ _ _ h, if_pos (by omega)]
  congr 1
  omega

end Sys2Proof.Machine
end

