-- ==== Sys2Proof/Laws/Arbiter.lean ====
section
/-! SUPPORT. The laws of the region arbiter (spec/20_memory.md R63, R64). -/

namespace Sys2Proof.Machine

/-- The translated cell of an address is the address itself: `r.base + (addr - r.base)`. -/
theorem lookup_some (p : Params) (addr : Word) (r : Region) (off : Nat)
    (h : lookup p addr = some (r, off)) :
    r ∈ p.regions ∧ regionHolds r addr = true ∧ cellOf r off = addr.toNat := by
  unfold lookup at h
  split at h
  · rename_i r' hf
    simp only [Option.some.injEq, Prod.mk.injEq] at h
    obtain ⟨rfl, rfl⟩ := h
    have hh := List.find?_some hf
    refine ⟨List.mem_of_find?_eq_some hf, hh, ?_⟩
    simp only [regionHolds, Bool.and_eq_true, decide_eq_true_eq] at hh
    simp only [cellOf]
    omega
  · exact absurd h (by simp)

/-- An address translates exactly if some region holds it. -/
theorem lookup_none_iff (p : Params) (addr : Word) : lookup p addr = none ↔ mappedTest p addr = false := by
  unfold lookup mappedTest
  split
  · rename_i r hf
    have hr := List.find?_some hf
    simp only [regionHolds, Region.limit] at hr
    simp only [reduceCtorEq, false_iff, Bool.not_eq_false, List.any_eq_true]
    exact ⟨r, List.mem_of_find?_eq_some hf, hr⟩
  · rename_i hf
    simp only [true_iff, List.any_eq_false]
    exact fun x hx => List.find?_eq_none.1 hf x hx

/-- `check` in terms of the spec's two tests: what it answers when it passes. -/
theorem check_ok (p : Params) (addr : Word) (n : Nat) (k : AccessKind) (ha : addr.toNat % n = 0)
    (hm : mappedTest p addr = true) :
    ∃ r off, check p addr n k = .ok (r, off) ∧ r ∈ p.regions ∧ regionHolds r addr = true ∧
      cellOf r off = addr.toNat := by
  cases hl : lookup p addr with
  | none => rw [lookup_none_iff] at hl; simp [hl] at hm
  | some loc =>
    obtain ⟨r, off⟩ := loc
    exact ⟨r, off, by simp [check, ha, hl], lookup_some p addr r off hl⟩

/-- `check` in one equation: aligned and mapped, or the first fault of R244. -/
theorem check_cases (p : Params) (addr : Word) (n : Nat) (k : AccessKind) :
    (accessFault p addr n k.misaligned k.unmapped = none ∧ addr.toNat % n = 0 ∧ mappedTest p addr = true ∧
      ∃ r off, check p addr n k = .ok (r, off) ∧ r ∈ p.regions ∧ regionHolds r addr = true ∧
        cellOf r off = addr.toNat) ∨
    (∃ f, accessFault p addr n k.misaligned k.unmapped = some (f, addr) ∧
      check p addr n k = .error { cause := f, addr := addr }) := by
  by_cases ha : addr.toNat % n = 0
  · by_cases hm : mappedTest p addr = true
    · exact .inl ⟨by simp [accessFault, ha, hm], ha, hm, check_ok p addr n k ha hm⟩
    · have hl : lookup p addr = none := (lookup_none_iff p addr).2 (by simpa using hm)
      exact .inr ⟨k.unmapped, by simp [accessFault, ha, hm], by simp [check, ha, hl]⟩
  · exact .inr ⟨k.misaligned, by simp [accessFault, ha], by simp [check, ha]⟩

/-- The test of R61 says that some region holds the address. -/
theorem mappedTest_iff (p : Params) (addr : Word) : mappedTest p addr = true ↔ Mapped p addr.toNat := by
  simp [mappedTest, Mapped, Region.limit]

/-- A fetch that can be made reads the word at pc (R67). -/
theorem fetch_of_fetches (s : State) (w : Word) (h : Fetches s w) : fetch s = .ok w := by
  obtain ⟨r, off, hc, -, -, hcell⟩ := check_ok s.params s.current.pc 4 .fetch h.aligned h.mapped
  simp only [fetch, memRead32, hc, hcell]
  rw [Memory.read32_of_bytes s.mem _ w h.word]

/-- The word recorded at pc is the fetched word (assumption log 6). -/
theorem wordAtPc_of_fetches (s : State) (w : Word) (h : Fetches s w) : wordAtPc s = w :=
  Memory.read32_of_bytes s.mem _ w h.word

end Sys2Proof.Machine
end

