-- ==== Sys2Proof/Laws/State.lean ====
section
/-! SUPPORT. What each update of a state or a step leaves in each field: true by definition, for simp, so
that no later proof unfolds a record update. -/

namespace Sys2Proof.Machine

/-! ### Arch.setX -/

@[simp] theorem Arch.setX_pc (a : Arch) (i : Reg) (v : Word) : (a.setX i v).pc = a.pc := rfl
@[simp] theorem Arch.setX_hi (a : Arch) (i : Reg) (v : Word) : (a.setX i v).hi = a.hi := rfl
@[simp] theorem Arch.setX_lo (a : Arch) (i : Reg) (v : Word) : (a.setX i v).lo = a.lo := rfl
@[simp] theorem Arch.setX_x (a : Arch) (i : Reg) (v : Word) : (a.setX i v).x = a.x.set i.val v := rfl

/-! ### Txn.start -/

@[simp] theorem Txn.start_st (s : State) :
    (Txn.start s).st = { s with next := { s.next with pc := s.current.pc + 4#32 } } := rfl
@[simp] theorem Txn.start_pendingWrite (s : State) : (Txn.start s).pendingWrite = none := rfl
@[simp] theorem Txn.start_halt (s : State) : (Txn.start s).halt = false := rfl
@[simp] theorem Txn.start_illegal (s : State) : (Txn.start s).illegal = false := rfl
@[simp] theorem Txn.start_readX (s : State) (i : Reg) : (Txn.start s).readX i = s.readX i := rfl
@[simp] theorem Txn.start_pc (s : State) : (Txn.start s).pc = s.current.pc := rfl
@[simp] theorem Txn.start_readHi (s : State) : (Txn.start s).readHi = s.current.hi := rfl
@[simp] theorem Txn.start_readLo (s : State) : (Txn.start s).readLo = s.current.lo := rfl

/-! ### The writing primitives -/

@[simp] theorem Txn.writePc_st (t : Txn) (v : Word) :
    (t.writePc v).st = { t.st with next := { t.st.next with pc := v } } := rfl
@[simp] theorem Txn.writePc_pendingWrite (t : Txn) (v : Word) :
    (t.writePc v).pendingWrite = t.pendingWrite := rfl
@[simp] theorem Txn.writePc_halt (t : Txn) (v : Word) : (t.writePc v).halt = t.halt := rfl
@[simp] theorem Txn.writePc_illegal (t : Txn) (v : Word) : (t.writePc v).illegal = t.illegal := rfl

@[simp] theorem Txn.writeHi_st (t : Txn) (v : Word) :
    (t.writeHi v).st = { t.st with next := { t.st.next with hi := v } } := rfl
@[simp] theorem Txn.writeHi_pendingWrite (t : Txn) (v : Word) :
    (t.writeHi v).pendingWrite = t.pendingWrite := rfl
@[simp] theorem Txn.writeHi_halt (t : Txn) (v : Word) : (t.writeHi v).halt = t.halt := rfl
@[simp] theorem Txn.writeHi_illegal (t : Txn) (v : Word) : (t.writeHi v).illegal = t.illegal := rfl

@[simp] theorem Txn.writeLo_st (t : Txn) (v : Word) :
    (t.writeLo v).st = { t.st with next := { t.st.next with lo := v } } := rfl
@[simp] theorem Txn.writeLo_pendingWrite (t : Txn) (v : Word) :
    (t.writeLo v).pendingWrite = t.pendingWrite := rfl
@[simp] theorem Txn.writeLo_halt (t : Txn) (v : Word) : (t.writeLo v).halt = t.halt := rfl
@[simp] theorem Txn.writeLo_illegal (t : Txn) (v : Word) : (t.writeLo v).illegal = t.illegal := rfl

@[simp] theorem Txn.requestHalt_st (t : Txn) : t.requestHalt.st = t.st := rfl
@[simp] theorem Txn.requestHalt_pendingWrite (t : Txn) : t.requestHalt.pendingWrite = t.pendingWrite := rfl
@[simp] theorem Txn.requestHalt_halt (t : Txn) : t.requestHalt.halt = true := rfl
@[simp] theorem Txn.requestHalt_illegal (t : Txn) : t.requestHalt.illegal = t.illegal := rfl

@[simp] theorem Txn.markIllegal_st (t : Txn) : t.markIllegal.st = t.st := rfl
@[simp] theorem Txn.markIllegal_pendingWrite (t : Txn) : t.markIllegal.pendingWrite = t.pendingWrite := rfl
@[simp] theorem Txn.markIllegal_halt (t : Txn) : t.markIllegal.halt = t.halt := rfl
@[simp] theorem Txn.markIllegal_illegal (t : Txn) : t.markIllegal.illegal = true := rfl

/-! ### The commit (R41) -/

@[simp] theorem Txn.commit_params (t : Txn) : t.commit.params = t.st.params := rfl
@[simp] theorem Txn.commit_current (t : Txn) : t.commit.current = t.st.next := rfl
@[simp] theorem Txn.commit_next (t : Txn) : t.commit.next = t.st.next := rfl
@[simp] theorem Txn.commit_mem (t : Txn) : t.commit.mem = applyWrite t.st.mem t.pendingWrite := rfl
@[simp] theorem Txn.commit_status (t : Txn) :
    t.commit.status = if t.halt then .stopped else t.st.status := rfl
@[simp] theorem Txn.commit_icount (t : Txn) : t.commit.icount = t.st.icount + 1#64 := rfl
@[simp] theorem Txn.commit_faultCause (t : Txn) : t.commit.faultCause = t.st.faultCause := rfl
@[simp] theorem Txn.commit_faultPc (t : Txn) : t.commit.faultPc = t.st.faultPc := rfl
@[simp] theorem Txn.commit_faultAddr (t : Txn) : t.commit.faultAddr = t.st.faultAddr := rfl
@[simp] theorem Txn.commit_faultWord (t : Txn) : t.commit.faultWord = t.st.faultWord := rfl
@[simp] theorem Txn.commit_ill (t : Txn) : t.commit.ill = (t.st.ill || t.illegal) := rfl
@[simp] theorem Txn.commit_illPc (t : Txn) :
    t.commit.illPc = if t.recordsIllegal then t.st.current.pc else t.st.illPc := rfl
@[simp] theorem Txn.commit_illWord (t : Txn) :
    t.commit.illWord = if t.recordsIllegal then wordAtPc t.st else t.st.illWord := rfl
@[simp] theorem Txn.commit_image (t : Txn) : t.commit.image = t.st.image := rfl
@[simp] theorem applyWrite_none (m : Memory) : applyWrite m none = m := rfl
@[simp] theorem applyWrite_some (m : Memory) (w : PendingWrite) :
    applyWrite m (some w) = m.write w.cell w.value w.n := rfl

/-! ### Taking a fault (R243) -/

@[simp] theorem takeFault_params (s : State) (e : Raise) (w : Word) :
    (takeFault s e w).params = s.params := rfl
@[simp] theorem takeFault_current (s : State) (e : Raise) (w : Word) :
    (takeFault s e w).current = s.current := rfl
@[simp] theorem takeFault_next (s : State) (e : Raise) (w : Word) :
    (takeFault s e w).next = s.current := rfl
@[simp] theorem takeFault_mem (s : State) (e : Raise) (w : Word) : (takeFault s e w).mem = s.mem := rfl
@[simp] theorem takeFault_status (s : State) (e : Raise) (w : Word) :
    (takeFault s e w).status = .faulted := rfl
@[simp] theorem takeFault_icount (s : State) (e : Raise) (w : Word) :
    (takeFault s e w).icount = s.icount := rfl
@[simp] theorem takeFault_faultCause (s : State) (e : Raise) (w : Word) :
    (takeFault s e w).faultCause = e.cause.code := rfl
@[simp] theorem takeFault_faultPc (s : State) (e : Raise) (w : Word) :
    (takeFault s e w).faultPc = s.current.pc := rfl
@[simp] theorem takeFault_faultAddr (s : State) (e : Raise) (w : Word) :
    (takeFault s e w).faultAddr = e.addr := rfl
@[simp] theorem takeFault_faultWord (s : State) (e : Raise) (w : Word) :
    (takeFault s e w).faultWord = w := rfl
@[simp] theorem takeFault_ill (s : State) (e : Raise) (w : Word) : (takeFault s e w).ill = s.ill := rfl
@[simp] theorem takeFault_illPc (s : State) (e : Raise) (w : Word) :
    (takeFault s e w).illPc = s.illPc := rfl
@[simp] theorem takeFault_illWord (s : State) (e : Raise) (w : Word) :
    (takeFault s e w).illWord = s.illWord := rfl
@[simp] theorem takeFault_image (s : State) (e : Raise) (w : Word) :
    (takeFault s e w).image = s.image := rfl

/-! ### Writing a general register (R7, R11) -/

theorem hardwired_eq (s : State) (i : Reg) : hardwired s i = (s.params.r0Hardwired && decide (i = 0)) := rfl

/-- Only the next copy's register file can change, and it does unless the register is hardwired. -/
theorem Txn.writeX_eq (t : Txn) (i : Reg) (v : Word) :
    t.writeX i v =
      { t with st := { t.st with next := if hardwired t.st i then t.st.next else t.st.next.setX i v } } := by
  unfold Txn.writeX
  split <;> rfl

/-- A branch writes only the next copy's pc, and only when it is taken (R200). -/
theorem Txn.branchIf_eq (t : Txn) (taken : Bool) (imm : Imm16) :
    t.branchIf taken imm =
      { t with st := { t.st with
          next := { t.st.next with pc := if taken then branchTarget t.pc imm else t.st.next.pc } } } := by
  cases taken <;> rfl

/-- Reading one register of a file in which one was set. -/
theorem Arch.getElem_setX (a : Arch) (i r : Reg) (v : Word) :
    (a.setX i v).x[r.val] = if r = i then v else a.x[r.val] := by
  by_cases h : r = i
  · subst h; simp
  · have : i.val ≠ r.val := fun e => h (Fin.ext e.symm)
    simp [h, this]

end Sys2Proof.Machine
end

