-- ==== Sys2Proof/Laws/Exec.lean ====
section
/-! SUPPORT. The shapes an instruction's answer can have: it takes the fault R241 gives for it or commits
one transaction whose effect `ExecEffect` bounds (spec/10_state.md R40, R41). -/

namespace Sys2Proof.Machine

/-- What a committed instruction's next copy `a` and pending write `w` can be (R22, R24, R27, R66). -/
structure ExecEffect (i : Instr) (s : State) (a : Arch) (w : Option PendingWrite) : Prop where
  registers : ∀ r : Reg, destination i ≠ some r → a.x[r.val] = s.next.x[r.val]
  discarded : ∀ r : Reg, hardwired s r = true → a.x[r.val] = s.next.x[r.val]
  hi : writesHi i = false → a.hi = s.next.hi
  lo : writesLo i = false → a.lo = s.next.lo
  pc : isBranchOrJump i = false → a.pc = s.current.pc + 4#32
  noStore : storeTarget s i = none → w = none
  store : ∀ addr n, storeTarget s i = some (addr, n) →
    ∃ v r, w = some { cell := addr.toNat, n := n, value := v } ∧ r ∈ s.params.regions ∧
      regionHolds r addr = true ∧ addr.toNat % n = 0

/-- The transaction an instruction commits. -/
def committedTxn (s : State) (a : Arch) (w : Option PendingWrite) (halt : Bool) : Txn :=
  { st := { s with next := a }, pendingWrite := w, halt := halt, illegal := false }

theorem perform_ok (s : State) (body : Txn → Except Raise Txn) (t : Txn) (h : body (Txn.start s) = .ok t) :
    perform s body = .next t.commit := by
  simp [perform, h]

theorem perform_error (s : State) (body : Txn → Except Raise Txn) (e : Raise)
    (h : body (Txn.start s) = .error e) : perform s body = .next (takeFault s e (wordAtPc s)) := by
  simp [perform, h]

/-- A register write in the transaction that has only started. -/
theorem start_writeX (s : State) (i : Reg) (v : Word) :
    (Txn.start s).writeX i v =
      committedTxn s (if hardwired s i then { s.next with pc := s.current.pc + 4#32 }
        else { s.next with pc := s.current.pc + 4#32, x := s.next.x.set i.val v }) none false := by
  rw [Txn.writeX_eq]
  rfl

/-- What a register write does to each stored register. -/
theorem getElem_writtenX (s : State) (i r : Reg) (v : Word) (pc hi lo : Word) :
    (if hardwired s i then ({ pc := pc, x := s.next.x, hi := hi, lo := lo } : Arch)
      else { pc := pc, x := s.next.x.set i.val v, hi := hi, lo := lo }).x[r.val] =
      if hardwired s i = false ∧ r = i then v else s.next.x[r.val] := by
  by_cases hw : hardwired s i = true
  · simp [hw]
  · have := Arch.getElem_setX s.next i r v
    simp only [Arch.setX_x] at this
    simp [hw, this]

/-- The effect of an instruction that writes one register. -/
theorem effect_writeX (i : Instr) (s : State) (rd : Reg) (v pc : Word) (hd : destination i = some rd)
    (hpc : isBranchOrJump i = false → pc = s.current.pc + 4#32) (hs : storeTarget s i = none) :
    ExecEffect i s (if hardwired s rd then { s.next with pc := pc }
      else { s.next with pc := pc, x := s.next.x.set rd.val v }) none where
  registers r hr := by
    rw [getElem_writtenX, if_neg]
    rintro ⟨-, rfl⟩
    exact hr hd
  discarded r hr := by
    rw [getElem_writtenX, if_neg]
    rintro ⟨hw, rfl⟩
    rw [hr] at hw
    exact absurd hw (by decide)
  hi _ := by split <;> rfl
  lo _ := by split <;> rfl
  pc h := by rw [← hpc h]; split <;> rfl
  noStore _ := rfl
  store addr n h := by rw [hs] at h; exact absurd h (by simp)

/-- The effect of an instruction that writes no register and no memory. -/
theorem effect_noRegister (i : Instr) (s : State) (pc hi lo : Word)
    (hhi : writesHi i = false → hi = s.next.hi) (hlo : writesLo i = false → lo = s.next.lo)
    (hpc : isBranchOrJump i = false → pc = s.current.pc + 4#32) (hs : storeTarget s i = none) :
    ExecEffect i s { pc := pc, x := s.next.x, hi := hi, lo := lo } none where
  registers _ _ := rfl
  discarded _ _ := rfl
  hi := hhi
  lo := hlo
  pc := hpc
  noStore _ := rfl
  store addr n h := by rw [hs] at h; exact absurd h (by simp)

/-- The answer of `exec`, in the two ways it can go. -/
def ExecAnswers (i : Instr) (s : State) : Prop :=
  (∃ f addr, instrFault s i = some (f, addr) ∧
    exec i s = .next (takeFault s { cause := f, addr := addr } (wordAtPc s))) ∨
  (instrFault s i = none ∧ ∃ a w, ExecEffect i s a w ∧
    exec i s = .next (committedTxn s a w (decide (i = .syscall))).commit)

/-- A meaning that writes one register. -/
theorem answers_writeX {i : Instr} {s : State} (rd : Reg) (v : Word) (hd : destination i = some rd)
    (hs : storeTarget s i = none) (hf : instrFault s i = none)
    (hh : decide (i = .syscall) = false)
    (he : exec i s = .next ((Txn.start s).writeX rd v).commit) : ExecAnswers i s :=
  .inr ⟨hf, _, _, effect_writeX i s rd v (s.current.pc + 4#32) hd (fun _ => rfl) hs, by
    rw [he, start_writeX, hh]⟩

/-- A meaning that writes no register and no memory. -/
theorem answers_noRegister {i : Instr} {s : State} (pc hi lo : Word)
    (hhi : writesHi i = false → hi = s.next.hi) (hlo : writesLo i = false → lo = s.next.lo)
    (hpc : isBranchOrJump i = false → pc = s.current.pc + 4#32) (hs : storeTarget s i = none)
    (hf : instrFault s i = none)
    (he : exec i s = .next (committedTxn s { pc := pc, x := s.next.x, hi := hi, lo := lo } none
      (decide (i = .syscall))).commit) : ExecAnswers i s :=
  .inr ⟨hf, _, _, effect_noRegister i s pc hi lo hhi hlo hpc hs, he⟩

/-- A branch. -/
theorem answers_branch {i : Instr} {s : State} (taken : Bool) (imm : Imm16)
    (hb : isBranchOrJump i = true) (hs : storeTarget s i = none) (hf : instrFault s i = none) (hh : decide (i = .syscall) = false)
    (he : exec i s = .next ((Txn.start s).branchIf taken imm).commit) : ExecAnswers i s := by
  refine answers_noRegister (if taken then branchTarget s.current.pc imm else s.current.pc + 4#32)
    s.next.hi s.next.lo (fun _ => rfl) (fun _ => rfl) (fun h => absurd (h.symm.trans hb) (by decide)) hs hf ?_
  rw [he, Txn.branchIf_eq, hh]
  rfl

/-- A load: its access faults, or it writes one register. -/
theorem answers_load {i : Instr} {s : State} (rt : Reg) (addr : Word) (n : Nat) (value : Nat → Word)
    (hd : destination i = some rt) (hs : storeTarget s i = none)
    (hf : instrFault s i = accessFault s.params addr n .loadMisaligned .loadUnmapped)
    (hh : decide (i = .syscall) = false)
    (he : ∀ r off, check s.params addr n .load = .ok (r, off) →
      exec i s = .next ((Txn.start s).writeX rt (value (cellOf r off))).commit)
    (hx : ∀ e, check s.params addr n .load = .error e → exec i s = .next (takeFault s e (wordAtPc s))) :
    ExecAnswers i s := by
  obtain ⟨hn, -, -, r, off, hc, -, -, -⟩ | ⟨f, hsome, hc⟩ := check_cases s.params addr n .load
  · exact answers_writeX rt _ hd hs (hf.trans hn) hh (he r off hc)
  · exact .inl ⟨f, addr, hf.trans hsome, hx _ hc⟩

/-- A store: its access faults, or it records one write. -/
theorem answers_store {i : Instr} {s : State} (addr : Word) (n : Nat) (v : Word)
    (hs : storeTarget s i = some (addr, n))
    (hf : instrFault s i = accessFault s.params addr n .storeMisaligned .storeUnmapped)
    (hh : decide (i = .syscall) = false)
    (he : exec i s = perform s fun t => t.memWrite addr n v) : ExecAnswers i s := by
  obtain ⟨hn, hal, -, r, off, hc, hr, hh2, hcell⟩ | ⟨f, hsome, hc⟩ := check_cases s.params addr n .store
  · refine .inr ⟨hf.trans hn, { s.next with pc := s.current.pc + 4#32 },
      some { cell := addr.toNat, n := n, value := v }, ?_, ?_⟩
    · exact {
        registers := fun _ _ => rfl
        discarded := fun _ _ => rfl
        hi := fun _ => rfl
        lo := fun _ => rfl
        pc := fun _ => rfl
        noStore := fun h => by rw [hs] at h; exact absurd h (by simp)
        store := fun addr' n' h => by
          rw [hs] at h
          obtain ⟨rfl, rfl⟩ : addr = addr' ∧ n = n' := by simpa using h
          exact ⟨v, r, rfl, hr, hh2, hal⟩ }
    · rw [he, perform_ok s _ (committedTxn s { s.next with pc := s.current.pc + 4#32 }
        (some { cell := addr.toNat, n := n, value := v }) false), hh]
      simp [Txn.memWrite, hc, hcell, committedTxn]
  · refine .inl ⟨f, addr, hf.trans hsome, ?_⟩
    rw [he, perform_error]
    simp [Txn.memWrite, hc]

/-- A meaning whose body is one register write. -/
theorem perform_writeX (s : State) (rd : Reg) (v : Txn → Word) :
    (perform s fun t => .ok (t.writeX rd (v t))) = .next ((Txn.start s).writeX rd (v (Txn.start s))).commit :=
  rfl

/-- A register write followed by a jump, in the transaction that has only started. -/
theorem start_link (s : State) (i : Reg) (v pc : Word) :
    ((Txn.start s).writeX i v).writePc pc =
      committedTxn s (if hardwired s i then { s.next with pc := pc }
        else { s.next with pc := pc, x := s.next.x.set i.val v }) none false := by
  rw [start_writeX]
  unfold committedTxn Txn.writePc
  split <;> rfl

/-- A meaning that links and jumps. -/
theorem answers_link {i : Instr} {s : State} (rd : Reg) (v pc : Word) (hd : destination i = some rd)
    (hb : isBranchOrJump i = true) (hs : storeTarget s i = none) (hf : instrFault s i = none)
    (hh : decide (i = .syscall) = false)
    (he : exec i s = .next (((Txn.start s).writeX rd v).writePc pc).commit) : ExecAnswers i s :=
  .inr ⟨hf, _, _, effect_writeX i s rd v pc hd (fun h => absurd (h.symm.trans hb) (by decide)) hs, by
    rw [he, start_link, hh]⟩

end Sys2Proof.Machine
end

