-- ==== Sys2Proof/Laws/Cases.lean ====
section
/-! SUPPORT. What an instruction can do, said once: `exec_cases` gives every constructor of `Instr` its
shape of answer. Later proofs cite it instead of unfolding the 44 meanings. -/

namespace Sys2Proof.Machine

/-! The arms of the instructions that can fault, as rewriting rules. -/

theorem exec_eq_div (rs rt : Reg) (s : State) : exec (.div rs rt) s = execDiv rs rt s := rfl
theorem exec_eq_divu (rs rt : Reg) (s : State) : exec (.divu rs rt) s = execDivu rs rt s := rfl
theorem exec_eq_lw (rt base : Reg) (imm : Imm16) (s : State) : exec (.lw rt base imm) s = execLw rt base imm s := rfl
theorem exec_eq_lh (rt base : Reg) (imm : Imm16) (s : State) : exec (.lh rt base imm) s = execLh rt base imm s := rfl
theorem exec_eq_lb (rt base : Reg) (imm : Imm16) (s : State) : exec (.lb rt base imm) s = execLb rt base imm s := rfl
theorem exec_eq_sw (rt base : Reg) (imm : Imm16) (s : State) : exec (.sw rt base imm) s = execSw rt base imm s := rfl
theorem exec_eq_sh (rt base : Reg) (imm : Imm16) (s : State) : exec (.sh rt base imm) s = execSh rt base imm s := rfl
theorem exec_eq_sb (rt base : Reg) (imm : Imm16) (s : State) : exec (.sb rt base imm) s = execSb rt base imm s := rfl

/-- DIV with a divisor it divides by (R163). -/
theorem exec_div (s : State) (rs rt : Reg) (h0 : s.readX rt ≠ 0#32)
    (h1 : divOverflows (s.readX rs) (s.readX rt) ≠ true) :
    exec (.div rs rt) s =
      .next ((Txn.start s).writeHiLo (signedDivide (s.readX rs) (s.readX rt))).commit := by
  simp only [exec_eq_div, execDiv]
  refine perform_ok s _ _ ?_
  simp [h0, h1]

/-- DIV by 0 (R163). -/
theorem exec_div_zero (s : State) (rs rt : Reg) (h0 : s.readX rt = 0#32) :
    exec (.div rs rt) s = .next (takeFault s { cause := .divZero, addr := 0#32 } (wordAtPc s)) := by
  simp only [exec_eq_div, execDiv]
  refine perform_error s _ _ ?_
  simp only [Txn.start_readX, h0, if_true]

/-- DIV of -2^31 by -1 (R163). -/
theorem exec_div_overflow (s : State) (rs rt : Reg) (h0 : s.readX rt ≠ 0#32)
    (h1 : divOverflows (s.readX rs) (s.readX rt) = true) :
    exec (.div rs rt) s = .next (takeFault s { cause := .divOverflow, addr := 0#32 } (wordAtPc s)) := by
  simp only [exec_eq_div, execDiv]
  refine perform_error s _ _ ?_
  simp only [Txn.start_readX, h0, h1, if_true, if_false]

/-- DIVU with a divisor it divides by (R164). -/
theorem exec_divu (s : State) (rs rt : Reg) (h0 : s.readX rt ≠ 0#32) :
    exec (.divu rs rt) s =
      .next ((Txn.start s).writeHiLo (unsignedDivide (s.readX rs) (s.readX rt))).commit := by
  simp only [exec_eq_divu, execDivu]
  refine perform_ok s _ _ ?_
  simp only [Txn.start_readX, h0, if_false]

/-- DIVU by 0 (R164). -/
theorem exec_divu_zero (s : State) (rs rt : Reg) (h0 : s.readX rt = 0#32) :
    exec (.divu rs rt) s = .next (takeFault s { cause := .divZero, addr := 0#32 } (wordAtPc s)) := by
  simp only [exec_eq_divu, execDivu]
  refine perform_error s _ _ ?_
  simp only [Txn.start_readX, h0, if_true]

/-- LW whose access passes the check (R182). -/
theorem exec_lw (s : State) (rt base : Reg) (imm : Imm16) (r : Region) (off : Nat)
    (h : check s.params (effectiveAddress (s.readX base) imm) 4 .load = .ok (r, off)) :
    exec (.lw rt base imm) s = .next ((Txn.start s).writeX rt (s.mem.read32 (cellOf r off))).commit := by
  simp only [exec_eq_lw, execLw]
  refine perform_ok s _ _ ?_
  simp [Txn.ea, memRead32, h]

/-- LH whose access passes the check (R183). -/
theorem exec_lh (s : State) (rt base : Reg) (imm : Imm16) (r : Region) (off : Nat)
    (h : check s.params (effectiveAddress (s.readX base) imm) 2 .load = .ok (r, off)) :
    exec (.lh rt base imm) s =
      .next ((Txn.start s).writeX rt ((s.mem.read16 (cellOf r off)).signExtend 32)).commit := by
  simp only [exec_eq_lh, execLh]
  refine perform_ok s _ _ ?_
  simp [Txn.ea, memRead16, h]

/-- LB whose access passes the check (R184). -/
theorem exec_lb (s : State) (rt base : Reg) (imm : Imm16) (r : Region) (off : Nat)
    (h : check s.params (effectiveAddress (s.readX base) imm) 1 .load = .ok (r, off)) :
    exec (.lb rt base imm) s =
      .next ((Txn.start s).writeX rt ((s.mem.byte (cellOf r off)).signExtend 32)).commit := by
  simp only [exec_eq_lb, execLb]
  refine perform_ok s _ _ ?_
  simp [Txn.ea, memRead8, h]

/-- A load or store whose access does not pass the check takes the fault it raised (R181). -/
theorem exec_access_error (s : State) (rt base : Reg) (imm : Imm16) (e : Raise) :
    (check s.params (effectiveAddress (s.readX base) imm) 4 .load = .error e →
      exec (.lw rt base imm) s = .next (takeFault s e (wordAtPc s))) ∧
    (check s.params (effectiveAddress (s.readX base) imm) 2 .load = .error e →
      exec (.lh rt base imm) s = .next (takeFault s e (wordAtPc s))) ∧
    (check s.params (effectiveAddress (s.readX base) imm) 1 .load = .error e →
      exec (.lb rt base imm) s = .next (takeFault s e (wordAtPc s))) := by
  simp only [exec_eq_lw, exec_eq_lh, exec_eq_lb, execLw, execLh, execLb]
  refine ⟨fun h => perform_error s _ _ ?_, fun h => perform_error s _ _ ?_,
    fun h => perform_error s _ _ ?_⟩
  · simp [Txn.ea, memRead32, h]
  · simp [Txn.ea, memRead16, h]
  · simp [Txn.ea, memRead8, h]

/-- A store whose access passes the check commits its write (R66, R185 to R187). -/
theorem exec_store_ok (s : State) (rt base : Reg) (imm : Imm16) (r : Region) (off : Nat) :
    (check s.params (effectiveAddress (s.readX base) imm) 4 .store = .ok (r, off) →
      exec (.sw rt base imm) s = .next (committedTxn s { s.next with pc := s.current.pc + 4#32 }
        (some { cell := cellOf r off, n := 4, value := s.readX rt }) false).commit) ∧
    (check s.params (effectiveAddress (s.readX base) imm) 2 .store = .ok (r, off) →
      exec (.sh rt base imm) s = .next (committedTxn s { s.next with pc := s.current.pc + 4#32 }
        (some { cell := cellOf r off, n := 2, value := s.readX rt }) false).commit) ∧
    (check s.params (effectiveAddress (s.readX base) imm) 1 .store = .ok (r, off) →
      exec (.sb rt base imm) s = .next (committedTxn s { s.next with pc := s.current.pc + 4#32 }
        (some { cell := cellOf r off, n := 1, value := s.readX rt }) false).commit) := by
  simp only [exec_eq_sw, exec_eq_sh, exec_eq_sb, execSw, execSh, execSb]
  refine ⟨fun h => perform_ok s _ _ ?_, fun h => perform_ok s _ _ ?_, fun h => perform_ok s _ _ ?_⟩ <;>
    simp [Txn.ea, Txn.memWrite, h, committedTxn]

/-- A store whose access does not pass the check takes the fault it raised (R181). -/
theorem exec_store_error (s : State) (rt base : Reg) (imm : Imm16) (e : Raise) :
    (check s.params (effectiveAddress (s.readX base) imm) 4 .store = .error e →
      exec (.sw rt base imm) s = .next (takeFault s e (wordAtPc s))) ∧
    (check s.params (effectiveAddress (s.readX base) imm) 2 .store = .error e →
      exec (.sh rt base imm) s = .next (takeFault s e (wordAtPc s))) ∧
    (check s.params (effectiveAddress (s.readX base) imm) 1 .store = .error e →
      exec (.sb rt base imm) s = .next (takeFault s e (wordAtPc s))) := by
  simp only [exec_eq_sw, exec_eq_sh, exec_eq_sb, execSw, execSh, execSb]
  refine ⟨fun h => perform_error s _ _ ?_, fun h => perform_error s _ _ ?_,
    fun h => perform_error s _ _ ?_⟩ <;> simp [Txn.ea, Txn.memWrite, h]

/-- What an instruction can do: every constructor of `Instr`. -/
theorem exec_cases (i : Instr) (s : State) : ExecAnswers i s := by
  cases i with
  | add rd rs rt | addu rd rs rt | sub rd rs rt | subu rd rs rt | and rd rs rt | or rd rs rt | xor rd rs rt
  | nor rd rs rt | slt rd rs rt | sll rd rt n | srl rd rt n | sra rd rt n | mfhi rd | mflo rd =>
    exact answers_writeX rd _ rfl rfl rfl rfl rfl
  | addi rt rs imm | addiu rt rs imm | andi rt rs imm | ori rt rs imm | xori rt rs imm | slti rt rs imm
  | lui rt imm =>
    exact answers_writeX rt _ rfl rfl rfl rfl rfl
  | mult rs rt | multu rs rt | mthi rs | mtlo rs =>
    exact answers_noRegister _ _ _ (by simp [writesHi]) (by simp [writesLo]) (fun _ => rfl) rfl rfl rfl
  | div rs rt =>
    by_cases h0 : s.readX rt = 0#32
    · exact .inl ⟨.divZero, 0#32, by simp [instrFault, h0], exec_div_zero s rs rt h0⟩
    · by_cases h1 : divOverflows (s.readX rs) (s.readX rt) = true
      · refine .inl ⟨.divOverflow, 0#32, ?_, exec_div_overflow s rs rt h0 h1⟩
        simp only [divOverflows, Bool.and_eq_true, decide_eq_true_eq] at h1
        simp [instrFault, h1]
      · refine answers_noRegister (s.current.pc + 4#32) (signedDivide (s.readX rs) (s.readX rt)).hi
          (signedDivide (s.readX rs) (s.readX rt)).lo (by simp [writesHi]) (by simp [writesLo])
          (fun _ => rfl) rfl ?_ (exec_div s rs rt h0 h1)
        simp only [divOverflows, Bool.and_eq_true, decide_eq_true_eq] at h1
        simp [instrFault, h0, h1]
  | divu rs rt =>
    by_cases h0 : s.readX rt = 0#32
    · exact .inl ⟨.divZero, 0#32, by simp [instrFault, h0], exec_divu_zero s rs rt h0⟩
    · exact answers_noRegister (s.current.pc + 4#32) (unsignedDivide (s.readX rs) (s.readX rt)).hi
          (unsignedDivide (s.readX rs) (s.readX rt)).lo (by simp [writesHi]) (by simp [writesLo])
          (fun _ => rfl) rfl (by simp [instrFault, h0]) (exec_divu s rs rt h0)
  | lw rt base imm =>
    exact answers_load rt (effectiveAddress (s.readX base) imm) 4 (fun c => s.mem.read32 c) rfl rfl rfl rfl
      (exec_lw s rt base imm) (fun e => (exec_access_error s rt base imm e).1)
  | lh rt base imm =>
    exact answers_load rt (effectiveAddress (s.readX base) imm) 2
      (fun c => (s.mem.read16 c).signExtend 32) rfl rfl rfl rfl
      (exec_lh s rt base imm) (fun e => (exec_access_error s rt base imm e).2.1)
  | lb rt base imm =>
    exact answers_load rt (effectiveAddress (s.readX base) imm) 1
      (fun c => (s.mem.byte c).signExtend 32) rfl rfl rfl rfl
      (exec_lb s rt base imm) (fun e => (exec_access_error s rt base imm e).2.2)
  | sw rt base imm =>
    exact answers_store (effectiveAddress (s.readX base) imm) 4 (s.readX rt) rfl rfl rfl rfl
  | sh rt base imm =>
    exact answers_store (effectiveAddress (s.readX base) imm) 2 (s.readX rt) rfl rfl rfl rfl
  | sb rt base imm =>
    exact answers_store (effectiveAddress (s.readX base) imm) 1 (s.readX rt) rfl rfl rfl rfl
  | beq rs rt imm | bne rs rt imm | blez rs imm | bgtz rs imm | bltz rs imm | bgez rs imm =>
    exact answers_branch _ imm rfl rfl rfl rfl rfl
  | j target | jr rs =>
    exact answers_noRegister _ _ _ (fun _ => rfl) (fun _ => rfl) (by simp [isBranchOrJump]) rfl rfl rfl
  | jal target => exact answers_link 31 _ _ rfl rfl rfl rfl rfl rfl
  | jalr rd rs => exact answers_link rd _ _ rfl rfl rfl rfl rfl rfl
  | syscall =>
    exact answers_noRegister _ _ _ (fun _ => rfl) (fun _ => rfl) (fun _ => rfl) rfl rfl rfl

end Sys2Proof.Machine
end

