-- ==== Sys2Proof/Laws/Decode.lean ====
section
/-! SUPPORT. The laws of fields and words (spec/30_encoding.md R90, R93): a packed field reads back, a word
is made of its fields, and what a mask leaves of a packed word. -/

namespace Sys2Proof

@[simp] theorem fieldOp_packR (rs rt rd shamt : BitVec 5) (funct : BitVec 6) :
    fieldOp (packR rs rt rd shamt funct) = 0x00#6 := by
  simp (disch := omega) only [fieldOp, packR, BitVec.extractLsb'_append_eq_of_le,
    Nat.reduceSub, BitVec.extractLsb'_eq_self]

@[simp] theorem fieldRs_packR (rs rt rd shamt : BitVec 5) (funct : BitVec 6) :
    fieldRs (packR rs rt rd shamt funct) = rs := by
  simp (disch := omega) only [fieldRs, packR, BitVec.extractLsb'_append_eq_of_le,
    BitVec.extractLsb'_append_eq_of_add_le, Nat.reduceSub, BitVec.extractLsb'_eq_self]

@[simp] theorem fieldRt_packR (rs rt rd shamt : BitVec 5) (funct : BitVec 6) :
    fieldRt (packR rs rt rd shamt funct) = rt := by
  simp (disch := omega) only [fieldRt, packR, BitVec.extractLsb'_append_eq_of_le,
    BitVec.extractLsb'_append_eq_of_add_le, Nat.reduceSub, BitVec.extractLsb'_eq_self]

@[simp] theorem fieldRd_packR (rs rt rd shamt : BitVec 5) (funct : BitVec 6) :
    fieldRd (packR rs rt rd shamt funct) = rd := by
  simp (disch := omega) only [fieldRd, packR, BitVec.extractLsb'_append_eq_of_le,
    BitVec.extractLsb'_append_eq_of_add_le, Nat.reduceSub, BitVec.extractLsb'_eq_self]

@[simp] theorem fieldShamt_packR (rs rt rd shamt : BitVec 5) (funct : BitVec 6) :
    fieldShamt (packR rs rt rd shamt funct) = shamt := by
  simp (disch := omega) only [fieldShamt, packR, BitVec.extractLsb'_append_eq_of_le,
    BitVec.extractLsb'_append_eq_of_add_le, Nat.reduceSub, BitVec.extractLsb'_eq_self]

@[simp] theorem fieldFunct_packR (rs rt rd shamt : BitVec 5) (funct : BitVec 6) :
    fieldFunct (packR rs rt rd shamt funct) = funct := by
  simp (disch := omega) only [fieldFunct, packR, BitVec.extractLsb'_append_eq_of_add_le, BitVec.extractLsb'_eq_self]

@[simp] theorem fieldOp_packI (op : BitVec 6) (rs rt : BitVec 5) (imm : Imm16) :
    fieldOp (packI op rs rt imm) = op := by
  simp (disch := omega) only [fieldOp, packI, BitVec.extractLsb'_append_eq_of_le,
    Nat.reduceSub, BitVec.extractLsb'_eq_self]

@[simp] theorem fieldRs_packI (op : BitVec 6) (rs rt : BitVec 5) (imm : Imm16) :
    fieldRs (packI op rs rt imm) = rs := by
  simp (disch := omega) only [fieldRs, packI, BitVec.extractLsb'_append_eq_of_le,
    BitVec.extractLsb'_append_eq_of_add_le, Nat.reduceSub, BitVec.extractLsb'_eq_self]

@[simp] theorem fieldRt_packI (op : BitVec 6) (rs rt : BitVec 5) (imm : Imm16) :
    fieldRt (packI op rs rt imm) = rt := by
  simp (disch := omega) only [fieldRt, packI, BitVec.extractLsb'_append_eq_of_le,
    BitVec.extractLsb'_append_eq_of_add_le, Nat.reduceSub, BitVec.extractLsb'_eq_self]

@[simp] theorem fieldImm16_packI (op : BitVec 6) (rs rt : BitVec 5) (imm : Imm16) :
    fieldImm16 (packI op rs rt imm) = imm := by
  simp (disch := omega) only [fieldImm16, packI, BitVec.extractLsb'_append_eq_of_add_le, BitVec.extractLsb'_eq_self]

@[simp] theorem fieldOp_packJ (op : BitVec 6) (target : Target26) :
    fieldOp (packJ op target) = op := by
  simp (disch := omega) only [fieldOp, packJ, BitVec.extractLsb'_append_eq_of_le,
    Nat.reduceSub, BitVec.extractLsb'_eq_self]

@[simp] theorem fieldTarget26_packJ (op : BitVec 6) (target : Target26) :
    fieldTarget26 (packJ op target) = target := by
  simp (disch := omega) only [fieldTarget26, packJ, BitVec.extractLsb'_append_eq_of_add_le, BitVec.extractLsb'_eq_self]

@[simp] theorem fieldIndex_indexField (i : Fin 32) : fieldIndex (indexField i) = i := by
  simp [fieldIndex, indexField]

@[simp] theorem indexField_fieldIndex (f : BitVec 5) : indexField (fieldIndex f) = f := by
  simp [fieldIndex, indexField]

/-- Two adjacent fields, the higher one reaching to the top, are one field. -/
theorem extract_append (w : Word) (a b c : Nat) (h : a = b + c) :
    w.extractLsb' a (32 - a) ++ w.extractLsb' b c = w.extractLsb' b (32 - a + c) := by
  subst h
  exact BitVec.extractLsb'_append_extractLsb'_eq_extractLsb' rfl

/-- A word is its R-type fields side by side (R93). -/
theorem word_eq_fieldsR (w : Word) :
    (fieldOp w ++ fieldRs w ++ fieldRt w ++ fieldRd w ++ fieldShamt w ++ fieldFunct w : Word) = w := by
  have h1 := extract_append w 26 21 5 rfl
  have h2 := extract_append w 21 16 5 rfl
  have h3 := extract_append w 16 11 5 rfl
  have h4 := extract_append w 11 6 5 rfl
  have h5 := extract_append w 6 0 6 rfl
  simp only [Nat.reduceSub, Nat.reduceAdd] at h1 h2 h3 h4 h5
  unfold fieldOp fieldRs fieldRt fieldRd fieldShamt fieldFunct
  rw [h1, h2, h3, h4, h5]
  exact BitVec.extractLsb'_eq_self

/-- A word is its I-type fields side by side (R93). -/
theorem word_eq_fieldsI (w : Word) : packI (fieldOp w) (fieldRs w) (fieldRt w) (fieldImm16 w) = w := by
  have h1 := extract_append w 26 21 5 rfl
  have h2 := extract_append w 21 16 5 rfl
  have h3 := extract_append w 16 0 16 rfl
  simp only [Nat.reduceSub, Nat.reduceAdd] at h1 h2 h3
  unfold packI fieldOp fieldRs fieldRt fieldImm16
  rw [h1, h2, h3]
  exact BitVec.extractLsb'_eq_self

/-- A word is its J-type fields side by side (R93). -/
theorem word_eq_fieldsJ (w : Word) : packJ (fieldOp w) (fieldTarget26 w) = w := by
  have h1 := extract_append w 26 0 26 rfl
  simp only [Nat.reduceSub, Nat.reduceAdd] at h1
  unfold packJ fieldOp fieldTarget26
  rw [h1]
  exact BitVec.extractLsb'_eq_self

/-! ### Masks -/

/-- A mask given field by field acts field by field. -/
theorem packR_and (rs rt rd shamt : BitVec 5) (funct mo : BitVec 6) (ms mt md mh : BitVec 5) (mf : BitVec 6) :
    packR rs rt rd shamt funct &&& (mo ++ ms ++ mt ++ md ++ mh ++ mf) =
      packR (rs &&& ms) (rt &&& mt) (rd &&& md) (shamt &&& mh) (funct &&& mf) := by
  have h : (0#6 ++ rs ++ rt ++ rd ++ shamt ++ funct) &&& (mo ++ ms ++ mt ++ md ++ mh ++ mf) =
      0#6 ++ (rs &&& ms) ++ (rt &&& mt) ++ (rd &&& md) ++ (shamt &&& mh) ++ (funct &&& mf) := by
    simp only [BitVec.and_append, BitVec.zero_and]
  exact h

theorem packI_and (op : BitVec 6) (rs rt : BitVec 5) (imm : Imm16) (mo : BitVec 6) (ms mt : BitVec 5)
    (mi : Imm16) :
    packI op rs rt imm &&& (mo ++ ms ++ mt ++ mi) = packI (op &&& mo) (rs &&& ms) (rt &&& mt) (imm &&& mi) := by
  have h : (op ++ rs ++ rt ++ imm) &&& (mo ++ ms ++ mt ++ mi) =
      (op &&& mo) ++ (rs &&& ms) ++ (rt &&& mt) ++ (imm &&& mi) := by
    simp only [BitVec.and_append]
  exact h

/-- The fixed bits of a SPECIAL row (R102). -/
theorem packR_special (rs rt rd shamt : BitVec 5) (funct : BitVec 6) :
    packR rs rt rd shamt funct &&& 0xFC00003F#32 = packR 0#5 0#5 0#5 0#5 funct := by
  have h := packR_and rs rt rd shamt funct 0x3F#6 0#5 0#5 0#5 0#5 0x3F#6
  rw [show (0x3F#6 ++ 0#5 ++ 0#5 ++ 0#5 ++ 0#5 ++ 0x3F#6 : Word) = 0xFC00003F#32 from rfl] at h
  rw [h]
  simp only [BitVec.and_zero, show (0x3F#6) = BitVec.allOnes 6 from rfl, BitVec.and_allOnes]

/-- The fixed bits of a primary row (R101). -/
theorem packI_primary (op : BitVec 6) (rs rt : BitVec 5) (imm : Imm16) :
    packI op rs rt imm &&& 0xFC000000#32 = packI op 0#5 0#5 0#16 := by
  have h := packI_and op rs rt imm 0x3F#6 0#5 0#5 0#16
  rw [show (0x3F#6 ++ 0#5 ++ 0#5 ++ 0#16 : Word) = 0xFC000000#32 from rfl] at h
  rw [h]
  simp only [BitVec.and_zero, show (0x3F#6) = BitVec.allOnes 6 from rfl, BitVec.and_allOnes]

/-- The fixed bits of a REGIMM row (R103). -/
theorem packI_regimm (op : BitVec 6) (rs rt : BitVec 5) (imm : Imm16) :
    packI op rs rt imm &&& 0xFC1F0000#32 = packI op 0#5 rt 0#16 := by
  have h := packI_and op rs rt imm 0x3F#6 0#5 0x1F#5 0#16
  rw [show (0x3F#6 ++ 0#5 ++ 0x1F#5 ++ 0#16 : Word) = 0xFC1F0000#32 from rfl] at h
  rw [h]
  simp only [BitVec.and_zero, show (0x3F#6) = BitVec.allOnes 6 from rfl,
    show (0x1F#5) = BitVec.allOnes 5 from rfl, BitVec.and_allOnes]

/-- The fixed bits of a J-type row (R101). -/
theorem packJ_primary (op : BitVec 6) (target : Target26) :
    packJ op target &&& 0xFC000000#32 = packJ op 0#26 := by
  have h : (op ++ target) &&& (0x3F#6 ++ 0#26) = op ++ 0#26 := by
    simp only [BitVec.and_append, BitVec.and_zero, show (0x3F#6) = BitVec.allOnes 6 from rfl,
      BitVec.and_allOnes]
  exact h

/-! Ignored fields that are 0 (R105). -/

theorem packR_ignores_shamt (rs rt rd : BitVec 5) (funct : BitVec 6) :
    packR rs rt rd 0#5 funct &&& 0x000007C0#32 = 0#32 := by
  rw [show (0x000007C0#32) = (0#6 ++ 0#5 ++ 0#5 ++ 0#5 ++ 0x1F#5 ++ 0#6 : Word) from rfl, packR_and]
  simp only [BitVec.and_zero, BitVec.zero_and]
  rfl

theorem packR_ignores_rs (rt rd shamt : BitVec 5) (funct : BitVec 6) :
    packR 0#5 rt rd shamt funct &&& 0x03E00000#32 = 0#32 := by
  rw [show (0x03E00000#32) = (0#6 ++ 0x1F#5 ++ 0#5 ++ 0#5 ++ 0#5 ++ 0#6 : Word) from rfl, packR_and]
  simp only [BitVec.and_zero, BitVec.zero_and]
  rfl

theorem packR_ignores_rd_shamt (rs rt : BitVec 5) (funct : BitVec 6) :
    packR rs rt 0#5 0#5 funct &&& 0x0000FFC0#32 = 0#32 := by
  rw [show (0x0000FFC0#32) = (0#6 ++ 0#5 ++ 0#5 ++ 0x1F#5 ++ 0x1F#5 ++ 0#6 : Word) from rfl, packR_and]
  simp only [BitVec.and_zero, BitVec.zero_and]
  rfl

theorem packR_ignores_rs_rt_shamt (rd : BitVec 5) (funct : BitVec 6) :
    packR 0#5 0#5 rd 0#5 funct &&& 0x03FF07C0#32 = 0#32 := by
  rw [show (0x03FF07C0#32) = (0#6 ++ 0x1F#5 ++ 0x1F#5 ++ 0#5 ++ 0x1F#5 ++ 0#6 : Word) from rfl, packR_and]
  simp only [BitVec.and_zero, BitVec.zero_and]
  rfl

theorem packR_ignores_rt_rd_shamt (rs : BitVec 5) (funct : BitVec 6) :
    packR rs 0#5 0#5 0#5 funct &&& 0x001FFFC0#32 = 0#32 := by
  rw [show (0x001FFFC0#32) = (0#6 ++ 0#5 ++ 0x1F#5 ++ 0x1F#5 ++ 0x1F#5 ++ 0#6 : Word) from rfl, packR_and]
  simp only [BitVec.and_zero, BitVec.zero_and]
  rfl

theorem packR_ignores_rt_shamt (rs rd : BitVec 5) (funct : BitVec 6) :
    packR rs 0#5 rd 0#5 funct &&& 0x001F07C0#32 = 0#32 := by
  rw [show (0x001F07C0#32) = (0#6 ++ 0#5 ++ 0x1F#5 ++ 0#5 ++ 0x1F#5 ++ 0#6 : Word) from rfl, packR_and]
  simp only [BitVec.and_zero, BitVec.zero_and]
  rfl

theorem packI_ignores_rs (op : BitVec 6) (rt : BitVec 5) (imm : Imm16) :
    packI op 0#5 rt imm &&& 0x03E00000#32 = 0#32 := by
  rw [show (0x03E00000#32) = (0#6 ++ 0x1F#5 ++ 0#5 ++ 0#16 : Word) from rfl, packI_and]
  simp only [BitVec.and_zero, BitVec.zero_and]
  rfl

theorem packI_ignores_rt (op : BitVec 6) (rs : BitVec 5) (imm : Imm16) :
    packI op rs 0#5 imm &&& 0x001F0000#32 = 0#32 := by
  rw [show (0x001F0000#32) = (0#6 ++ 0#5 ++ 0x1F#5 ++ 0#16 : Word) from rfl, packI_and]
  simp only [BitVec.and_zero, BitVec.zero_and]
  rfl

/-! ### Words and bytes (R65, R66) -/

/-- Each byte of an assembled word is the byte it was assembled from. -/
theorem byteOf_wordOfBytes (b0 b1 b2 b3 : Byte) :
    byteOf (wordOfBytes b0 b1 b2 b3) 0 = b0 ∧ byteOf (wordOfBytes b0 b1 b2 b3) 1 = b1 ∧
      byteOf (wordOfBytes b0 b1 b2 b3) 2 = b2 ∧ byteOf (wordOfBytes b0 b1 b2 b3) 3 = b3 := by
  refine ⟨?_, ?_, ?_, ?_⟩ <;>
    simp (disch := omega) only [byteOf, wordOfBytes, BitVec.extractLsb'_append_eq_of_le,
      BitVec.extractLsb'_append_eq_of_add_le, Nat.reduceMul, Nat.reduceSub, BitVec.extractLsb'_eq_self]

end Sys2Proof
end

