-- ==== Sys2Proof/Laws/PerInstr.lean ====
section
/-! SUPPORT. Statements made for every instruction as syntax, one lemma per constructor. Family
`RowMatch`: the encoded word has the fixed bits of the instruction's row of spec/opcode_table.json, and
every bit R105 says it ignores is 0. -/

namespace Sys2Proof.Laws.RowMatch

/-- The word of `i` lies in its own row of the opcode table and its ignored bits are 0. -/
def Statement (i : Instr) : Prop :=
  encode i &&& i.row.mask = i.row.pattern ∧ encode i &&& i.ignoredMask = 0#32

theorem add (rd rs rt : Reg) : Statement (.add rd rs rt) := ⟨packR_special _ _ _ _ _, packR_ignores_shamt _ _ _ _⟩
theorem addu (rd rs rt : Reg) : Statement (.addu rd rs rt) := ⟨packR_special _ _ _ _ _, packR_ignores_shamt _ _ _ _⟩
theorem sub (rd rs rt : Reg) : Statement (.sub rd rs rt) := ⟨packR_special _ _ _ _ _, packR_ignores_shamt _ _ _ _⟩
theorem subu (rd rs rt : Reg) : Statement (.subu rd rs rt) := ⟨packR_special _ _ _ _ _, packR_ignores_shamt _ _ _ _⟩
theorem addi (rt rs : Reg) (imm : Imm16) : Statement (.addi rt rs imm) := ⟨packI_primary _ _ _ _, BitVec.and_zero⟩
theorem addiu (rt rs : Reg) (imm : Imm16) : Statement (.addiu rt rs imm) := ⟨packI_primary _ _ _ _, BitVec.and_zero⟩
theorem and (rd rs rt : Reg) : Statement (.and rd rs rt) := ⟨packR_special _ _ _ _ _, packR_ignores_shamt _ _ _ _⟩
theorem or (rd rs rt : Reg) : Statement (.or rd rs rt) := ⟨packR_special _ _ _ _ _, packR_ignores_shamt _ _ _ _⟩
theorem xor (rd rs rt : Reg) : Statement (.xor rd rs rt) := ⟨packR_special _ _ _ _ _, packR_ignores_shamt _ _ _ _⟩
theorem nor (rd rs rt : Reg) : Statement (.nor rd rs rt) := ⟨packR_special _ _ _ _ _, packR_ignores_shamt _ _ _ _⟩
theorem andi (rt rs : Reg) (imm : Imm16) : Statement (.andi rt rs imm) := ⟨packI_primary _ _ _ _, BitVec.and_zero⟩
theorem ori (rt rs : Reg) (imm : Imm16) : Statement (.ori rt rs imm) := ⟨packI_primary _ _ _ _, BitVec.and_zero⟩
theorem xori (rt rs : Reg) (imm : Imm16) : Statement (.xori rt rs imm) := ⟨packI_primary _ _ _ _, BitVec.and_zero⟩
theorem sll (rd rt : Reg) (k : Shamt) : Statement (.sll rd rt k) := ⟨packR_special _ _ _ _ _, packR_ignores_rs _ _ _ _⟩
theorem srl (rd rt : Reg) (k : Shamt) : Statement (.srl rd rt k) := ⟨packR_special _ _ _ _ _, packR_ignores_rs _ _ _ _⟩
theorem sra (rd rt : Reg) (k : Shamt) : Statement (.sra rd rt k) := ⟨packR_special _ _ _ _ _, packR_ignores_rs _ _ _ _⟩
theorem slt (rd rs rt : Reg) : Statement (.slt rd rs rt) := ⟨packR_special _ _ _ _ _, packR_ignores_shamt _ _ _ _⟩
theorem slti (rt rs : Reg) (imm : Imm16) : Statement (.slti rt rs imm) := ⟨packI_primary _ _ _ _, BitVec.and_zero⟩
theorem lui (rt : Reg) (imm : Imm16) : Statement (.lui rt imm) := ⟨packI_primary _ _ _ _, packI_ignores_rs _ _ _⟩
theorem mult (rs rt : Reg) : Statement (.mult rs rt) := ⟨packR_special _ _ _ _ _, packR_ignores_rd_shamt _ _ _⟩
theorem multu (rs rt : Reg) : Statement (.multu rs rt) := ⟨packR_special _ _ _ _ _, packR_ignores_rd_shamt _ _ _⟩
theorem div (rs rt : Reg) : Statement (.div rs rt) := ⟨packR_special _ _ _ _ _, packR_ignores_rd_shamt _ _ _⟩
theorem divu (rs rt : Reg) : Statement (.divu rs rt) := ⟨packR_special _ _ _ _ _, packR_ignores_rd_shamt _ _ _⟩
theorem mfhi (rd : Reg) : Statement (.mfhi rd) := ⟨packR_special _ _ _ _ _, packR_ignores_rs_rt_shamt _ _⟩
theorem mflo (rd : Reg) : Statement (.mflo rd) := ⟨packR_special _ _ _ _ _, packR_ignores_rs_rt_shamt _ _⟩
theorem mthi (rs : Reg) : Statement (.mthi rs) := ⟨packR_special _ _ _ _ _, packR_ignores_rt_rd_shamt _ _⟩
theorem mtlo (rs : Reg) : Statement (.mtlo rs) := ⟨packR_special _ _ _ _ _, packR_ignores_rt_rd_shamt _ _⟩
theorem lw (rt base : Reg) (imm : Imm16) : Statement (.lw rt base imm) := ⟨packI_primary _ _ _ _, BitVec.and_zero⟩
theorem lh (rt base : Reg) (imm : Imm16) : Statement (.lh rt base imm) := ⟨packI_primary _ _ _ _, BitVec.and_zero⟩
theorem lb (rt base : Reg) (imm : Imm16) : Statement (.lb rt base imm) := ⟨packI_primary _ _ _ _, BitVec.and_zero⟩
theorem sw (rt base : Reg) (imm : Imm16) : Statement (.sw rt base imm) := ⟨packI_primary _ _ _ _, BitVec.and_zero⟩
theorem sh (rt base : Reg) (imm : Imm16) : Statement (.sh rt base imm) := ⟨packI_primary _ _ _ _, BitVec.and_zero⟩
theorem sb (rt base : Reg) (imm : Imm16) : Statement (.sb rt base imm) := ⟨packI_primary _ _ _ _, BitVec.and_zero⟩
theorem beq (rs rt : Reg) (imm : Imm16) : Statement (.beq rs rt imm) := ⟨packI_primary _ _ _ _, BitVec.and_zero⟩
theorem bne (rs rt : Reg) (imm : Imm16) : Statement (.bne rs rt imm) := ⟨packI_primary _ _ _ _, BitVec.and_zero⟩
theorem blez (rs : Reg) (imm : Imm16) : Statement (.blez rs imm) := ⟨packI_primary _ _ _ _, packI_ignores_rt _ _ _⟩
theorem bgtz (rs : Reg) (imm : Imm16) : Statement (.bgtz rs imm) := ⟨packI_primary _ _ _ _, packI_ignores_rt _ _ _⟩
theorem bltz (rs : Reg) (imm : Imm16) : Statement (.bltz rs imm) := ⟨packI_regimm _ _ _ _, BitVec.and_zero⟩
theorem bgez (rs : Reg) (imm : Imm16) : Statement (.bgez rs imm) := ⟨packI_regimm _ _ _ _, BitVec.and_zero⟩
theorem j (target : Target26) : Statement (.j target) := ⟨packJ_primary _ _, BitVec.and_zero⟩
theorem jal (target : Target26) : Statement (.jal target) := ⟨packJ_primary _ _, BitVec.and_zero⟩
theorem jr (rs : Reg) : Statement (.jr rs) := ⟨packR_special _ _ _ _ _, packR_ignores_rt_rd_shamt _ _⟩
theorem jalr (rd rs : Reg) : Statement (.jalr rd rs) := ⟨packR_special _ _ _ _ _, packR_ignores_rt_shamt _ _ _⟩
theorem syscall : Statement (.syscall) := ⟨packR_special _ _ _ _ _, rfl⟩

end Sys2Proof.Laws.RowMatch
end

