-- ==== Sys2Proof/Laws/Shapes.lean ====
section
/-! SUPPORT. From the answer of `exec` to the shape of a completed instruction: one lemma per shape, cited
by the statements about results and frames. -/

namespace Sys2Proof.Machine

/-- What a committed transaction leaves besides the architectural state and memory (R41). -/
theorem committed_commit (s : State) (a : Arch) (w : Option PendingWrite) (h : Bool) :
    Committed s (committedTxn s a w h).commit where
  unified := rfl
  counted := rfl
  faultRecord := ⟨rfl, rfl, rfl, rfl⟩
  illegalRecord := ⟨by simp [committedTxn], by simp [committedTxn, Txn.recordsIllegal],
    by simp [committedTxn, Txn.recordsIllegal]⟩
  params := rfl
  image := rfl

/-- What taking a fault leaves (R243). -/
theorem faultTaken_takeFault (s : State) (e : Raise) (w : Word) :
    FaultTaken s (takeFault s e w) e.cause e.addr w where
  current := rfl
  next := rfl
  memory _ := rfl
  notCounted := rfl
  faultCause := rfl
  faultPc := rfl
  faultAddr := rfl
  faultWord := rfl
  status := rfl
  illegalRecord := ⟨rfl, rfl, rfl⟩
  params := rfl
  image := rfl

/-- Reading a register after a commit that wrote one. -/
theorem writesRegister_commit (s : State) (hu : s.Unified) (rd : Reg) (v pc : Word) :
    WritesRegister s (committedTxn s (if hardwired s rd then { s.next with pc := pc }
      else { s.next with pc := pc, x := s.next.x.set rd.val v }) none false).commit rd v := by
  have hx : s.current.x = s.next.x := by rw [show s.current = s.next from hu]
  by_cases hw : hardwired s rd = true
  · rw [if_pos hw]
    have hc : (committedTxn s { s.next with pc := pc } none false).commit.current.x = s.current.x := hx.symm
    refine ⟨?_, fun r _ => ?_, fun _ => hc⟩
    · rw [if_pos hw]
      exact if_pos hw
    · show (if hardwired s r then _ else s.next.x[r.val]) = _
      rw [State.readX, hx]
  · rw [if_neg hw]
    refine ⟨?_, fun r hr => ?_, fun h => absurd h hw⟩
    · rw [if_neg hw]
      show (if hardwired s rd then _ else (s.next.x.set rd.val v)[rd.val]) = v
      rw [if_neg hw]
      simp
    · show (if hardwired s r then _ else (s.next.x.set rd.val v)[r.val]) = _
      have := Arch.getElem_setX s.next rd r v
      rw [Arch.setX_x, if_neg hr] at this
      rw [this, State.readX, hx]

/-- HI and LO after a commit that wrote a register. -/
theorem sameHiLo_commit (s : State) (hu : s.Unified) (rd : Reg) (v pc : Word) :
    SameHiLo s (committedTxn s (if hardwired s rd then { s.next with pc := pc }
      else { s.next with pc := pc, x := s.next.x.set rd.val v }) none false).commit := by
  have h : s.current = s.next := hu
  unfold SameHiLo
  split <;> simp [committedTxn, h]

/-- An instruction whose meaning is one register write (R120). -/
theorem setsRegister_of_exec {i : Instr} {s : State} {rd : Reg} {v : Word} (hu : s.Unified)
    (h : exec i s = .next ((Txn.start s).writeX rd v).commit) : SetsRegister i s rd v := by
  rw [start_writeX] at h
  refine ⟨_, h, writesRegister_commit s hu rd v _, sameHiLo_commit s hu rd v _, ?_, fun _ => rfl, rfl,
    committed_commit s _ _ _⟩
  show Arch.pc (ite _ _ _) = _
  split <;> rfl

/-- An instruction whose meaning is a link and a jump (R208, R210). -/
theorem linksAndGoesTo_of_exec {i : Instr} {s : State} {rd : Reg} {v pc : Word} (hu : s.Unified)
    (h : exec i s = .next (((Txn.start s).writeX rd v).writePc pc).commit) : LinksAndGoesTo i s rd v pc := by
  rw [start_link] at h
  refine ⟨_, h, writesRegister_commit s hu rd v _, sameHiLo_commit s hu rd v _, ?_, fun _ => rfl, rfl,
    committed_commit s _ _ _⟩
  show Arch.pc (ite _ _ _) = _
  split <;> rfl

/-- An instruction whose meaning writes HI and LO (R160). -/
theorem setsHiLo_of_exec {i : Instr} {s : State} {hi lo : Word} (hu : s.Unified)
    (h : exec i s = .next (committedTxn s { pc := s.current.pc + 4#32, x := s.next.x, hi := hi, lo := lo }
      none false).commit) : SetsHiLo i s hi lo := by
  refine ⟨_, h, ?_, rfl, rfl, rfl, fun _ => rfl, rfl, committed_commit s _ _ _⟩
  show s.next.x = s.current.x
  rw [show s.current = s.next from hu]

/-- An instruction whose meaning writes pc alone (R200, R207). -/
theorem goesTo_of_exec {i : Instr} {s : State} {pc : Word} (hu : s.Unified)
    (h : exec i s = .next (committedTxn s { s.next with pc := pc } none false).commit) : GoesTo i s pc := by
  have hs : s.current = s.next := hu
  refine ⟨_, h, ?_, ?_, rfl, fun _ => rfl, rfl, committed_commit s _ _ _⟩
  · show s.next.x = s.current.x
    rw [hs]
  · show s.next.hi = s.current.hi ∧ s.next.lo = s.current.lo
    rw [hs]
    exact ⟨rfl, rfl⟩

/-- A store whose access passes the check (R66, R181). -/
theorem storesBytes_of_exec {i : Instr} {s : State} {addr v : Word} {n : Nat} (hu : s.Unified)
    (hm : s.mem.wf = true) (hal : addr.toNat % n = 0) (hmap : mappedTest s.params addr = true)
    (h : exec i s = perform s fun t => t.memWrite addr n v) : StoresBytes i s addr n v := by
  have hs : s.current = s.next := hu
  obtain ⟨r, off, hc, -, -, hcell⟩ := check_ok s.params addr n .store hal hmap
  have he : exec i s = .next (committedTxn s { s.next with pc := s.current.pc + 4#32 }
      (some { cell := addr.toNat, n := n, value := v }) false).commit := by
    rw [h]
    refine perform_ok s _ _ ?_
    simp [Txn.memWrite, hc, hcell, committedTxn]
  refine ⟨_, he, ?_, ?_, rfl, fun k hk => ?_, fun a ha => ?_, rfl, committed_commit s _ _ _⟩
  · show s.next.x = s.current.x
    rw [hs]
  · show s.next.hi = s.current.hi ∧ s.next.lo = s.current.lo
    rw [hs]
    exact ⟨rfl, rfl⟩
  · show (s.mem.write addr.toNat v n).byte _ = _
    rw [Memory.byte_write _ _ _ _ _ hm, if_pos (by omega), Nat.add_sub_cancel_left]
    rfl
  · show (s.mem.write addr.toNat v n).byte _ = _
    rw [Memory.byte_write _ _ _ _ _ hm, if_neg ha]

/-- A meaning that takes a fault (R243). -/
theorem faultsWith_of_exec {i : Instr} {s : State} {f : Fault} {addr : Word}
    (h : exec i s = .next (takeFault s { cause := f, addr := addr } (wordAtPc s))) :
    FaultsWith i s f addr :=
  ⟨_, h, faultTaken_takeFault s { cause := f, addr := addr } _⟩

end Sys2Proof.Machine
end

