-- ==== Sys2Proof/Laws/Step.lean ====
section
/-! SUPPORT. What a step can do, said once (spec/10_state.md R40): take the fault R241 and R244 give for
it, commit a decoded instruction, or commit an unrecognized encoding. -/

namespace Sys2Proof.Machine

/-- Aligned and mapped, pc fetches the word that stands there. -/
theorem fetches_read32 (s : State) (ha : s.current.pc.toNat % 4 = 0)
    (hm : mappedTest s.params s.current.pc = true) : Fetches s (s.mem.read32 s.current.pc.toNat) where
  aligned := ha
  mapped := hm
  word k hk := by
    have h := byteOf_wordOfBytes (s.mem.byte s.current.pc.toNat) (s.mem.byte (s.current.pc.toNat + 1))
      (s.mem.byte (s.current.pc.toNat + 2)) (s.mem.byte (s.current.pc.toNat + 3))
    obtain rfl | rfl | rfl | rfl : k = 0 ∨ k = 1 ∨ k = 2 ∨ k = 3 := by omega
    · exact h.1.symm
    · exact h.2.1.symm
    · exact h.2.2.1.symm
    · exact h.2.2.2.symm

/-- A fetched word is the one that stands at pc. -/
theorem read32_of_fetches (s : State) (w : Word) (h : Fetches s w) : s.mem.read32 s.current.pc.toNat = w :=
  Memory.read32_of_bytes s.mem _ w h.word

/-- A step whose word decodes is the instruction's transaction (R40). -/
theorem step_of_fetches (s : State) (w : Word) (hr : s.status = .running) (hf : Fetches s w) :
    step s = match decodeWord w with
      | .ok i => exec i s
      | .error _ => execUnrecognized s := by
  cases hd : decodeWord w <;> simp only [step, hr, fetch_of_fetches s w hf, hd]

/-- The transaction of an unrecognized encoding (R232). -/
def unrecognizedTxn (s : State) : Txn :=
  { st := { s with next := { s.next with pc := s.current.pc + 4#32 } }
    pendingWrite := none
    halt := false
    illegal := true }

theorem execUnrecognized_eq (s : State) : execUnrecognized s = .next (unrecognizedTxn s).commit := rfl

/-- The three things a step can do when the status is RUNNING. -/
inductive StepAnswers (s : State) : Prop where
  | fault (f : Fault) (addr w : Word) (hf : stepFault s = some (f, addr, w))
      (h : step s = .next (takeFault s { cause := f, addr := addr } w))
  | instruction (w : Word) (i : Instr) (a : Arch) (pw : Option PendingWrite) (hn : stepFault s = none)
      (hw : Fetches s w) (hd : decodeWord w = .ok i) (he : ExecEffect i s a pw)
      (hx : exec i s = step s)
      (h : step s = .next (committedTxn s a pw (decide (i = .syscall))).commit)
  | unrecognized (w : Word) (e : Reject) (hn : stepFault s = none) (hw : Fetches s w)
      (hd : decodeWord w = .error e) (h : step s = .next (unrecognizedTxn s).commit)

theorem step_cases (s : State) (hr : s.status = .running) : StepAnswers s := by
  obtain ⟨hn, ha, hm, -⟩ | ⟨f, hsome, hc⟩ := check_cases s.params s.current.pc 4 .fetch
  · have hfetch := fetches_read32 s ha hm
    have hstep := step_of_fetches s _ hr hfetch
    have hn' : accessFault s.params s.current.pc 4 .fetchMisaligned .fetchUnmapped = none := hn
    cases hd : decodeWord (s.mem.read32 s.current.pc.toNat) with
    | error e =>
      rw [hd] at hstep
      exact .unrecognized _ e (by simp [stepFault, hn', hd]) hfetch hd hstep
    | ok i =>
      rw [hd] at hstep
      obtain ⟨f, addr, hf, he⟩ | ⟨hf, a, pw, heff, he⟩ := exec_cases i s
      · refine .fault f addr _ (by simp [stepFault, hn', hd, hf]; rfl) (hstep.trans he)
      · exact .instruction _ i a pw (by simp [stepFault, hn', hd, hf]) hfetch hd heff hstep.symm
          (hstep.trans he)
  · have hs' : accessFault s.params s.current.pc 4 .fetchMisaligned .fetchUnmapped = some (f, s.current.pc) :=
      hsome
    refine .fault f s.current.pc 0#32 (by simp [stepFault, hs']) ?_
    simp only [step, hr, fetch, memRead32, hc]

/-- Outside RUNNING a step changes nothing (R276). -/
theorem step_not_running (s : State) (h : s.status ≠ .running) : step s = .next s := by
  unfold step
  split
  · contradiction
  · rfl
  · rfl

end Sys2Proof.Machine
end

