-- ==== Sys2Proof/Tests/Slice0.lean ====
section
/-! SUPPORT. The package's own tests: well-formedness, decoding, one step on a small state, and a witness
for the hypotheses of every statement that has any. The expected results of the step tests are the rows of
spec/95_test_vectors.md named in their comments; the words of the decode tests are written out from R90 and
R101 to R103. -/

namespace Sys2Proof.Tests
open Sys2Proof Sys2Proof.Machine

/-! ### Well-formedness (R8, R272) -/

/-- Parameters with one change to the default map. -/
def withRegions (rs : List Region) : Params := { r0Hardwired := false, regions := rs }

theorem test_default_params_wf : Params.default.wf = true := by decide

/-- (a) overlap by one word. -/
theorem test_refuses_overlap :
    regionsApart [⟨.text, 0x00400000#32, 0x1000⟩, ⟨.data, 0x00400FFC#32, 0x1000⟩] = false ∧
    regionsApart [⟨.text, 0x00400000#32, 0x1000⟩, ⟨.data, 0x00401000#32, 0x1000⟩] = true ∧
    (withRegions (⟨.other 0, 0x100FFFFC#32, 8⟩ :: defaultRegions)).wf = false := by decide

/-- (b) a base or size that is no multiple of 4, and an empty region. -/
theorem test_refuses_unaligned_or_empty :
    regionsAligned [⟨.text, 0x00400002#32, 0x1000⟩] = false ∧
    regionsAligned [⟨.text, 0x00400000#32, 0x1002⟩] = false ∧
    regionsAligned [⟨.text, 0x00400000#32, 0⟩] = false ∧
    regionsAligned [⟨.text, 0x00400000#32, 4⟩] = true ∧
    (withRegions (⟨.other 0, 0x20000001#32, 4⟩ :: defaultRegions)).wf = false := by decide

/-- (c) a region past the top of the address space, and one that ends at it. -/
theorem test_refuses_wrapping :
    regionsInSpace [⟨.stack, 0xFFFFFFFC#32, 8⟩] = false ∧
    regionsInSpace [⟨.stack, 0xFFFFFFFC#32, 4⟩] = true ∧
    (withRegions (⟨.other 0, 0xFFFFFFFC#32, 8⟩ :: defaultRegions)).wf = false := by decide

/-- (d) no region named text, and two. -/
theorem test_refuses_no_or_two_texts :
    oneTextRegion [⟨.data, 0x10000000#32, 0x00100000⟩] = false ∧
    (withRegions (⟨.text, 0x20000000#32, 4⟩ :: defaultRegions)).wf = false := by decide

/-- (e) the scenario's word outside every region, or only half inside one. -/
theorem test_refuses_unmapped_scenario_word :
    mapsScenarioWord [⟨.text, 0x00400000#32, 0x00100000⟩] = false ∧
    mapsScenarioWord [⟨.data, 0x10010000#32, 4⟩] = true ∧
    mapsScenarioWord [⟨.data, 0x10000000#32, 0x10002⟩] = false ∧
    (withRegions [⟨.text, 0x00400000#32, 0x00100000⟩]).wf = false := by decide

/-- An image of the text region's size fits, one word more does not (VF11, VF12). -/
theorem test_image_size_limit :
    (withRegions [⟨.text, 0x00400000#32, 8⟩]).imageFits [0#32, 0#32] = true ∧
    (withRegions [⟨.text, 0x00400000#32, 8⟩]).imageFits [0#32, 0#32, 0#32] = false ∧
    loadProgram [0#32, 0#32, 0#32] (State.initialized (withRegions [⟨.text, 0x00400000#32, 8⟩])) =
      (State.initialized (withRegions [⟨.text, 0x00400000#32, 8⟩]), .loadError) := by decide

/-! ### Decoding -/

/-- R90, R101 to R103: the fields written out, op first. -/
theorem test_decode_arithmetic :
    decodeWord 0b000000_10001_11110_00101_00000_100000#32 = .ok (.add 5 17 30) ∧
    decodeWord 0b000000_00001_00010_11111_00000_100001#32 = .ok (.addu 31 1 2) ∧
    decodeWord 0b000000_11110_10001_01001_00000_100010#32 = .ok (.sub 9 30 17) ∧
    decodeWord 0b000000_01000_00100_00010_00000_100011#32 = .ok (.subu 2 8 4) ∧
    decodeWord 0b001000_00110_11001_1000000000000001#32 = .ok (.addi 25 6 0x8001#16) ∧
    decodeWord 0b001001_11101_11101_1111111111111000#32 = .ok (.addiu 29 29 0xFFF8#16) := by decide

/-- R90, R101 to R103: the fields written out, op first. -/
theorem test_decode_bitwise :
    decodeWord 0b000000_00111_01000_00110_00000_100100#32 = .ok (.and 6 7 8) ∧
    decodeWord 0b000000_00111_01000_00110_00000_100101#32 = .ok (.or 6 7 8) ∧
    decodeWord 0b000000_00111_01000_00110_00000_100110#32 = .ok (.xor 6 7 8) ∧
    decodeWord 0b000000_00111_01000_00110_00000_100111#32 = .ok (.nor 6 7 8) ∧
    decodeWord 0b001100_00111_00110_1000000000000001#32 = .ok (.andi 6 7 0x8001#16) ∧
    decodeWord 0b001101_00000_00110_1000000000000000#32 = .ok (.ori 6 0 0x8000#16) ∧
    decodeWord 0b001110_00111_00110_1111111111111111#32 = .ok (.xori 6 7 0xFFFF#16) := by decide

/-- R90, R101 to R103: the fields written out, op first. -/
theorem test_decode_shifts_compares_lui :
    decodeWord 0b000000_00000_01010_01001_11111_000000#32 = .ok (.sll 9 10 31) ∧
    decodeWord 0b000000_00000_01010_01001_00001_000010#32 = .ok (.srl 9 10 1) ∧
    decodeWord 0b000000_00000_01010_01001_10000_000011#32 = .ok (.sra 9 10 16) ∧
    decodeWord 0b000000_01100_01101_01011_00000_101010#32 = .ok (.slt 11 12 13) ∧
    decodeWord 0b001010_01100_01011_1111111111111111#32 = .ok (.slti 11 12 0xFFFF#16) ∧
    decodeWord 0b001111_00000_00001_0001000000000001#32 = .ok (.lui 1 0x1001#16) := by decide

/-- R90, R101 to R103: the fields written out, op first. -/
theorem test_decode_multiply_divide_hilo :
    decodeWord 0b000000_00010_00011_00000_00000_011000#32 = .ok (.mult 2 3) ∧
    decodeWord 0b000000_00010_00011_00000_00000_011001#32 = .ok (.multu 2 3) ∧
    decodeWord 0b000000_00010_00011_00000_00000_011010#32 = .ok (.div 2 3) ∧
    decodeWord 0b000000_00010_00011_00000_00000_011011#32 = .ok (.divu 2 3) ∧
    decodeWord 0b000000_00000_00000_00100_00000_010000#32 = .ok (.mfhi 4) ∧
    decodeWord 0b000000_00100_00000_00000_00000_010001#32 = .ok (.mthi 4) ∧
    decodeWord 0b000000_00000_00000_00100_00000_010010#32 = .ok (.mflo 4) ∧
    decodeWord 0b000000_00100_00000_00000_00000_010011#32 = .ok (.mtlo 4) := by decide

/-- R90, R101 to R103: the fields written out, op first. -/
theorem test_decode_loads_stores :
    decodeWord 0b100011_00001_00011_1111111111111100#32 = .ok (.lw 3 1 0xFFFC#16) ∧
    decodeWord 0b100001_00001_00011_0000000000000010#32 = .ok (.lh 3 1 2#16) ∧
    decodeWord 0b100000_00001_00011_0000000000000011#32 = .ok (.lb 3 1 3#16) ∧
    decodeWord 0b101011_00001_00010_0000000000000100#32 = .ok (.sw 2 1 4#16) ∧
    decodeWord 0b101001_00001_00010_0000000000000010#32 = .ok (.sh 2 1 2#16) ∧
    decodeWord 0b101000_00001_00010_0000000000000011#32 = .ok (.sb 2 1 3#16) := by decide

/-- R90, R101 to R103: the fields written out, op first. -/
theorem test_decode_control_halt :
    decodeWord 0b000100_00001_00010_0000000000000011#32 = .ok (.beq 1 2 3#16) ∧
    decodeWord 0b000101_00001_00010_1111111111111110#32 = .ok (.bne 1 2 0xFFFE#16) ∧
    decodeWord 0b000110_00001_00000_0000000000000101#32 = .ok (.blez 1 5#16) ∧
    decodeWord 0b000111_00001_00000_0000000000000101#32 = .ok (.bgtz 1 5#16) ∧
    decodeWord 0b000001_00001_00000_1111111111111111#32 = .ok (.bltz 1 0xFFFF#16) ∧
    decodeWord 0b000001_00001_00001_1000000000000000#32 = .ok (.bgez 1 0x8000#16) ∧
    decodeWord 0b000010_11111111111111111111111111#32 = .ok (.j 0x3FFFFFF#26) ∧
    decodeWord 0b000011_00000100000000000001000000#32 = .ok (.jal 0x0100040#26) ∧
    decodeWord 0b000000_11111_00000_00000_00000_001000#32 = .ok (.jr 31) ∧
    decodeWord 0b000000_00110_00000_00101_00000_001001#32 = .ok (.jalr 5 6) ∧
    decodeWord 0b000000_00000_00000_00000_00000_001100#32 = .ok .syscall := by decide

/-- R104: a word of each unrecognized kind, at the ends of each range, and the words next to them. -/
theorem test_decode_rejects :
    decodeWord 0x00000001#32 = .error (.specialFunct 0x01#6) ∧
    decodeWord 0x0000002B#32 = .error (.specialFunct 0x2B#6) ∧
    decodeWord 0x04020000#32 = .error (.regimmRt 0x02#5) ∧
    decodeWord 0x04100004#32 = .error (.regimmRt 0x10#5) ∧
    decodeWord 0x2C000000#32 = .error (.primaryOpcode 0x0B#6) ∧
    decodeWord 0x40000000#32 = .error (.primaryOpcode 0x10#6) ∧
    decodeWord 0x7C000000#32 = .error (.primaryOpcode 0x1F#6) ∧
    decodeWord 0x88000000#32 = .error (.primaryOpcode 0x22#6) ∧
    decodeWord 0x90230000#32 = .error (.primaryOpcode 0x24#6) ∧
    decodeWord 0x9C000000#32 = .error (.primaryOpcode 0x27#6) ∧
    decodeWord 0xA8000000#32 = .error (.primaryOpcode 0x2A#6) ∧
    decodeWord 0xB0000000#32 = .error (.primaryOpcode 0x2C#6) ∧
    decodeWord 0xFC000000#32 = .error (.primaryOpcode 0x3F#6) ∧
    decode [0x20#8, 0x20#8, 0x43#8] = .error .truncated := by decide

/-- The bytes of a word stand lowest address first (R67). -/
theorem test_decode_bytes :
    decode [0x20#8, 0x20#8, 0x43#8, 0x00#8, 0xAA#8] = .ok (.add 4 2 3, [0xAA#8]) := by decide

/-- A row's word as the host numbers it, and that word run as the first instruction after reset. -/
theorem test_table_words :
    decodeTableWord 32 0x04010000 = some (.bgez 0 0#16) ∧
    decodeTableWord 32 0x0000000C = some .syscall ∧
    decodeTableWord 32 0xFC000000 = none ∧
    (stepState (State.reset.withFetchWord 32 0x0000000C)).status = .stopped ∧
    (stepState (State.reset.withFetchWord 32 0x3C010001)).readX 1 = 0x00010000#32 := by decide

/-! ### One step -/

/-- The reset state with pc, some registers, and the word to run at pc. -/
def testState (pc w : Word) (regs : List (Reg × Word)) : State :=
  let s := State.reset
  let s := { s with current := { s.current with pc := pc }, next := { s.next with pc := pc } }
  (regs.foldl (fun s p => pokeX p.1 p.2 s) s).withFetchWord 32 w.toNat

/-- A state with a word in memory. -/
def withWord (addr : Nat) (w : Word) (s : State) : State := { s with mem := s.mem.write addr w 4 }

/-- A state with R0_HARDWIRED true. -/
def withHardwiredZero (s : State) : State := { s with params := { s.params with r0Hardwired := true } }

/-- The state after one step passes a check. -/
def stepsTo (s : State) (check : State → Bool) : Bool := check (stepState s)

/-- VA2. -/
theorem test_add_wraps :
    stepsTo (testState 0x00400000#32 0x00432020#32 [(2, 0x7FFFFFFF#32), (3, 0x00000001#32)])
      (fun t => t.readX 4 == 0x80000000#32) = true := by decide

/-- VA8. -/
theorem test_add_source_is_destination :
    stepsTo (testState 0x00400000#32 0x00421020#32 [(2, 0x40000000#32)])
      (fun t => t.readX 2 == 0x80000000#32) = true := by decide

/-- VA4. -/
theorem test_addu_wraps :
    stepsTo (testState 0x00400000#32 0x00432021#32 [(2, 0xFFFFFFFF#32), (3, 0x00000002#32)])
      (fun t => t.readX 4 == 0x00000001#32) = true := by decide

/-- VA5. -/
theorem test_sub_borrows :
    stepsTo (testState 0x00400000#32 0x00432022#32 [(2, 0x00000000#32), (3, 0x00000001#32)])
      (fun t => t.readX 4 == 0xFFFFFFFF#32) = true := by decide

/-- VA6. -/
theorem test_sub_wraps :
    stepsTo (testState 0x00400000#32 0x00432022#32 [(2, 0x80000000#32), (3, 0x00000001#32)])
      (fun t => t.readX 4 == 0x7FFFFFFF#32) = true := by decide

/-- VA7. -/
theorem test_subu_wraps :
    stepsTo (testState 0x00400000#32 0x00432023#32 [(2, 0x00000003#32), (3, 0x00000005#32)])
      (fun t => t.readX 4 == 0xFFFFFFFE#32) = true := by decide

/-- VA10. -/
theorem test_addi_sign_extends :
    stepsTo (testState 0x00400000#32 0x2062FFFF#32 [(3, 0x00000000#32)])
      (fun t => t.readX 2 == 0xFFFFFFFF#32) = true := by decide

/-- VA11. -/
theorem test_addi_wraps :
    stepsTo (testState 0x00400000#32 0x20620001#32 [(3, 0x7FFFFFFF#32)])
      (fun t => t.readX 2 == 0x80000000#32) = true := by decide

/-- VA12. -/
theorem test_addiu_sign_extends :
    stepsTo (testState 0x00400000#32 0x24A5FFFF#32 [(5, 0x00000000#32)])
      (fun t => t.readX 5 == 0xFFFFFFFF#32) = true := by decide

/-- VA14. -/
theorem test_and_bits :
    stepsTo (testState 0x00400000#32 0x00E83024#32 [(7, 0xF0F0F0F0#32), (8, 0x0FF00FF0#32)])
      (fun t => t.readX 6 == 0x00F000F0#32) = true := by decide

/-- VA15. -/
theorem test_or_bits :
    stepsTo (testState 0x00400000#32 0x00E83025#32 [(7, 0xF0F0F0F0#32), (8, 0x0FF00FF0#32)])
      (fun t => t.readX 6 == 0xFFF0FFF0#32) = true := by decide

/-- VA16. -/
theorem test_xor_bits :
    stepsTo (testState 0x00400000#32 0x00E83026#32 [(7, 0xF0F0F0F0#32), (8, 0x0FF00FF0#32)])
      (fun t => t.readX 6 == 0xFF00FF00#32) = true := by decide

/-- VA18. -/
theorem test_nor_bits :
    stepsTo (testState 0x00400000#32 0x00E83027#32 [(7, 0xF0F0F0F0#32), (8, 0x0FF00FF0#32)])
      (fun t => t.readX 6 == 0x000F000F#32) = true := by decide

/-- VA19. -/
theorem test_andi_zero_extends :
    stepsTo (testState 0x00400000#32 0x30E68001#32 [(7, 0xFFFFFFFF#32)])
      (fun t => t.readX 6 == 0x00008001#32) = true := by decide

/-- VA20. -/
theorem test_ori_zero_extends :
    stepsTo (testState 0x00400000#32 0x34068000#32 [])
      (fun t => t.readX 6 == 0x00008000#32) = true := by decide

/-- VA21. -/
theorem test_xori_zero_extends :
    stepsTo (testState 0x00400000#32 0x38E6FFFF#32 [(7, 0xFFFFFFFF#32)])
      (fun t => t.readX 6 == 0xFFFF0000#32) = true := by decide

/-- VA22. -/
theorem test_sll_drops_high_bits :
    stepsTo (testState 0x00400000#32 0x000A4900#32 [(10, 0x12345678#32)])
      (fun t => t.readX 9 == 0x23456780#32) = true := by decide

/-- VA23. -/
theorem test_sll_by_31 :
    stepsTo (testState 0x00400000#32 0x000A4FC0#32 [(10, 0x00000003#32)])
      (fun t => t.readX 9 == 0x80000000#32) = true := by decide

/-- VA25. -/
theorem test_srl_fills_zero :
    stepsTo (testState 0x00400000#32 0x000A4902#32 [(10, 0x87654321#32)])
      (fun t => t.readX 9 == 0x08765432#32) = true := by decide

/-- VA27. -/
theorem test_sra_fills_sign :
    stepsTo (testState 0x00400000#32 0x000A4903#32 [(10, 0x87654321#32)])
      (fun t => t.readX 9 == 0xF8765432#32) = true := by decide

/-- VA28. -/
theorem test_sra_by_31 :
    stepsTo (testState 0x00400000#32 0x000A4FC3#32 [(10, 0x80000000#32)])
      (fun t => t.readX 9 == 0xFFFFFFFF#32) = true := by decide

/-- VA31. -/
theorem test_slt_is_signed :
    stepsTo (testState 0x00400000#32 0x018D582A#32 [(12, 0x00000000#32), (13, 0xFFFFFFFF#32)])
      (fun t => t.readX 11 == 0x00000000#32) = true := by decide

/-- VA32. -/
theorem test_slt_extremes :
    stepsTo (testState 0x00400000#32 0x018D582A#32 [(12, 0x80000000#32), (13, 0x7FFFFFFF#32)])
      (fun t => t.readX 11 == 0x00000001#32) = true := by decide

/-- VA34. -/
theorem test_slti_is_signed :
    stepsTo (testState 0x00400000#32 0x298BFFFF#32 [(12, 0x80000000#32)])
      (fun t => t.readX 11 == 0x00000001#32) = true := by decide

/-- VA38. -/
theorem test_lui_clears_low_half :
    stepsTo (testState 0x00400000#32 0x3C01FFFF#32 [(1, 0x00001234#32)])
      (fun t => t.readX 1 == 0xFFFF0000#32) = true := by decide

/-- VB2. -/
theorem test_mult_most_negative :
    stepsTo (testState 0x00400000#32 0x00430018#32 [(2, 0x80000000#32), (3, 0x80000000#32)])
      (fun t => t.current.hi == 0x40000000#32 && t.current.lo == 0x00000000#32) = true := by decide

/-- VB1. -/
theorem test_mult_negative :
    stepsTo (testState 0x00400000#32 0x00430018#32 [(2, 0xFFFFFFFF#32), (3, 0x00000002#32)])
      (fun t => t.current.hi == 0xFFFFFFFF#32 && t.current.lo == 0xFFFFFFFE#32) = true := by decide

/-- VB6. -/
theorem test_multu_largest :
    stepsTo (testState 0x00400000#32 0x00430019#32 [(2, 0xFFFFFFFF#32), (3, 0xFFFFFFFF#32)])
      (fun t => t.current.hi == 0xFFFFFFFE#32 && t.current.lo == 0x00000001#32) = true := by decide

/-- VB9. -/
theorem test_div_truncates_toward_zero :
    stepsTo (testState 0x00400000#32 0x0043001A#32 [(2, 0xFFFFFFF9#32), (3, 0x00000002#32)])
      (fun t => t.current.hi == 0xFFFFFFFF#32 && t.current.lo == 0xFFFFFFFD#32) = true := by decide

/-- VB10. -/
theorem test_div_negative_divisor :
    stepsTo (testState 0x00400000#32 0x0043001A#32 [(2, 0x00000007#32), (3, 0xFFFFFFFE#32)])
      (fun t => t.current.hi == 0x00000001#32 && t.current.lo == 0xFFFFFFFD#32) = true := by decide

/-- VB17. -/
theorem test_divu_is_unsigned :
    stepsTo (testState 0x00400000#32 0x0043001B#32 [(2, 0xFFFFFFF9#32), (3, 0x00000002#32)])
      (fun t => t.current.hi == 0x00000001#32 && t.current.lo == 0x7FFFFFFC#32) = true := by decide

/-- VB18. -/
theorem test_divu_never_overflows :
    stepsTo (testState 0x00400000#32 0x0043001B#32 [(2, 0x80000000#32), (3, 0xFFFFFFFF#32)])
      (fun t => t.current.hi == 0x80000000#32 && t.current.lo == 0x00000000#32) = true := by decide

/-- VB22. -/
theorem test_mfhi_copies :
    stepsTo (pokeHi 0xDEADBEEF#32 (testState 0x00400000#32 0x00002010#32 []))
      (fun t => t.readX 4 == 0xDEADBEEF#32) = true := by decide

/-- VB23. -/
theorem test_mflo_copies :
    stepsTo (pokeLo 0x01234567#32 (testState 0x00400000#32 0x00002012#32 []))
      (fun t => t.readX 4 == 0x01234567#32) = true := by decide

/-- VB24. -/
theorem test_mthi_copies :
    stepsTo (testState 0x00400000#32 0x00800011#32 [(4, 0xCAFEF00D#32)])
      (fun t => t.current.hi == 0xCAFEF00D#32) = true := by decide

/-- VB25. -/
theorem test_mtlo_copies :
    stepsTo (testState 0x00400000#32 0x00800013#32 [(4, 0x0BADCAFE#32)])
      (fun t => t.current.lo == 0x0BADCAFE#32) = true := by decide

/-- VC2. -/
theorem test_lw_negative_offset :
    stepsTo (withWord 0x10010000 0xCAFEBABE#32 (testState 0x00400000#32 0x8C23FFFC#32 [(1, 0x10010004#32)]))
      (fun t => t.readX 3 == 0xCAFEBABE#32) = true := by decide

/-- VC3. -/
theorem test_lw_into_its_base :
    stepsTo (withWord 0x10010000 0x00000042#32 (testState 0x00400000#32 0x8C210000#32 [(1, 0x10010000#32)]))
      (fun t => t.readX 1 == 0x00000042#32) = true := by decide

/-- VC5. -/
theorem test_lh_sign_extends :
    stepsTo (withWord 0x10010000 0x80017FFF#32 (testState 0x00400000#32 0x84230002#32 [(1, 0x10010000#32)]))
      (fun t => t.readX 3 == 0xFFFF8001#32) = true := by decide

/-- VC9. -/
theorem test_lb_sign_extends :
    stepsTo (withWord 0x10010000 0x80FF7F01#32 (testState 0x00400000#32 0x80230003#32 [(1, 0x10010000#32)]))
      (fun t => t.readX 3 == 0xFFFFFF80#32) = true := by decide

/-- VC10. -/
theorem test_sw_little_endian :
    stepsTo (testState 0x00400000#32 0xAC220004#32 [(1, 0x10010000#32), (2, 0xAABBCCDD#32)])
      (fun t => t.mem.read32 0x10010004 == 0xAABBCCDD#32) = true := by decide

/-- VC11. -/
theorem test_sh_upper_half :
    stepsTo (withWord 0x10010000 0x11223344#32 (testState 0x00400000#32 0xA4220002#32 [(1, 0x10010000#32), (2, 0xAABBCCDD#32)]))
      (fun t => t.mem.read32 0x10010000 == 0xCCDD3344#32) = true := by decide

/-- VC13. -/
theorem test_sb_top_byte :
    stepsTo (withWord 0x10010000 0x11223344#32 (testState 0x00400000#32 0xA0220003#32 [(1, 0x10010000#32), (2, 0xAABBCCDD#32)]))
      (fun t => t.mem.read32 0x10010000 == 0xDD223344#32) = true := by decide

/-- VD1. -/
theorem test_beq_taken :
    stepsTo (testState 0x00400010#32 0x10220003#32 [(1, 0x00000007#32), (2, 0x00000007#32)])
      (fun t => t.current.pc == 0x00400020#32) = true := by decide

/-- VD3. -/
theorem test_beq_to_itself :
    stepsTo (testState 0x00400010#32 0x1000FFFF#32 [])
      (fun t => t.current.pc == 0x00400010#32) = true := by decide

/-- VD4. -/
theorem test_bne_backward :
    stepsTo (testState 0x00400010#32 0x1422FFFE#32 [(1, 0x00000001#32), (2, 0x00000002#32)])
      (fun t => t.current.pc == 0x0040000C#32) = true := by decide

/-- VD6. -/
theorem test_blez_zero :
    stepsTo (testState 0x00400010#32 0x18200005#32 [(1, 0x00000000#32)])
      (fun t => t.current.pc == 0x00400028#32) = true := by decide

/-- VD8. -/
theorem test_blez_positive :
    stepsTo (testState 0x00400010#32 0x18200005#32 [(1, 0x00000001#32)])
      (fun t => t.current.pc == 0x00400014#32) = true := by decide

/-- VD9. -/
theorem test_bgtz_positive :
    stepsTo (testState 0x00400010#32 0x1C200005#32 [(1, 0x00000001#32)])
      (fun t => t.current.pc == 0x00400028#32) = true := by decide

/-- VD11. -/
theorem test_bgtz_most_negative :
    stepsTo (testState 0x00400010#32 0x1C200005#32 [(1, 0x80000000#32)])
      (fun t => t.current.pc == 0x00400014#32) = true := by decide

/-- VD12. -/
theorem test_bltz_negative :
    stepsTo (testState 0x00400010#32 0x0420FFFF#32 [(1, 0xFFFFFFFF#32)])
      (fun t => t.current.pc == 0x00400010#32) = true := by decide

/-- VD13. -/
theorem test_bltz_zero :
    stepsTo (testState 0x00400010#32 0x0420FFFF#32 [(1, 0x00000000#32)])
      (fun t => t.current.pc == 0x00400014#32) = true := by decide

/-- VD14. -/
theorem test_bgez_farthest_forward :
    stepsTo (testState 0x00400010#32 0x04217FFF#32 [(1, 0x00000000#32)])
      (fun t => t.current.pc == 0x00420010#32) = true := by decide

/-- VD15. -/
theorem test_bgez_farthest_backward :
    stepsTo (testState 0x00400010#32 0x04218000#32 [(1, 0x7FFFFFFF#32)])
      (fun t => t.current.pc == 0x003E0014#32) = true := by decide

/-- VD17. -/
theorem test_j_target :
    stepsTo (testState 0x00400000#32 0x08100040#32 [])
      (fun t => t.current.pc == 0x00400100#32) = true := by decide

/-- VD19. -/
theorem test_jal_links_pc_plus_8 :
    stepsTo (testState 0x00400008#32 0x0C100040#32 [])
      (fun t => t.readX 31 == 0x00400010#32 && t.current.pc == 0x00400100#32) = true := by decide

/-- VD21. -/
theorem test_jr_register :
    stepsTo (testState 0x00400000#32 0x03E00008#32 [(31, 0x00400010#32)])
      (fun t => t.current.pc == 0x00400010#32) = true := by decide

/-- VD25. -/
theorem test_jalr_links_pc_plus_8 :
    stepsTo (testState 0x00400010#32 0x00C02809#32 [(6, 0x00400200#32)])
      (fun t => t.readX 5 == 0x00400018#32 && t.current.pc == 0x00400200#32) = true := by decide

/-- VD26. -/
theorem test_jalr_same_register :
    stepsTo (testState 0x00400010#32 0x00C03009#32 [(6, 0x00400200#32)])
      (fun t => t.readX 6 == 0x00400018#32 && t.current.pc == 0x00400200#32) = true := by decide

/-- VE1. -/
theorem test_syscall_stops :
    stepsTo (testState 0x0040000C#32 0x0000000C#32 [(2, 0x00000005#32)])
      (fun t => t.current.pc == 0x00400010#32 && t.status == .stopped) = true := by decide

/-- VE2. -/
theorem test_syscall_ignores_code :
    stepsTo (testState 0x00400000#32 0x03FFFFCC#32 [])
      (fun t => t.current.pc == 0x00400004#32 && t.status == .stopped) = true := by decide

/-- VB15, VC19, VC25: the fault record, and that HI, LO, pc and icount stay. -/
theorem test_faults_are_recorded :
    stepsTo (pokeHi 0x11#32 (testState 0x00400000#32 0x0043001A#32 [(2, 5#32)]))
      (fun t => t.status == .faulted && t.faultCause == 7#8 && t.faultPc == 0x00400000#32 &&
        t.faultAddr == 0#32 && t.faultWord == 0x0043001A#32 && t.current.hi == 0x11#32 &&
        t.current.pc == 0x00400000#32 && t.icount == 0#64) = true ∧
    stepsTo (testState 0x00400000#32 0x8C230001#32 [(1, 0x20000000#32)])
      (fun t => t.faultCause == 3#8 && t.faultAddr == 0x20000001#32) = true ∧
    stepsTo (testState 0x00400000#32 0x8C230008#32 [(1, 0xFFFFFFFC#32)])
      (fun t => t.faultCause == 4#8 && t.faultAddr == 0x00000004#32) = true := by decide

/-- VB16, VC21, VC23: DIV_OVERFLOW, STORE_MISALIGNED and STORE_UNMAPPED. -/
theorem test_more_faults :
    stepsTo (testState 0x00400000#32 0x0043001A#32 [(2, 0x80000000#32), (3, 0xFFFFFFFF#32)])
      (fun t => t.faultCause == 8#8) = true ∧
    stepsTo (testState 0x00400000#32 0xAC220000#32 [(1, 0x10010002#32), (2, 5#32)])
      (fun t => t.faultCause == 5#8 && t.mem.byte 0x10010002 == 0#8) = true ∧
    stepsTo (testState 0x00400000#32 0xA0220000#32 [(2, 5#32)])
      (fun t => t.faultCause == 6#8 && t.faultAddr == 0#32) = true := by decide

/-- VD24: a misaligned and unmapped pc is FETCH_MISALIGNED, with FAULT_WORD 0. -/
theorem test_fetch_fault :
    stepsTo (testState 0x00000002#32 0#32 [])
      (fun t => t.status == .faulted && t.faultCause == 1#8 && t.faultAddr == 0x00000002#32 &&
        t.faultWord == 0#32) = true := by decide

/-- VE3, VE9: the first unrecognized word is recorded and the second is not. -/
theorem test_unrecognized_is_recorded_once :
    stepsTo (testState 0x00400000#32 0xFC000000#32 [])
      (fun t => t.status == .running && t.ill && t.illPc == 0x00400000#32 && t.illWord == 0xFC000000#32 &&
        t.current.pc == 0x00400004#32 && t.icount == 1#64) = true ∧
    stepsTo { testState 0x00400004#32 0xFC000001#32 [] with ill := true, illPc := 0x00400000#32,
                                                            illWord := 0xFC000000#32 }
      (fun t => t.ill && t.illPc == 0x00400000#32 && t.illWord == 0xFC000000#32) = true := by decide

/-- VA40 to VA43, VD27: register 0 with each value of R0_HARDWIRED. -/
theorem test_register_zero :
    stepsTo (testState 0x00400000#32 0x20000007#32 []) (fun t => t.readX 0 == 7#32) = true ∧
    stepsTo (withHardwiredZero (testState 0x00400000#32 0x20000007#32 []))
      (fun t => t.readX 0 == 0#32 && t.icount == 1#64) = true ∧
    stepsTo (testState 0x00400000#32 0x00002020#32 [(0, 9#32)]) (fun t => t.readX 4 == 0x12#32) = true ∧
    stepsTo (withHardwiredZero (testState 0x00400000#32 0x00002020#32 [(0, 9#32)]))
      (fun t => t.readX 4 == 0#32) = true ∧
    stepsTo (withHardwiredZero (testState 0x00400010#32 0x00C00009#32 [(6, 0x00400200#32)]))
      (fun t => t.readX 0 == 0#32 && t.current.pc == 0x00400200#32) = true := by decide

/-- VF4, VF7, VF10: a step outside RUNNING, a poke outside RUNNING, and readWord. -/
theorem test_host_accessors :
    (hostStep { State.reset with status := .stopped }).2 = .notRunning ∧
    (pokeX 5 0x77#32 { State.reset with status := .stopped }).readX 5 = 0x77#32 ∧
    readWord (testState 0x00400008#32 0x00432020#32 []) 0x00400008#32 = .word 0x00432020#32 ∧
    readWord State.reset 0#32 = .invalidAddress ∧ readWord State.reset 0x00400002#32 = .invalidAddress := by
  decide

/-- VF14, VF15: reset after a fault and after an unrecognized word, with the image reloaded. -/
theorem test_reset_reloads :
    (hostReset (stepState (State.launch Params.default [0x8C030000#32]))).status = .running ∧
    (hostReset (stepState (State.launch Params.default [0x8C030000#32]))).faultCause = 0#8 ∧
    (hostReset (stepState (State.launch Params.default [0xFC000000#32]))).ill = false ∧
    (hostReset (stepState (State.launch Params.default [0xFC000000#32]))).mem.read32 0x00400000 =
      0xFC000000#32 := by decide

/-! ### Witnesses

`witness_<Name>` gives, for the statement `Obligations.<Name>`, concrete states and operands that meet its
hypotheses together, one for each clause. -/

/-- `add $4, $2, $3` at TEXT_BASE. -/
def addState : State := testState 0x00400000#32 0x00432020#32 [(2, 5#32), (3, 10#32)]
/-- `sw $2, 4($1)` at TEXT_BASE (VC10). -/
def storeState : State := testState 0x00400000#32 0xAC220004#32 [(1, 0x10010000#32), (2, 0xAABBCCDD#32)]
/-- `sw $2, 0($1)` over the next word of text (VC27). -/
def selfModifyingState : State := testState 0x00400000#32 0xAC220000#32 [(1, 0x00400004#32), (2, 0x0000000C#32)]
/-- `sw $2, 0($1)` over its own word. -/
def overwritingState : State := testState 0x00400000#32 0xAC220000#32 [(1, 0x00400000#32), (2, 0x0000000C#32)]
/-- An unrecognized word at TEXT_BASE (VE3). -/
def unrecognizedState : State := testState 0x00400000#32 0xFC000000#32 []
/-- `jr $31` with a misaligned pc after it (VD22), and the pc it goes to. -/
def misalignedState : State := testState 0x00400012#32 0#32 []
/-- The pc one word past the text region. -/
def unmappedState : State := testState 0x00500000#32 0#32 []
/-- `syscall` at TEXT_BASE. -/
def haltState : State := testState 0x00400000#32 0x0000000C#32 []
/-- `beq $0, $0, -1` at TEXT_BASE (VD3). -/
def selfBranchState : State := testState 0x00400000#32 0x1000FFFF#32 []
/-- A stopped machine. -/
def stoppedState : State := { State.reset with status := .stopped }
/-- A base register that holds an address. -/
def baseState (addr : Word) : State := testState 0x00400000#32 0#32 [(1, addr), (2, 0x80#32)]

theorem mapped_first : Mapped Params.default 0x10000000 := by unfold Mapped; decide
theorem mapped_last : Mapped Params.default 0x100FFFFF := by unfold Mapped; decide
theorem unmapped_past : ¬Mapped Params.default 0x10100000 := by unfold Mapped; decide

theorem fetches_add : Fetches addState 0x00432020#32 := ⟨by decide, by decide, by decide⟩
theorem fetches_store : Fetches storeState 0xAC220004#32 := ⟨by decide, by decide, by decide⟩
theorem fetches_unrecognized : Fetches unrecognizedState 0xFC000000#32 := ⟨by decide, by decide, by decide⟩
theorem fetches_halt : Fetches haltState 0x0000000C#32 := ⟨by decide, by decide, by decide⟩
theorem fetches_selfBranch : Fetches selfBranchState 0x1000FFFF#32 := ⟨by decide, by decide, by decide⟩

/-- The invariant of a state whose memory is given by a list, from checks of its fields. -/
theorem inv_of_checks (s : State) (hp : s.params.wf = true) (hu : s.Unified) (hm : s.mem.wf = true)
    (hall : ∀ c ∈ s.mem, Mapped s.params c.1) (hi : s.image = []) (hr : s.status = .running)
    (hf : s.faultCause = 0#8 ∧ s.faultPc = 0#32 ∧ s.faultAddr = 0#32 ∧ s.faultWord = 0#32)
    (hl : s.illPc = 0#32 ∧ s.illWord = 0#32) : Inv s where
  paramsWf := hp
  unified := hu
  memoryWf := hm
  onlyMappedBytes a h := by
    obtain ⟨c, hc, rfl⟩ := Memory.listed_of_byte_ne_zero _ a h
    exact hall c hc
  imageFits := by simp [hi, Params.imageFits]
  causeInRange := by simp [hf.1]
  faultedIff := by simp [hr, hf.1]
  noFaultRecord _ := hf.2
  noIllegalRecord _ := hl

theorem inv_storeState : Inv storeState :=
  inv_of_checks _ (by decide) rfl (by decide) (by unfold Mapped; decide) rfl rfl (by decide) (by decide)
theorem inv_overwritingState : Inv overwritingState :=
  inv_of_checks _ (by decide) rfl (by decide) (by unfold Mapped; decide) rfl rfl (by decide) (by decide)

theorem witness_OpcodeTableRowsDecideTheInstruction :
    decodeWord 0x00432020#32 = .ok (.add 4 2 3) ∧ OpcodeRow.special 0x20#32 ∈ opcodeTable ∧
    (OpcodeRow.special 0x20#32).hits 0x00432020#32 := ⟨by decide, by decide, rfl⟩

theorem witness_UnrecognizedWordsRunAsNoOps :
    unrecognizedState.Unified ∧ unrecognizedState.status = .running ∧
    Fetches unrecognizedState 0xFC000000#32 ∧ decodeRecord 0xFC000000#32 = .unrecognized 0xFC000000#32 ∧
    unrecognizedState.ill = false ∧ Fetches { unrecognizedState with ill := true } 0xFC000000#32 :=
  ⟨rfl, by decide, fetches_unrecognized, by decide, by decide, ⟨by decide, by decide, by decide⟩⟩

theorem witness_StepRunsTheDecodedInstruction :
    addState.status = .running ∧ addState.current.pc.toNat % 4 = 0 ∧
    Mapped addState.params addState.current.pc.toNat ∧
    decode [addState.mem.byte addState.current.pc.toNat, addState.mem.byte (addState.current.pc.toNat + 1),
      addState.mem.byte (addState.current.pc.toNat + 2), addState.mem.byte (addState.current.pc.toNat + 3)] =
      .ok (.add 4 2 3, []) := ⟨by decide, by decide, by unfold Mapped; decide, by decide⟩

theorem witness_FetchChecksThePcAndJumpsDoNot :
    addState.Unified ∧ misalignedState.status = .running ∧ misalignedState.current.pc.toNat % 4 ≠ 0 ∧
    unmappedState.status = .running ∧ unmappedState.current.pc.toNat % 4 = 0 ∧
    ¬Mapped unmappedState.params unmappedState.current.pc.toNat ∧ selfBranchState.current.pc.toNat % 4 = 0 ∧
    (∀ rs, Instr.beq 0 0 0xFFFF#16 ≠ .jr rs) ∧ (∀ rd rs, Instr.beq 0 0 0xFFFF#16 ≠ .jalr rd rs) ∧
    ∃ t, exec (.beq 0 0 0xFFFF#16) selfBranchState = .next t :=
  ⟨rfl, by decide, by decide, by decide, by decide, by unfold Mapped; decide, by decide, by simp, by simp, _,
    rfl⟩

theorem witness_StepReportsItsResult :
    stoppedState.status ≠ .running ∧ addState.status = .running ∧ (stepState addState).status = .running ∧
    (stepState haltState).status = .stopped ∧ (stepState misalignedState).status = .faulted := by decide

theorem witness_StepKeepsTheInvariant : ∃ t, Inv storeState ∧ step storeState = .next t :=
  ⟨_, inv_storeState, rfl⟩

theorem witness_HostOperationsKeepTheInvariant : Params.default.wf = true ∧ Inv storeState :=
  ⟨by decide, inv_storeState⟩

theorem witness_FaultsArePreciseAndTerminal :
    misalignedState.status = .running ∧ ∃ t, step misalignedState = .next t ∧ t.status = .faulted :=
  ⟨by decide, _, rfl, by decide⟩

theorem witness_FaultsAreExactlyThoseTabulated :
    misalignedState.status = .running ∧
    stepFault misalignedState = some (.fetchMisaligned, 0x00400012#32, 0#32) ∧
    stepFault unmappedState = some (.fetchUnmapped, 0x00500000#32, 0#32) ∧
    addState.status = .running ∧ stepFault addState = none := by decide

theorem witness_OnlyCommittedStepsAreCounted :
    (∃ t, step stoppedState = .next t ∧ stoppedState.status ≠ .running) ∧
    (∃ t, step misalignedState = .next t ∧ misalignedState.status = .running ∧ t.status = .faulted) ∧
    (∃ t, step addState = .next t ∧ addState.status = .running ∧ t.status ≠ .faulted) :=
  ⟨⟨_, rfl, by decide⟩, ⟨_, rfl, by decide, by decide⟩, ⟨_, rfl, by decide, by decide⟩⟩

theorem witness_StatusChangesOnlyFromRunning :
    (∃ t, step stoppedState = .next t ∧ stoppedState.status ≠ .running) ∧
    (∃ t, step haltState = .next t ∧ haltState.status = .running ∧ t.status = .stopped) ∧
    (∃ t, step misalignedState = .next t ∧ t.status = .faulted) ∧
    (∃ t, step addState = .next t ∧ t.status = .running) :=
  ⟨⟨_, rfl, by decide⟩, ⟨_, rfl, by decide, by decide⟩, ⟨_, rfl, by decide⟩, ⟨_, rfl, by decide⟩⟩

theorem witness_OnlyTheListedInstructionsWriteRegisters :
    ∃ t, addState.Unified ∧ exec (.add 4 2 3) addState = .next t ∧ destination (.add 4 2 3) ≠ some 31 :=
  ⟨_, rfl, rfl, by decide⟩

theorem witness_HiLoAreReachedOnlyByTheirInstructions :
    (∃ t, addState.Unified ∧ exec (.add 4 2 3) addState = .next t) ∧ writesHi (.add 4 2 3) = false ∧
    writesLo (.mthi 4) = false ∧ writesHi (.mtlo 4) = false ∧ (∀ rd, Instr.mflo 4 ≠ .mfhi rd) ∧
    (∃ t, exec (.mflo 4) addState = .next t) ∧ (∀ rd, Instr.mfhi 4 ≠ .mflo rd) ∧
    (∃ t, exec (.mfhi 4) addState = .next t) :=
  ⟨⟨_, rfl, rfl⟩, rfl, rfl, rfl, by simp, ⟨_, rfl⟩, by simp, ⟨_, rfl⟩⟩

theorem witness_OnlyStoresChangeMemory :
    storeState.mem.wf = true ∧ (∃ t, exec (.sw 2 1 4#16) storeState = .next t) ∧
    storeTarget storeState (.sw 2 1 4#16) = some (0x10010004#32, 4) ∧
    storeTarget storeState (.add 4 2 3) = none ∧ (∃ t, exec (.add 4 2 3) storeState = .next t) :=
  ⟨by decide, ⟨_, rfl⟩, by decide, rfl, ⟨_, rfl⟩⟩

theorem witness_DefaultAdvanceIsFour :
    (∃ t, isBranchOrJump (.add 4 2 3) = false ∧ instrFault addState (.add 4 2 3) = none ∧
      exec (.add 4 2 3) addState = .next t) ∧
    (∃ t, unrecognizedState.status = .running ∧ Fetches unrecognizedState 0xFC000000#32 ∧
      decodeWord 0xFC000000#32 = .error (.primaryOpcode 0x3F#6) ∧ step unrecognizedState = .next t) :=
  ⟨⟨_, rfl, rfl, rfl⟩, ⟨_, by decide, fetches_unrecognized, by decide, rfl⟩⟩

theorem witness_ImageIsReachedOnlyByTheLoader :
    State.reset.params.imageFits [0x0000000C#32] = true ∧
    (withRegions [⟨.text, 0x00400000#32, 8⟩]).imageFits [0#32, 0#32, 0#32] = false ∧
    ∃ t, step addState = .next t :=
  ⟨by decide, by decide, _, rfl⟩

theorem witness_IllegalRecordIsSticky :
    (∃ t, step { unrecognizedState with ill := true } = .next t ∧ t.ill = true) ∧
    (∃ t, step unrecognizedState = .next t ∧ unrecognizedState.ill = false ∧ t.ill = true) ∧
    (∃ t, step addState = .next t ∧ addState.ill = false ∧ t.ill = false) :=
  ⟨⟨_, rfl, by decide⟩, ⟨_, rfl, by decide, by decide⟩, ⟨_, rfl, by decide, by decide⟩⟩

theorem witness_ArbiterRoutesEachAccessToOneRegion :
    Params.default.wf = true ∧ lookup Params.default 0x10100000#32 = none ∧ (0x10100000#32).toNat % 4 = 0 ∧
    (0x100FFFFE#32).toNat % 4 ≠ 0 ∧ (0x100FFFFE#32).toNat % 2 = 0 ∧ (0x100FFFFF#32).toNat % 1 = 0 ∧
    (0x100FFFFC#32).toNat % 4 = 0 ∧
    lookup Params.default 0x100FFFFC#32 = some (⟨.data, 0x10000000#32, 0x00100000⟩, 0x000FFFFC) ∧
    lookup Params.default 0x100FFFFF#32 = some (⟨.data, 0x10000000#32, 0x00100000⟩, 0x000FFFFF) := by decide

/-- The one hypothesis of the statements about a result: the two copies are unified. -/
theorem witness_unified :
    addState.Unified ∧ (withHardwiredZero addState).Unified ∧ storeState.Unified := ⟨rfl, rfl, rfl⟩

theorem witness_AddAndSubtractWrapAndNeverTrap :
    addState.Unified ∧ fieldOp 0x00432020#32 = 0x00#6 ∧ fieldFunct 0x00432020#32 = 0x20#6 ∧
    fieldFunct 0x00432021#32 = 0x21#6 ∧ fieldFunct 0x00432022#32 = 0x22#6 ∧
    fieldFunct 0x00432023#32 = 0x23#6 := ⟨rfl, by decide⟩

theorem witness_AddImmediatesSignExtendAndWrap :
    addState.Unified ∧ fieldOp 0x20020005#32 = 0x08#6 ∧ fieldOp 0x24A5FFFF#32 = 0x09#6 := ⟨rfl, by decide⟩

theorem witness_BitwiseRegistersCombineBits :
    addState.Unified ∧ fieldOp 0x00E83024#32 = 0x00#6 ∧ fieldFunct 0x00E83024#32 = 0x24#6 ∧
    fieldFunct 0x00E83025#32 = 0x25#6 ∧ fieldFunct 0x00E83026#32 = 0x26#6 ∧
    fieldFunct 0x00E83027#32 = 0x27#6 := ⟨rfl, by decide⟩

theorem witness_BitwiseImmediatesZeroExtend :
    addState.Unified ∧ fieldOp 0x30E68001#32 = 0x0C#6 ∧ fieldOp 0x34068000#32 = 0x0D#6 ∧
    fieldOp 0x38E6FFFF#32 = 0x0E#6 := ⟨rfl, by decide⟩

theorem witness_ShiftsScaleByPowersOfTwo :
    addState.Unified ∧ fieldFunct 0x000A4FC0#32 = 0x00#6 ∧ fieldFunct 0x000A4FC2#32 = 0x02#6 ∧
    fieldFunct 0x000A4FC3#32 = 0x03#6 ∧ amount 0x000A4FC3#32 = 31 ∧ amount 0x000A4800#32 = 0 := ⟨rfl, by decide⟩

theorem witness_SetOnLessThanComparesSigned :
    addState.Unified ∧ fieldFunct 0x018D582A#32 = 0x2A#6 ∧ fieldOp 0x298BFFFF#32 = 0x0A#6 := ⟨rfl, by decide⟩

theorem witness_LoadUpperImmediateFillsTheUpperHalf :
    addState.Unified ∧ fieldOp 0x3C01FFFF#32 = 0x0F#6 := ⟨rfl, by decide⟩

theorem witness_MultiplyLeavesTheProductInHiLo :
    addState.Unified ∧ fieldFunct 0x00430018#32 = 0x18#6 ∧ fieldFunct 0x00430019#32 = 0x19#6 := ⟨rfl, by decide⟩

/-- Operands of DIV: 0x80000000 by 1, by 0 and by -1. -/
def divideState (divisor : Word) : State := testState 0x00400000#32 0x0043001A#32 [(2, 0x80000000#32), (3, divisor)]

theorem witness_SignedDivideTruncatesOrFaults :
    (divideState 1#32).Unified ∧ (divideState 1#32).readX 3 ≠ 0#32 ∧
    ¬((divideState 1#32).readX 2 = 0x80000000#32 ∧ (divideState 1#32).readX 3 = 0xFFFFFFFF#32) ∧
    (divideState 0#32).readX 3 = 0#32 ∧ (divideState 0xFFFFFFFF#32).readX 2 = 0x80000000#32 ∧
    (divideState 0xFFFFFFFF#32).readX 3 = 0xFFFFFFFF#32 ∧ fieldFunct 0x0043001A#32 = 0x1A#6 := ⟨rfl, by decide⟩

theorem witness_UnsignedDivideOrFaults :
    (divideState 0xFFFFFFFF#32).Unified ∧ (divideState 0xFFFFFFFF#32).readX 3 ≠ 0#32 ∧
    (divideState 0#32).readX 3 = 0#32 ∧ fieldFunct 0x0043001B#32 = 0x1B#6 := ⟨rfl, by decide⟩

theorem witness_MultiplyAndDivideLaws :
    (divideState 1#32).readX 3 ≠ 0#32 ∧
    ¬((divideState 1#32).readX 2 = 0x80000000#32 ∧ (divideState 1#32).readX 3 = 0xFFFFFFFF#32) ∧
    (divideState 0#32).readX 3 = 0#32 ∧ (divideState 0xFFFFFFFF#32).readX 2 = 0x80000000#32 ∧
    (divideState 0xFFFFFFFF#32).readX 3 = 0xFFFFFFFF#32 := by decide

theorem witness_MovesFromHiLoCopy :
    addState.Unified ∧ fieldFunct 0x00002010#32 = 0x10#6 ∧ fieldFunct 0x00002012#32 = 0x12#6 := ⟨rfl, by decide⟩

theorem witness_MovesToHiLoCopy :
    addState.Unified ∧ fieldFunct 0x00800011#32 = 0x11#6 ∧ fieldFunct 0x00800013#32 = 0x13#6 := ⟨rfl, by decide⟩

theorem witness_EffectiveAddressWrapsAndKeepsTheBase :
    storeState.Unified ∧ (∃ t, exec (.sw 2 1 4#16) storeState = .next t) ∧
    (∃ t, exec (.sh 2 1 4#16) storeState = .next t) ∧ (∃ t, exec (.sb 2 1 4#16) storeState = .next t) ∧
    (2 : Reg) ≠ 1 ∧ (∃ t, exec (.lw 2 1 4#16) storeState = .next t) ∧
    (∃ t, exec (.lh 2 1 4#16) storeState = .next t) ∧ (∃ t, exec (.lb 2 1 4#16) storeState = .next t) :=
  ⟨rfl, ⟨_, rfl⟩, ⟨_, rfl⟩, ⟨_, rfl⟩, by decide, ⟨_, rfl⟩, ⟨_, rfl⟩, ⟨_, rfl⟩⟩

/-- Addresses of each clause of a word access: the last word of data, a misaligned one, the first word
past data. -/
theorem witness_LoadWordReadsOrFaults :
    fieldOp 0x8C23FFFC#32 = 0x23#6 ∧ (baseState 0x100FFFFC#32).Unified ∧
    effectiveAddress ((baseState 0x100FFFFC#32).readX 1) 0#16 = 0x100FFFFC#32 ∧
    (0x100FFFFC#32).toNat % 4 = 0 ∧ Mapped (baseState 0x100FFFFC#32).params (0x100FFFFC#32).toNat ∧
    effectiveAddress ((baseState 0x100FFFFC#32).readX 1) 2#16 = 0x100FFFFE#32 ∧
    (0x100FFFFE#32).toNat % 4 ≠ 0 ∧
    effectiveAddress ((baseState 0x100FFFFC#32).readX 1) 4#16 = 0x10100000#32 ∧
    (0x10100000#32).toNat % 4 = 0 ∧ ¬Mapped (baseState 0x100FFFFC#32).params (0x10100000#32).toNat :=
  ⟨by decide, rfl, by decide, by decide, by unfold Mapped; decide, by decide, by decide, by decide, by decide,
    by unfold Mapped; decide⟩

theorem witness_SubwordLoadsSignExtendOrFault :
    fieldOp 0x84230002#32 = 0x21#6 ∧ fieldOp 0x80230003#32 = 0x20#6 ∧ (baseState 0x100FFFFE#32).Unified ∧
    effectiveAddress ((baseState 0x100FFFFE#32).readX 1) 0#16 = 0x100FFFFE#32 ∧
    (0x100FFFFE#32).toNat % 2 = 0 ∧ Mapped (baseState 0x100FFFFE#32).params (0x100FFFFE#32).toNat ∧
    effectiveAddress ((baseState 0x100FFFFE#32).readX 1) 1#16 = 0x100FFFFF#32 ∧
    (0x100FFFFF#32).toNat % 2 ≠ 0 ∧ Mapped (baseState 0x100FFFFE#32).params (0x100FFFFF#32).toNat ∧
    effectiveAddress ((baseState 0x100FFFFE#32).readX 1) 2#16 = 0x10100000#32 ∧
    (0x10100000#32).toNat % 2 = 0 ∧ ¬Mapped (baseState 0x100FFFFE#32).params (0x10100000#32).toNat :=
  ⟨by decide, by decide, rfl, by decide, by decide, by unfold Mapped; decide, by decide, by decide,
    by unfold Mapped; decide, by decide, by decide, by unfold Mapped; decide⟩

theorem witness_StoresWriteTheirBytesOrFault :
    fieldOp 0xAC220004#32 = 0x2B#6 ∧ fieldOp 0xA4220002#32 = 0x29#6 ∧ fieldOp 0xA0220003#32 = 0x28#6 ∧
    (baseState 0x100FFFFC#32).Unified ∧ (baseState 0x100FFFFC#32).mem.wf = true ∧
    (0x100FFFFC#32).toNat % 4 = 0 ∧ Mapped (baseState 0x100FFFFC#32).params (0x100FFFFC#32).toNat ∧
    effectiveAddress ((baseState 0x100FFFFC#32).readX 1) 0#16 = 0x100FFFFC#32 ∧
    (0x100FFFFE#32).toNat % 4 ≠ 0 ∧ (0x100FFFFF#32).toNat % 2 ≠ 0 ∧
    Mapped (baseState 0x100FFFFC#32).params (0x100FFFFF#32).toNat ∧
    ¬Mapped (baseState 0x100FFFFC#32).params (0x10100000#32).toNat ∧ (0x10100000#32).toNat % 4 = 0 :=
  ⟨by decide, by decide, by decide, rfl, by decide, by decide, by unfold Mapped; decide, by decide, by decide,
    by decide, by unfold Mapped; decide, by unfold Mapped; decide, by decide⟩

theorem witness_LoadReturnsTheStoredValue :
    storeState.mem.wf = true ∧
    (∃ t, exec (.sw 2 1 4#16) storeState = .next t ∧ t.Unified ∧ t.params = storeState.params ∧
      effectiveAddress (t.readX 1) 4#16 = effectiveAddress (storeState.readX 1) 4#16) ∧
    instrFault storeState (.sw 2 1 4#16) = none ∧
    (∃ t, exec (.sh 2 1 6#16) storeState = .next t ∧ t.Unified) ∧
    instrFault storeState (.sh 2 1 6#16) = none ∧
    (∃ t, exec (.sb 2 1 7#16) storeState = .next t ∧ t.Unified) ∧
    instrFault storeState (.sb 2 1 7#16) = none :=
  ⟨by decide, ⟨_, rfl, rfl, rfl, by decide⟩, by decide, ⟨_, rfl, rfl⟩, by decide, ⟨_, rfl, rfl⟩, by decide⟩

theorem witness_MixedWidthAccessesAreLittleEndian :
    Inv storeState ∧ (0x10010000#32).toNat % 4 = 0 ∧ Mapped storeState.params (0x10010000#32).toNat ∧
    effectiveAddress (storeState.readX 1) 0#16 = 0x10010000#32 + BitVec.ofNat 32 0 ∧
    effectiveAddress (storeState.readX 1) 2#16 = 0x10010000#32 + BitVec.ofNat 32 2 ∧
    effectiveAddress (storeState.readX 1) 3#16 = 0x10010000#32 + BitVec.ofNat 32 3 ∧
    storeState.current.pc.toNat % 4 = 0 ∧ Mapped storeState.params storeState.current.pc.toNat ∧
    instrFault storeState (.sw 2 1 4#16) = none ∧ ∃ t, exec (.sw 2 1 4#16) storeState = .next t :=
  ⟨inv_storeState, by decide, by unfold Mapped; decide, by decide, by decide, by decide, by decide,
    by unfold Mapped; decide, by decide, _, rfl⟩

/-- A state whose base register holds pc, for the fetch clause. -/
theorem witness_MixedWidthAccessesAreLittleEndian_fetch :
    Inv overwritingState ∧ overwritingState.current.pc.toNat % 4 = 0 ∧
    Mapped overwritingState.params overwritingState.current.pc.toNat ∧
    effectiveAddress (overwritingState.readX 1) 0#16 = overwritingState.current.pc + BitVec.ofNat 32 0 :=
  ⟨inv_overwritingState, by decide, by unfold Mapped; decide, by decide⟩

theorem witness_FetchSeesStoredInstructions :
    selfModifyingState.current.pc.toNat % 4 = 0 ∧
    Mapped selfModifyingState.params selfModifyingState.current.pc.toNat ∧
    selfModifyingState.mem.wf = true ∧ instrFault selfModifyingState (.sw 2 1 0#16) = none ∧
    selfModifyingState.readX 2 = 0x0000000C#32 ∧ decodeWord 0x0000000C#32 = .ok .syscall ∧
    ∃ t, exec (.sw 2 1 0#16) selfModifyingState = .next t ∧ t.params = selfModifyingState.params ∧
      t.current.pc = effectiveAddress (selfModifyingState.readX 1) 0#16 ∧ t.status = .running :=
  ⟨by decide, by unfold Mapped; decide, by decide, by decide, by decide, by decide, _, rfl, rfl, by decide,
    by decide⟩

theorem witness_FetchSeesStoredInstructions_overwriting :
    Inv overwritingState ∧ overwritingState.status = .running ∧ Fetches overwritingState 0xAC220000#32 ∧
    decodeWord 0xAC220000#32 = .ok (.sw 2 1 0#16) ∧
    effectiveAddress (overwritingState.readX 1) 0#16 = overwritingState.current.pc :=
  ⟨inv_overwritingState, by decide, ⟨by decide, by decide, by decide⟩, by decide, by decide⟩

theorem witness_EqualityBranchesGoWhereStated :
    addState.Unified ∧ fieldOp 0x10220003#32 = 0x04#6 ∧ fieldOp 0x1422FFFE#32 = 0x05#6 ∧
    addState.readX 2 ≠ addState.readX 3 ∧
    BitVec.ofInt 32 ((0x00400000#32).toNat + 4 + (0x8000#16).toInt * 4) = 0x003E0004#32 := ⟨rfl, by decide⟩

theorem witness_SignBranchesGoWhereStated :
    addState.Unified ∧ fieldOp 0x18200005#32 = 0x06#6 ∧ fieldOp 0x1C200005#32 = 0x07#6 ∧
    fieldOp 0x0420FFFF#32 = 0x01#6 ∧ fieldRt 0x0420FFFF#32 = 0x00#5 ∧ fieldRt 0x04217FFF#32 = 0x01#5 :=
  ⟨rfl, by decide⟩

theorem witness_JumpsStayInTheirBlock :
    addState.Unified ∧ fieldOp 0x0BFFFFFF#32 = 0x02#6 ∧ fieldOp 0x0C100040#32 = 0x03#6 ∧
    BitVec.ofNat 32 ((0x00400000#32).toNat / 2 ^ 28 * 2 ^ 28 + (0x3FFFFFF#26).toNat * 4) = 0x0FFFFFFC#32 :=
  ⟨rfl, by decide⟩

theorem witness_RegisterJumpsGoToTheOldValue :
    addState.Unified ∧ fieldFunct 0x03E00008#32 = 0x08#6 ∧ fieldFunct 0x00C02809#32 = 0x09#6 := ⟨rfl, by decide⟩

theorem witness_ReturnFromCallSkipsOneWord :
    addState.Unified ∧ (∃ t, exec (.jal 0x0100040#26) addState = .next t ∧ t.Unified) ∧
    (∃ t, exec (.jalr 5 2) addState = .next t ∧ t.Unified) ∧ hardwired addState 5 = false :=
  ⟨rfl, ⟨_, rfl, rfl⟩, ⟨_, rfl, rfl⟩, rfl⟩

theorem witness_HaltStopsUnconditionally :
    haltState.Unified ∧ fieldOp 0x03FFFFCC#32 = 0x00#6 ∧ fieldFunct 0x03FFFFCC#32 = 0x0C#6 := ⟨rfl, by decide⟩

theorem witness_RegisterZeroFollowsItsParameter :
    (withHardwiredZero addState).params.r0Hardwired = true ∧ (withHardwiredZero addState).Unified ∧
    (∃ t, exec (.add 0 2 3) (withHardwiredZero addState) = .next t) ∧
    addState.params.r0Hardwired = false ∧ addState.Unified := ⟨by decide, rfl, ⟨_, rfl⟩, by decide, rfl⟩

theorem witness_LoadProgramWritesTheImageOrNothing :
    State.reset.mem.wf = true ∧ 4 * [0x20020005#32, 0x0000000C#32].length ≤ State.reset.params.textSize ∧
    (State.initialized (withRegions [⟨.text, 0x00400000#32, 8⟩])).params.textSize <
      4 * [0#32, 0#32, 0#32].length := by decide

theorem witness_LaunchIsResetAfterLoading :
    Params.default.imageFits [0x20020005#32, 0x0000000C#32] = true ∧ addState.params = Params.default :=
  ⟨by decide, rfl⟩

theorem witness_PokesSetBothCopies :
    hardwired (withHardwiredZero addState) 0 = true ∧ hardwired (withHardwiredZero addState) 1 = false ∧
    hardwired addState 0 = false := by decide

theorem witness_RunForStopsEarlyAndCountsCommits :
    stoppedState.status ≠ .running ∧ addState.status = .running := by decide

theorem witness_RunToCompletionReturnsAtMostOnce :
    RunsToCompletion haltState (stepState haltState) ∧ selfBranchState.Unified ∧
    selfBranchState.status = .running ∧ Fetches selfBranchState 0x1000FFFF#32 ∧
    decodeWord 0x1000FFFF#32 = .ok (.beq 0 0 0xFFFF#16) :=
  ⟨⟨1, rfl, by decide⟩, rfl, by decide, fetches_selfBranch, by decide⟩

theorem witness_HostReadsNeverFault :
    (0x10000000#32).toNat % 4 = 0 ∧ Mapped State.reset.params (0x10000000#32).toNat ∧
    (0x10000002#32).toNat % 4 ≠ 0 ∧ ¬Mapped State.reset.params (0x10100000#32).toNat :=
  ⟨by decide, mapped_first, by decide, unmapped_past⟩

end Sys2Proof.Tests
end

section
/-! PROOFS. Every step keeps the invariant, and register 0 under both values of R0_HARDWIRED. -/

namespace Sys2Proof.Machine

/-! ### Every step keeps the invariant (R32 to R34, R37, R60, R61) -/

/-- The codes of R241 are 1 to 8. -/
theorem Fault.code_range (f : Fault) : f.code ≠ 0#8 ∧ f.code.toNat ≤ 8 := by
  cases f <;> decide

/-- Taking a fault keeps the invariant: only the fault record and the status change (R243). -/
theorem inv_takeFault {s : State} (hs : Inv s) (e : Raise) (w : Word) : Inv (takeFault s e w) := by
  obtain ⟨hne, hle⟩ := e.cause.code_range
  exact {
    paramsWf := hs.paramsWf
    unified := rfl
    memoryWf := hs.memoryWf
    onlyMappedBytes := hs.onlyMappedBytes
    imageFits := hs.imageFits
    causeInRange := hle
    faultedIff := by simp [hne]
    noFaultRecord := fun h => absurd h hne
    noIllegalRecord := hs.noIllegalRecord }

/-- Every byte the pending write stores is mapped (R61, R66). -/
def WritesMapped (p : Params) (pw : Option PendingWrite) : Prop :=
  ∀ w, pw = some w → ∀ c, w.cell ≤ c → c < w.cell + w.n → Mapped p c

theorem writesMapped_none (p : Params) : WritesMapped p none :=
  fun _ h => absurd h (by simp)

theorem wf_applyWrite {m : Memory} (hm : m.wf = true) (pw : Option PendingWrite) :
    (applyWrite m pw).wf = true := by
  cases pw with
  | none => exact hm
  | some w => exact Memory.wf_write m w.cell w.value w.n hm

/-- A write to mapped bytes leaves nothing outside the regions. -/
theorem mapped_of_byte_applyWrite {p : Params} {m : Memory} {pw : Option PendingWrite}
    (hm : m.wf = true) (hmapped : ∀ a, m.byte a ≠ 0#8 → Mapped p a) (hpw : WritesMapped p pw)
    (a : Nat) (ha : (applyWrite m pw).byte a ≠ 0#8) : Mapped p a := by
  cases pw with
  | none => exact hmapped a ha
  | some w =>
    rw [applyWrite_some, Memory.byte_write _ _ _ _ _ hm] at ha
    by_cases hin : w.cell ≤ a ∧ a < w.cell + w.n
    · exact hpw w rfl a hin.1 hin.2
    · rw [if_neg hin] at ha
      exact hmapped a ha

/-- In a well-formed map the bases and sizes are multiples of 4 (R8 (b)). -/
theorem Params.aligned_of_wf {p : Params} (hp : p.wf = true) {r : Region} (hr : r ∈ p.regions) :
    r.base.toNat % 4 = 0 ∧ r.size % 4 = 0 := by
  simp only [Params.wf, regionsAligned, Bool.and_eq_true, List.all_eq_true, decide_eq_true_eq] at hp
  obtain ⟨⟨⟨⟨-, haligned⟩, -⟩, -⟩, -⟩ := hp
  exact (haligned r hr).1

/-- The width of a store is 1, 2 or 4 bytes (R185 to R187). -/
theorem storeTarget_width {s : State} {i : Instr} {addr : Word} {n : Nat}
    (h : storeTarget s i = some (addr, n)) : n = 1 ∨ n = 2 ∨ n = 4 := by
  cases i with
  | sw rt base imm | sh rt base imm | sb rt base imm =>
    obtain ⟨-, rfl⟩ := Prod.mk.inj (Option.some.inj h)
    decide
  | _ => nomatch h

/-- An aligned access that starts in a region ends in it (R64). -/
theorem access_within_region {p : Params} (hp : p.wf = true) {r : Region} (hr : r ∈ p.regions)
    {addr : Word} {n : Nat} (hn : n = 1 ∨ n = 2 ∨ n = 4) (hal : addr.toNat % n = 0)
    (hh : regionHolds r addr = true) : r.base.toNat ≤ addr.toNat ∧ addr.toNat + n ≤ r.limit := by
  obtain ⟨hb, hsz⟩ := Params.aligned_of_wf hp hr
  simp only [regionHolds, Bool.and_eq_true, decide_eq_true_eq] at hh
  simp only [Region.limit] at hh ⊢
  obtain rfl | rfl | rfl := hn <;> omega

/-- What an instruction stores, it stores to mapped bytes. -/
theorem ExecEffect.writesMapped {i : Instr} {s : State} {a : Arch} {pw : Option PendingWrite}
    (h : ExecEffect i s a pw) (hp : s.params.wf = true) : WritesMapped s.params pw := by
  cases ht : storeTarget s i with
  | none => rw [h.noStore ht]; exact writesMapped_none _
  | some target =>
    obtain ⟨addr, n⟩ := target
    obtain ⟨v, r, rfl, hr, hh, hal⟩ := h.store addr n ht
    obtain ⟨hlow, hhigh⟩ := access_within_region hp hr (storeTarget_width ht) hal hh
    rintro w ⟨rfl⟩ c hc hcn
    exact ⟨r, hr, hlow.trans hc, Nat.lt_of_lt_of_le hcn hhigh⟩

/-- The commit of a RUNNING machine's step keeps the invariant, whatever the step left in the next copy,
if its pending write stays in the regions (R41). -/
theorem inv_commit {s : State} (hs : Inv s) (hr : s.status = .running) (a : Arch)
    {pw : Option PendingWrite} (hpw : WritesMapped s.params pw) (halt illegal : Bool) :
    Inv (Txn.mk { s with next := a } pw halt illegal).commit := by
  have hcause : s.faultCause = 0#8 := by
    by_contra hne
    exact absurd (hr.symm.trans (hs.faultedIff.2 hne)) (by decide)
  exact {
    paramsWf := hs.paramsWf
    unified := rfl
    memoryWf := wf_applyWrite hs.memoryWf pw
    onlyMappedBytes := mapped_of_byte_applyWrite hs.memoryWf hs.onlyMappedBytes hpw
    imageFits := hs.imageFits
    causeInRange := hs.causeInRange
    faultedIff := by cases halt <;> simp [hr, hcause]
    noFaultRecord := hs.noFaultRecord
    noIllegalRecord := by
      intro h
      obtain ⟨hill, rfl⟩ : s.ill = false ∧ illegal = false := by simpa using h
      simpa [Txn.recordsIllegal] using hs.noIllegalRecord hill }

/-- Settles O12, by the three things a step of a RUNNING machine can do: take a fault, commit an
instruction, commit an unrecognized encoding. -/
theorem stepKeepsTheInvariant : Obligations.StepKeepsTheInvariant := by
  intro s t hs ht
  by_cases hr : s.status = .running
  · cases step_cases s hr with
    | fault f addr w _ h =>
      obtain rfl := Host.Outcome.next.inj (h.symm.trans ht)
      exact inv_takeFault hs _ _
    | instruction w i a pw _ _ _ heff _ h =>
      obtain rfl := Host.Outcome.next.inj (h.symm.trans ht)
      exact inv_commit hs hr a (heff.writesMapped hs.paramsWf) _ _
    | unrecognized w e _ _ _ h =>
      obtain rfl := Host.Outcome.next.inj (h.symm.trans ht)
      exact inv_commit hs hr _ (writesMapped_none _) _ _
  · obtain rfl := Host.Outcome.next.inj ((step_not_running s hr).symm.trans ht)
    exact hs

/-! ### Register 0 (R7) -/

theorem hardwired_zero (s : State) : hardwired s 0 = s.params.r0Hardwired := by
  simp [hardwired_eq]

/-- A hardwired register reads 0 (R7). -/
theorem readX_of_hardwired {s : State} {r : Reg} (h : hardwired s r = true) : s.readX r = 0#32 :=
  if_pos h

/-- A register that is not hardwired reads what it stores (R11). -/
theorem readX_of_not_hardwired {s : State} {r : Reg} (h : hardwired s r = false) :
    s.readX r = s.current.x[r.val] := by
  simp [State.readX, h]

/-- A poke of a hardwired register is discarded (R39). -/
theorem pokeX_of_hardwired {s : State} {r : Reg} (h : hardwired s r = true) (v : Word) :
    pokeX r v s = s :=
  if_pos h

/-- Any other register reads as poked (R39). -/
theorem readX_pokeX_same {s : State} {r : Reg} (h : hardwired s r = false) (v : Word) :
    (pokeX r v s).readX r = v := by
  have hpoke : pokeX r v s = { s with current := s.current.setX r v, next := s.next.setX r v } :=
    if_neg (by simp [h])
  calc
    (pokeX r v s).readX r = (s.current.setX r v).x[r.val] := by
        rw [hpoke]; exact readX_of_not_hardwired h
    _ = v := by rw [Arch.getElem_setX, if_pos rfl]

/-- No instruction changes the parameters. -/
theorem exec_params {i : Instr} {s t : State} (h : exec i s = .next t) : t.params = s.params := by
  obtain ⟨f, addr, -, he⟩ | ⟨-, a, pw, -, he⟩ := exec_cases i s <;>
    obtain rfl := Host.Outcome.next.inj (he.symm.trans h) <;> rfl

/-- No instruction changes what a hardwired register stores (R7). -/
theorem exec_getElem_of_hardwired {i : Instr} {s t : State} {r : Reg} (hw : hardwired s r = true)
    (hu : s.Unified) (h : exec i s = .next t) : t.current.x[r.val] = s.current.x[r.val] := by
  obtain ⟨f, addr, -, he⟩ | ⟨-, a, pw, heff, he⟩ := exec_cases i s <;>
    obtain rfl := Host.Outcome.next.inj (he.symm.trans h)
  · rfl
  · calc a.x[r.val] = s.next.x[r.val] := heff.discarded r hw
      _ = s.current.x[r.val] := by rw [show s.current = s.next from hu]

/-- Settles O53, by the two values of R0_HARDWIRED. -/
theorem registerZeroFollowsItsParameter : Obligations.RegisterZeroFollowsItsParameter := by
  constructor
  · intro s hp
    have hw : hardwired s 0 = true := (hardwired_zero s).trans hp
    refine ⟨readX_of_hardwired hw, pokeX_of_hardwired hw, fun i t hu h => ⟨?_, ?_⟩⟩
    · apply readX_of_hardwired
      rw [hardwired_zero, exec_params h, hp]
    · exact exec_getElem_of_hardwired hw hu h
  · intro s hp
    have hw : hardwired s 0 = false := (hardwired_zero s).trans hp
    refine ⟨readX_of_not_hardwired hw, readX_pokeX_same hw, fun rs rt hu => ?_⟩
    obtain ⟨t, ht, hwrites, -⟩ : SetsRegister (.add 0 rs rt) s 0 (s.readX rs + s.readX rt) :=
      setsRegister_of_exec hu rfl
    refine ⟨t, ht, ?_⟩
    simpa [hw] using hwrites.reads

end Sys2Proof.Machine
end

section
/-! PROOFS. What one step leaves in each piece of state (spec/10_state.md R24, R25, R30, R31, R33, R43),
the reset state (R45), and the host's pokes (R39). -/

namespace Sys2Proof.Machine

/-! ### Where a step can lead (R40, R244, R276) -/

/-- What `t` can be when the step in `s` answers `t`. -/
inductive StepTo (s : State) : State → Prop where
  | idle (hr : s.status ≠ .running) : StepTo s s
  | fault (f : Fault) (addr w : Word) (hr : s.status = .running) (hf : stepFault s = some (f, addr, w)) :
      StepTo s (takeFault s { cause := f, addr := addr } w)
  | instruction (w : Word) (i : Instr) (a : Arch) (pw : Option PendingWrite) (hr : s.status = .running)
      (hn : stepFault s = none) (hw : Fetches s w) (hd : decodeWord w = .ok i)
      (he : ExecEffect i s a pw) :
      StepTo s (committedTxn s a pw (decide (i = .syscall))).commit
  | unrecognized (w : Word) (e : Reject) (hr : s.status = .running) (hn : stepFault s = none)
      (hw : Fetches s w) (hd : decodeWord w = .error e) : StepTo s (unrecognizedTxn s).commit

theorem stepTo_of_step {s t : State} (ht : step s = .next t) : StepTo s t := by
  by_cases hr : s.status = .running
  · cases step_cases s hr with
    | fault f addr w hf h =>
      obtain rfl := Host.Outcome.next.inj (h.symm.trans ht)
      exact .fault f addr w hr hf
    | instruction w i a pw hn hw hd he _ h =>
      obtain rfl := Host.Outcome.next.inj (h.symm.trans ht)
      exact .instruction w i a pw hr hn hw hd he
    | unrecognized w e hn hw hd h =>
      obtain rfl := Host.Outcome.next.inj (h.symm.trans ht)
      exact .unrecognized w e hr hn hw hd
  · obtain rfl := Host.Outcome.next.inj ((step_not_running s hr).symm.trans ht)
    exact .idle hr

/-- A step takes the fault that R241 and R244 give for it. -/
theorem step_of_stepFault {s : State} {f : Fault} {addr w : Word} (hr : s.status = .running)
    (hf : stepFault s = some (f, addr, w)) :
    step s = .next (takeFault s { cause := f, addr := addr } w) := by
  cases step_cases s hr with
  | fault f' addr' w' hf' h =>
    obtain ⟨rfl, rfl, rfl⟩ : f = f' ∧ addr = addr' ∧ w = w' := by simpa using hf.symm.trans hf'
    exact h
  | instruction _ _ _ _ hn => exact absurd (hn.symm.trans hf) nofun
  | unrecognized _ _ hn => exact absurd (hn.symm.trans hf) nofun

/-- The step of an unrecognized encoding (R232). -/
theorem step_of_decode_error {s : State} {w : Word} {e : Reject} (hr : s.status = .running)
    (hw : Fetches s w) (hd : decodeWord w = .error e) : step s = .next (unrecognizedTxn s).commit := by
  rw [step_of_fetches s w hr hw, hd]
  rfl

/-- The step of the halt (R230). -/
theorem step_of_decode_syscall {s : State} {w : Word} (hr : s.status = .running)
    (hw : Fetches s w) (hd : decodeWord w = .ok .syscall) :
    step s = .next (committedTxn s { s.next with pc := s.current.pc + 4#32 } none true).commit := by
  rw [step_of_fetches s w hr hw, hd]
  rfl

/-- No step changes IMAGE or the parameters. -/
theorem step_image_params {s t : State} (ht : step s = .next t) :
    t.image = s.image ∧ t.params = s.params := by
  cases stepTo_of_step ht <;> exact ⟨rfl, rfl⟩

/-! ### No step reads icount or IMAGE (R31, R43) -/

/-- The state with another icount and another IMAGE, the two fields that no step reads. -/
def State.withUnread (s : State) (c : BitVec 64) (image : List Word) : State :=
  { s with icount := c, image := image }

/-- The step in progress with another icount and another IMAGE. -/
def Txn.withUnread (t : Txn) (c : BitVec 64) (image : List Word) : Txn :=
  { t with st := t.st.withUnread c image }

/-- An instruction's rule neither reads nor writes icount and IMAGE. -/
def IgnoresUnread (body : Txn → Except Raise Txn) : Prop :=
  ∀ t c image, body (t.withUnread c image) = (body t).map (·.withUnread c image)

theorem Txn.writeX_withUnread (t : Txn) (c : BitVec 64) (image : List Word) (r : Reg) (v : Word) :
    (t.withUnread c image).writeX r v = (t.writeX r v).withUnread c image := by
  rw [Txn.writeX_eq, Txn.writeX_eq]
  rfl

theorem Txn.branchIf_withUnread (t : Txn) (c : BitVec 64) (image : List Word) (taken : Bool)
    (imm : Imm16) :
    (t.withUnread c image).branchIf taken imm = (t.branchIf taken imm).withUnread c image := by
  rw [Txn.branchIf_eq, Txn.branchIf_eq]
  rfl

theorem ignoresUnread_ok {f : Txn → Txn}
    (hf : ∀ t c image, f (t.withUnread c image) = (f t).withUnread c image) :
    IgnoresUnread fun t => .ok (f t) :=
  fun t c image => congrArg Except.ok (hf t c image)

theorem ignoresUnread_error (e : Raise) : IgnoresUnread fun _ => .error e :=
  fun _ _ _ => rfl

theorem ignoresUnread_ite {p : Txn → Prop} [DecidablePred p] {f g : Txn → Except Raise Txn}
    (hp : ∀ t c image, p (t.withUnread c image) ↔ p t) (hf : IgnoresUnread f) (hg : IgnoresUnread g) :
    IgnoresUnread fun t => if p t then f t else g t := by
  intro t c image
  by_cases h : p t
  · simp only [hp, h, if_true, hf t c image]
  · simp only [hp, h, if_false, hg t c image]

/-- A load: what it reads decides whether it faults or writes a register. -/
theorem ignoresUnread_load {α : Type} {body : Txn → Except Raise Txn} (rt : Reg)
    (read : Txn → Except Raise α) (value : α → Word)
    (hread : ∀ t c image, read (t.withUnread c image) = read t)
    (hbody : ∀ t, body t = (read t).map fun v => t.writeX rt (value v)) : IgnoresUnread body := by
  intro t c image
  rw [hbody, hbody, hread]
  cases read t with
  | ok v => exact congrArg Except.ok (t.writeX_withUnread c image rt (value v))
  | error e => rfl

/-- A store: the check reads the parameters alone. -/
theorem ignoresUnread_store {addr v : Txn → Word} (n : Nat)
    (haddr : ∀ t c image, addr (t.withUnread c image) = addr t)
    (hv : ∀ t c image, v (t.withUnread c image) = v t) :
    IgnoresUnread fun t => t.memWrite (addr t) n (v t) := by
  intro t c image
  have hparams : (t.withUnread c image).st.params = t.st.params := rfl
  simp only [haddr, hv, Txn.memWrite, hparams]
  cases check t.st.params (addr t) n .store <;> rfl

/-- Every instruction is the transaction of a rule that ignores icount and IMAGE. -/
theorem exec_ignoresUnread (i : Instr) :
    ∃ body, (∀ s, exec i s = perform s body) ∧ IgnoresUnread body := by
  unfold exec
  cases i with
  | add rd rs rt | addu rd rs rt | sub rd rs rt | subu rd rs rt | and rd rs rt | or rd rs rt | xor rd rs rt
  | nor rd rs rt | slt rd rs rt | sll rd rt n | srl rd rt n | sra rd rt n | mfhi rd | mflo rd
  | addi rd rs imm | addiu rd rs imm | andi rd rs imm | ori rd rs imm | xori rd rs imm | slti rd rs imm
  | lui rd imm =>
    exact ⟨_, fun _ => rfl, ignoresUnread_ok fun t c image => t.writeX_withUnread c image rd _⟩
  | mult rs rt | multu rs rt | mthi rs | mtlo rs | j target | jr rs | syscall =>
    exact ⟨_, fun _ => rfl, ignoresUnread_ok fun _ _ _ => rfl⟩
  | div rs rt =>
    exact ⟨_, fun _ => rfl, ignoresUnread_ite (fun _ _ _ => Iff.rfl) (ignoresUnread_error _)
      (ignoresUnread_ite (fun _ _ _ => Iff.rfl) (ignoresUnread_error _)
        (ignoresUnread_ok fun _ _ _ => rfl))⟩
  | divu rs rt =>
    exact ⟨_, fun _ => rfl, ignoresUnread_ite (fun _ _ _ => Iff.rfl) (ignoresUnread_error _)
      (ignoresUnread_ok fun _ _ _ => rfl)⟩
  | lw rt base imm =>
    exact ⟨_, fun _ => rfl, ignoresUnread_load rt (fun t => memRead32 t.st (t.ea base imm) .load) id
      (fun _ _ _ => rfl) fun t => by cases memRead32 t.st (t.ea base imm) .load <;> rfl⟩
  | lh rt base imm =>
    exact ⟨_, fun _ => rfl, ignoresUnread_load rt (fun t => memRead16 t.st (t.ea base imm))
      (·.signExtend 32) (fun _ _ _ => rfl)
      fun t => by cases memRead16 t.st (t.ea base imm) <;> rfl⟩
  | lb rt base imm =>
    exact ⟨_, fun _ => rfl, ignoresUnread_load rt (fun t => memRead8 t.st (t.ea base imm))
      (·.signExtend 32) (fun _ _ _ => rfl)
      fun t => by cases memRead8 t.st (t.ea base imm) <;> rfl⟩
  | sw rt base imm | sh rt base imm | sb rt base imm =>
    exact ⟨_, fun _ => rfl, ignoresUnread_store _ (fun _ _ _ => rfl) fun _ _ _ => rfl⟩
  | beq rs rt imm | bne rs rt imm | blez rs imm | bgtz rs imm | bltz rs imm | bgez rs imm =>
    exact ⟨_, fun _ => rfl, ignoresUnread_ok fun t c image => t.branchIf_withUnread c image _ imm⟩
  | jal target =>
    exact ⟨_, fun _ => rfl, ignoresUnread_ok fun t c image =>
      congrArg (Txn.writePc · _) (t.writeX_withUnread c image 31 _)⟩
  | jalr rd rs =>
    exact ⟨_, fun _ => rfl, ignoresUnread_ok fun t c image =>
      congrArg (Txn.writePc · _) (t.writeX_withUnread c image rd _)⟩

/-- `t` is the answer from `s`; from `s` with another icount and IMAGE the answer is `t` with that IMAGE
and with that icount advanced by as much. -/
def State.shifted (s t : State) (c : BitVec 64) (image : List Word) : State :=
  t.withUnread (c + (t.icount - s.icount)) image

theorem State.shifted_of_icount_eq {s t : State} (h : t.icount = s.icount) (c : BitVec 64)
    (image : List Word) : s.shifted t c image = t.withUnread c image := by
  simp [State.shifted, h]

theorem State.shifted_of_counted {s t : State} (h : t.icount = s.icount + 1#64) (c : BitVec 64)
    (image : List Word) : s.shifted t c image = t.withUnread (c + 1#64) image := by
  simp [State.shifted, h, BitVec.add_comm s.icount]

theorem perform_withUnread {body : Txn → Except Raise Txn} (hb : IgnoresUnread body) {s t : State}
    (h : perform s body = .next t) (c : BitVec 64) (image : List Word) :
    perform (s.withUnread c image) body = .next (s.shifted t c image) := by
  have hother := hb (Txn.start s) c image
  cases hbody : body (Txn.start s) with
  | error e =>
    obtain rfl := Host.Outcome.next.inj ((perform_error s body e hbody).symm.trans h)
    rw [hbody] at hother
    rw [perform_error (s.withUnread c image) body e hother,
      State.shifted_of_icount_eq (takeFault_icount s e _)]
    rfl
  | ok u =>
    obtain rfl := Host.Outcome.next.inj ((perform_ok s body u hbody).symm.trans h)
    rw [hbody] at hother
    have hself : body (Txn.start s) = (body (Txn.start s)).map (·.withUnread s.icount s.image) :=
      hb (Txn.start s) s.icount s.image
    rw [hbody] at hself
    have hcount : u.st.icount = s.icount := by rw [Except.ok.inj hself]; rfl
    rw [perform_ok (s.withUnread c image) body _ hother, State.shifted_of_counted (by simp [hcount])]
    rfl

/-- A step with another icount and another IMAGE does the same to everything else. -/
theorem step_withUnread {s t : State} (ht : step s = .next t) (c : BitVec 64) (image : List Word) :
    step (s.withUnread c image) = .next (s.shifted t c image) := by
  by_cases hr : s.status = .running
  · cases step_cases s hr with
    | fault f addr w hf h =>
      obtain rfl := Host.Outcome.next.inj (h.symm.trans ht)
      rw [step_of_stepFault (s := s.withUnread c image) hr hf,
        State.shifted_of_icount_eq (takeFault_icount s _ w)]
      rfl
    | instruction w i _ _ _ hw hd _ hx _ =>
      obtain ⟨body, hbody, hignores⟩ := exec_ignoresUnread i
      have hstep := step_of_fetches (s.withUnread c image) w hr ⟨hw.aligned, hw.mapped, hw.word⟩
      rw [hd] at hstep
      exact hstep.trans ((hbody _).trans
        (perform_withUnread hignores ((hbody s).symm.trans (hx.trans ht)) c image))
    | unrecognized w e _ hw hd h =>
      obtain rfl := Host.Outcome.next.inj (h.symm.trans ht)
      rw [step_of_decode_error (s := s.withUnread c image) hr ⟨hw.aligned, hw.mapped, hw.word⟩ hd,
        State.shifted_of_counted rfl]
      rfl
  · obtain rfl := Host.Outcome.next.inj ((step_not_running s hr).symm.trans ht)
    rw [step_not_running (s.withUnread c image) hr, State.shifted_of_icount_eq rfl]

/-- Settles O18, by where a step can lead and by `step_withUnread`. -/
theorem onlyCommittedStepsAreCounted : Obligations.OnlyCommittedStepsAreCounted := by
  intro s t ht
  refine ⟨fun hr => ?_, fun _ hft => ?_, fun hr hnf => ?_, fun c => ?_⟩
  · rw [Host.Outcome.next.inj ((step_not_running s hr).symm.trans ht)]
  · cases stepTo_of_step ht with
    | idle => rfl
    | fault => rfl
    | instruction w i _ _ hr => cases hi : decide (i = .syscall) <;> simp [committedTxn, hi, hr] at hft
    | unrecognized _ _ hr => simp [unrecognizedTxn, hr] at hft
  · cases stepTo_of_step ht with
    | idle hr' => exact absurd hr hr'
    | fault => exact absurd rfl hnf
    | instruction => rfl
    | unrecognized => rfl
  · have himage : s.shifted t c s.image = { t with icount := c + (t.icount - s.icount) } := by
      rw [← (step_image_params ht).1]
      rfl
    exact (step_withUnread ht c s.image).trans (congrArg _ himage)

/-! ### pc (R24, R25) -/

/-- Where pc can be after an instruction other than JR and JALR. -/
theorem exec_pc_cases {i : Instr} {s t : State} (hjr : ∀ rs, i ≠ .jr rs)
    (hjalr : ∀ rd rs, i ≠ .jalr rd rs) (h : exec i s = .next t) :
    t.current.pc = s.current.pc ∨ t.current.pc = s.current.pc + 4#32 ∨
      (∃ imm, t.current.pc = branchTarget s.current.pc imm) ∨
      ∃ target, t.current.pc = jumpTarget s.current.pc target := by
  have hbranch : ∀ taken imm, exec i s = .next ((Txn.start s).branchIf taken imm).commit →
      t.current.pc = s.current.pc + 4#32 ∨ ∃ imm, t.current.pc = branchTarget s.current.pc imm := by
    intro taken imm he
    obtain rfl := Host.Outcome.next.inj (he.symm.trans h)
    cases taken
    · exact .inl rfl
    · exact .inr ⟨imm, rfl⟩
  cases hb : isBranchOrJump i with
  | false =>
    obtain ⟨f, addr, -, he⟩ | ⟨-, a, pw, heff, he⟩ := exec_cases i s <;>
      obtain rfl := Host.Outcome.next.inj (he.symm.trans h)
    · exact .inl rfl
    · exact .inr (.inl (heff.pc hb))
  | true =>
    cases i with
    | beq rs rt imm | bne rs rt imm | blez rs imm | bgtz rs imm | bltz rs imm | bgez rs imm =>
      exact .inr ((hbranch _ imm rfl).imp_right .inl)
    | j target | jal target =>
      obtain rfl := Host.Outcome.next.inj h
      exact .inr (.inr (.inr ⟨target, rfl⟩))
    | jr rs => exact absurd rfl (hjr rs)
    | jalr rd rs => exact absurd rfl (hjalr rd rs)
    | _ => nomatch hb

theorem toNat_add_four_mod_four {pc : Word} (h : pc.toNat % 4 = 0) : (pc + 4#32).toNat % 4 = 0 := by
  rw [BitVec.toNat_add, show (4#32).toNat = 4 from rfl]
  omega

theorem toNat_branchTarget_mod_four {pc : Word} (h : pc.toNat % 4 = 0) (imm : Imm16) :
    (branchTarget pc imm).toNat % 4 = 0 := by
  have hpc := toNat_add_four_mod_four h
  rw [branchTarget, BitVec.toNat_add, BitVec.toNat_shiftLeft, Nat.shiftLeft_eq]
  omega

theorem toNat_jumpTarget_mod_four (pc : Word) (target : Target26) :
    (jumpTarget pc target).toNat % 4 = 0 := by
  rw [jumpTarget, BitVec.toNat_append, Nat.shiftLeft_eq, show (0#2).toNat = 0 from rfl, Nat.or_zero]
  omega

/-- A fetch that fails the check takes its fault, with FAULT_ADDR pc and FAULT_WORD 0 (R32, R40). -/
theorem step_of_fetch_fault {s : State} {f : Fault} (hr : s.status = .running)
    (hf : accessFault s.params s.current.pc 4 .fetchMisaligned .fetchUnmapped = some (f, s.current.pc)) :
    ∃ t, step s = .next t ∧ FaultTaken s t f s.current.pc 0#32 :=
  ⟨_, step_of_stepFault hr (by simp [stepFault, hf]),
    faultTaken_takeFault s { cause := f, addr := s.current.pc } 0#32⟩

/-- Settles O9: the jumps check nothing, the fetch does, and every other target is a multiple of 4. -/
theorem fetchChecksThePcAndJumpsDoNot : Obligations.FetchChecksThePcAndJumpsDoNot := by
  refine ⟨fun s rs rd hu => ⟨goesTo_of_exec hu rfl, linksAndGoesTo_of_exec hu rfl⟩,
    fun s hr => ⟨fun ha => ?_, fun ha hm => ?_⟩, fun i s t ha hjr hjalr h => ?_⟩
  · exact step_of_fetch_fault hr (by simp [accessFault, ha])
  · rw [← mappedTest_iff] at hm
    exact step_of_fetch_fault hr (by simp [accessFault, ha, hm])
  · obtain hpc | hpc | ⟨imm, hpc⟩ | ⟨target, hpc⟩ := exec_pc_cases hjr hjalr h <;> rw [hpc]
    · exact ha
    · exact toNat_add_four_mod_four ha
    · exact toNat_branchTarget_mod_four ha imm
    · exact toNat_jumpTarget_mod_four _ target

/-- Settles O23, by the effect of a committed instruction and the no-op of an unrecognized word. -/
theorem defaultAdvanceIsFour : Obligations.DefaultAdvanceIsFour := by
  refine ⟨fun i s t hb hf h => ?_, fun s t w e hr hw hd ht => ?_⟩
  · obtain ⟨f, addr, hsome, -⟩ | ⟨-, a, pw, heff, he⟩ := exec_cases i s
    · exact absurd (hf.symm.trans hsome) nofun
    · obtain rfl := Host.Outcome.next.inj (he.symm.trans h)
      exact heff.pc hb
  · obtain rfl := Host.Outcome.next.inj ((step_of_decode_error hr hw hd).symm.trans ht)
    rfl

/-! ### The run status and the illegal record (R30, R33) -/

/-- Settles O19, by where a step can lead: the commit of the halt stops, and a fault alone faults. -/
theorem statusChangesOnlyFromRunning : Obligations.StatusChangesOnlyFromRunning := by
  refine ⟨⟨rfl, rfl, rfl⟩, fun s t ht => ⟨fun hr => ?_, fun hr => ⟨⟨fun hstop => ?_, ?_⟩, ?_⟩⟩⟩
  · obtain rfl := Host.Outcome.next.inj ((step_not_running s hr).symm.trans ht)
    exact ⟨rfl, rfl⟩
  · cases stepTo_of_step ht with
    | idle hr' => exact absurd hr hr'
    | fault => exact absurd hstop (by simp)
    | instruction w i _ _ _ _ hw hd =>
      have hi : i = .syscall := by simpa [committedTxn, hr] using hstop
      exact ⟨w, hw, hi ▸ hd⟩
    | unrecognized => exact absurd hstop (by simp [unrecognizedTxn, hr])
  · rintro ⟨w, hw, hd⟩
    obtain rfl := Host.Outcome.next.inj ((step_of_decode_syscall hr hw hd).symm.trans ht)
    rfl
  · cases stepTo_of_step ht with
    | idle hr' => exact absurd hr hr'
    | fault f addr w _ hf => simp [hf]
    | instruction w i _ _ _ hn => cases decide (i = .syscall) <;> simp [committedTxn, hr, hn]
    | unrecognized _ _ _ hn => simp [unrecognizedTxn, hr, hn]

/-- A step keeps the illegal record, or commits an unrecognized encoding (R33, R41). -/
theorem step_illegalRecord {s t : State} (ht : step s = .next t) :
    SameIllegalRecord s t ∨
      (s.status = .running ∧ (∃ w e, Fetches s w ∧ decodeWord w = .error e) ∧
        t = (unrecognizedTxn s).commit) := by
  cases stepTo_of_step ht with
  | idle => exact .inl ⟨rfl, rfl, rfl⟩
  | fault => exact .inl ⟨rfl, rfl, rfl⟩
  | instruction => exact .inl (committed_commit s _ _ _).illegalRecord
  | unrecognized w e hr _ hw hd => exact .inr ⟨hr, ⟨w, e, hw, hd⟩, rfl⟩

/-- An unrecognized encoding after the first leaves the record (R33). -/
theorem sameIllegalRecord_unrecognized {s : State} (h : s.ill = true) :
    SameIllegalRecord s (unrecognizedTxn s).commit := by
  simp [SameIllegalRecord, unrecognizedTxn, Txn.recordsIllegal, h]

/-- The first unrecognized encoding is recorded with its pc and word (R33). -/
theorem illegalRecord_unrecognized {s : State} (h : s.ill = false) :
    (unrecognizedTxn s).commit.illPc = s.current.pc ∧ (unrecognizedTxn s).commit.illWord = wordAtPc s := by
  constructor <;> simp [unrecognizedTxn, Txn.recordsIllegal, h, wordAtPc]

theorem ill_unrecognized (s : State) : (unrecognizedTxn s).commit.ill = true := by
  simp [unrecognizedTxn]

/-- Settles O25: every step but that of an unrecognized encoding keeps the record. -/
theorem illegalRecordIsSticky : Obligations.IllegalRecordIsSticky := by
  refine ⟨fun s t ht => ?_, fun s => ⟨rfl, rfl, rfl⟩⟩
  obtain hsame | ⟨hr, hex, rfl⟩ := step_illegalRecord ht
  · have hclear : s.ill = false → t.ill ≠ true := fun h => by simp [hsame.1, h]
    refine ⟨fun _ => hsame, fun h => ⟨fun h' => absurd h' (hclear h), ?_⟩,
      fun h h' => absurd h' (hclear h), fun _ => hsame⟩
    rintro ⟨hr, w, e, hw, hd⟩
    obtain rfl := Host.Outcome.next.inj ((step_of_decode_error hr hw hd).symm.trans ht)
    exact ill_unrecognized s
  · refine ⟨sameIllegalRecord_unrecognized, fun _ => ⟨fun _ => ⟨hr, hex⟩, fun _ => ill_unrecognized s⟩,
      fun h _ => ?_, fun h => ?_⟩
    · obtain ⟨hpc, hword⟩ := illegalRecord_unrecognized h
      obtain ⟨w, e, hw, -⟩ := hex
      rw [hword, wordAtPc_of_fetches s w hw]
      exact ⟨hpc, hw, hr⟩
    · exact absurd ((ill_unrecognized s).symm.trans h) (by decide)

/-! ### The reset state and IMAGE (R43, R45, R270, R274) -/

theorem zeroed_initialized (p : Params) : Zeroed (State.initialized p) p.textBase where
  pc := rfl
  registers r := by simp [State.initialized, Arch.zeroed]
  hi := rfl
  lo := rfl
  bothCopies := rfl
  status := rfl
  icount := rfl
  faultRecord := ⟨rfl, rfl, rfl, rfl⟩
  illegalRecord := ⟨rfl, rfl, rfl⟩

/-- `Zeroed` speaks of neither memory nor IMAGE. -/
theorem Zeroed.with_mem_image {t : State} {base : Word} (h : Zeroed t base) (m : Memory)
    (image : List Word) : Zeroed { t with mem := m, image := image } base :=
  { h with }

/-- An image written to memory that is all 0 is all that memory holds (R45, R272). -/
theorem holdsExactly_of_mem {t : State} {base : Word} {image : List Word}
    (h : t.mem = Memory.writeWords [] base.toNat image) : HoldsExactly t base image := by
  refine ⟨fun k hk j hj => ?_, fun a ha => ?_⟩
  · rw [h, Memory.byte_writeWords_inside _ _ _ _ _ rfl hk hj, byteOf]
  · rw [h, Memory.byte_writeWords_outside _ _ _ _ rfl ha, Memory.byte]

theorem holdsExactly_hostReset (s : State) : HoldsExactly (hostReset s) s.params.textBase s.image :=
  holdsExactly_of_mem rfl

/-- Settles O15: reset leaves the power-on state, and the words of IMAGE in memory. -/
theorem initializeAndResetLeaveTheResetState : Obligations.InitializeAndResetLeaveTheResetState :=
  ⟨rfl, fun p => ⟨zeroed_initialized p, holdsExactly_of_mem rfl, rfl, rfl⟩,
    fun s => ⟨(zeroed_initialized s.params).with_mem_image _ _, holdsExactly_hostReset s, rfl, rfl⟩⟩

/-- Settles O24, by `step_withUnread` for the step and by what reset writes. -/
theorem imageIsReachedOnlyByTheLoader : Obligations.ImageIsReachedOnlyByTheLoader := by
  refine ⟨fun s words => ⟨fun h => ?_, fun h => ?_⟩, fun s t ht => ?_,
    fun s => ⟨rfl, holdsExactly_hostReset s⟩⟩
  · simp [loadProgram, h]
  · simp [loadProgram, h]
  · obtain ⟨himage, hparams⟩ := step_image_params ht
    refine ⟨himage, hparams, fun image => ?_⟩
    have h := step_withUnread ht s.icount image
    rw [State.shifted, BitVec.add_comm, BitVec.sub_add_cancel] at h
    exact h

/-! ### Pokes (R39) -/

theorem pokeX_of_not_hardwired {s : State} {r : Reg} (h : hardwired s r = false) (v : Word) :
    pokeX r v s = { s with current := s.current.setX r v, next := s.next.setX r v } :=
  if_neg (by simp [h])

/-- The registers beside the poked one read as before (R39). -/
theorem readX_pokeX_of_ne {s : State} {r q : Reg} (h : hardwired s r = false) (v : Word) (hq : q ≠ r) :
    (pokeX r v s).readX q = s.readX q := by
  have hx : (s.current.setX r v).x[q.val] = s.current.x[q.val] := by rw [Arch.getElem_setX, if_neg hq]
  rw [pokeX_of_not_hardwired h, State.readX, State.readX, hx]
  rfl

/-- What every poke keeps: all state but the registers, HI and LO (R39). -/
structure PokeKeeps (s t : State) : Prop where
  pc : t.current.pc = s.current.pc
  mem : t.mem = s.mem
  status : t.status = s.status
  icount : t.icount = s.icount
  faultRecord : SameFaultRecord s t
  illegalRecord : SameIllegalRecord s t
  image : t.image = s.image
  params : t.params = s.params

/-- A change of the two copies that leaves pc. -/
theorem pokeKeeps_of_copies {s : State} (a b : Arch) (h : a.pc = s.current.pc) :
    PokeKeeps s { s with current := a, next := b } :=
  ⟨h, rfl, rfl, rfl, ⟨rfl, rfl, rfl, rfl⟩, ⟨rfl, rfl, rfl⟩, rfl, rfl⟩

theorem pokeKeeps_pokeX (r : Reg) (v : Word) (s : State) : PokeKeeps s (pokeX r v s) := by
  cases hw : hardwired s r with
  | true => rw [pokeX_of_hardwired hw]; exact pokeKeeps_of_copies s.current s.next rfl
  | false => rw [pokeX_of_not_hardwired hw]; exact pokeKeeps_of_copies _ _ rfl

/-- Settles O56, by whether the register is a hardwired register 0. -/
theorem pokesSetBothCopies : Obligations.PokesSetBothCopies := by
  intro s r v
  refine ⟨fun hw => pokeX_of_hardwired hw v, fun hw => ⟨?_, ?_, readX_pokeX_same hw v,
    fun q hq => readX_pokeX_of_ne hw v hq⟩, ⟨rfl, rfl⟩, ⟨rfl, rfl⟩, fun t ht => ?_⟩
  · rw [pokeX_of_not_hardwired hw]
  · rw [pokeX_of_not_hardwired hw]
  · have hkeeps : PokeKeeps s t := by
      obtain rfl | rfl | rfl := ht
      · exact pokeKeeps_pokeX r v s
      · exact pokeKeeps_of_copies _ _ rfl
      · exact pokeKeeps_of_copies _ _ rfl
    obtain ⟨hpc, hmem, hstatus, hicount, hfault, hill, himage, hparams⟩ := hkeeps
    exact ⟨hpc, hmem, hstatus, hicount, hfault, hill, himage, hparams⟩

end Sys2Proof.Machine
end

section
/-! PROOFS. Memory (spec/20_memory.md): the one region of an address, what loads, fetches and the host's
reads find there, and that they find what a store left. -/

namespace Sys2Proof.Machine

/-! ### The region of an address (R8, R63, R64) -/

theorem regionHolds_iff (r : Region) (addr : Word) :
    regionHolds r addr = true ↔ r.base.toNat ≤ addr.toNat ∧ addr.toNat < r.limit := by
  simp [regionHolds]

/-- Regions that do not overlap share no address (R8 (a)). -/
theorem eq_of_regionsApart {rs : List Region} (h : regionsApart rs = true) {a b : Region}
    (ha : a ∈ rs) (hb : b ∈ rs) {addr : Word} (haa : regionHolds a addr = true)
    (hba : regionHolds b addr = true) : a = b := by
  induction rs with
  | nil => nomatch ha
  | cons r rs ih =>
    rw [regionHolds_iff] at haa hba
    simp only [regionsApart, Bool.and_eq_true, List.all_eq_true, Region.apart, Bool.or_eq_true,
      decide_eq_true_eq] at h
    obtain ⟨hr, hrs⟩ := h
    rcases List.mem_cons.1 ha with rfl | ha' <;> rcases List.mem_cons.1 hb with rfl | hb'
    · rfl
    · have := hr b hb'
      omega
    · have := hr a ha'
      omega
    · exact ih hrs ha' hb'

theorem Params.regionsApart_of_wf {p : Params} (hp : p.wf = true) : regionsApart p.regions = true := by
  simp only [Params.wf, Bool.and_eq_true] at hp
  obtain ⟨⟨⟨⟨hapart, -⟩, -⟩, -⟩, -⟩ := hp
  exact hapart

/-- No region wraps around the top of the address space (R8 (c)). -/
theorem Params.limit_le_of_wf {p : Params} (hp : p.wf = true) {r : Region} (hr : r ∈ p.regions) :
    r.limit ≤ 2 ^ 32 := by
  simp only [Params.wf, regionsInSpace, Bool.and_eq_true, List.all_eq_true, decide_eq_true_eq] at hp
  obtain ⟨⟨⟨-, hspace⟩, -⟩, -⟩ := hp
  exact hspace r hr

theorem lookup_none_iff_not_mapped (p : Params) (addr : Word) :
    lookup p addr = none ↔ ¬Mapped p addr.toNat := by
  rw [lookup_none_iff, ← mappedTest_iff, Bool.not_eq_true]

/-- The lookup answers the region that holds the address: there is no other (R63). -/
theorem lookup_of_regionHolds {p : Params} (hp : p.wf = true) {r : Region} (hr : r ∈ p.regions)
    {addr : Word} (hh : regionHolds r addr = true) :
    lookup p addr = some (r, addr.toNat - r.base.toNat) := by
  cases hl : lookup p addr with
  | none => exact absurd ⟨r, hr, (regionHolds_iff r addr).1 hh⟩ ((lookup_none_iff_not_mapped p addr).1 hl)
  | some loc =>
    obtain ⟨r', off⟩ := loc
    obtain ⟨hr', hh', hcell⟩ := lookup_some p addr r' off hl
    obtain rfl := eq_of_regionsApart (Params.regionsApart_of_wf hp) hr' hr hh' hh
    rw [← hcell, cellOf, Nat.add_sub_cancel_left]

theorem check_misaligned {p : Params} {addr : Word} {n : Nat} (kind : AccessKind)
    (ha : addr.toNat % n ≠ 0) : check p addr n kind = .error { cause := kind.misaligned, addr := addr } :=
  if_pos ha

theorem check_unmapped {p : Params} {addr : Word} {n : Nat} (kind : AccessKind) (ha : addr.toNat % n = 0)
    (hl : lookup p addr = none) : check p addr n kind = .error { cause := kind.unmapped, addr := addr } := by
  simp [check, ha, hl]

theorem check_of_lookup {p : Params} {addr : Word} {n : Nat} {loc : Region × Nat} (kind : AccessKind)
    (ha : addr.toNat % n = 0) (hl : lookup p addr = some loc) : check p addr n kind = .ok loc := by
  simp [check, ha, hl]

theorem toNat_add_ofNat {a : Word} {k : Nat} (h : a.toNat + k < 2 ^ 32) :
    (a + BitVec.ofNat 32 k).toNat = a.toNat + k := by
  rw [BitVec.toNat_add, BitVec.toNat_ofNat]
  omega

/-- Byte `k` of an aligned access is in the region of the access, with no wrap modulo 2^32 (R64). -/
theorem regionHolds_add {p : Params} (hp : p.wf = true) {r : Region} (hr : r ∈ p.regions) {addr : Word}
    {n : Nat} (hn : n = 1 ∨ n = 2 ∨ n = 4) (hal : addr.toNat % n = 0) (hh : regionHolds r addr = true)
    {k : Nat} (hk : k < n) :
    addr.toNat + k < 2 ^ 32 ∧ regionHolds r (addr + BitVec.ofNat 32 k) = true := by
  obtain ⟨hlow, hhigh⟩ := access_within_region hp hr hn hal hh
  have hspace := Params.limit_le_of_wf hp hr
  have hlt : addr.toNat + k < 2 ^ 32 := by omega
  refine ⟨hlt, (regionHolds_iff _ _).2 ?_⟩
  rw [toNat_add_ofNat hlt]
  omega

/-- Every byte of an aligned word at a mapped address is mapped. -/
theorem mapped_add {p : Params} (hp : p.wf = true) {a : Word} (ha : a.toNat % 4 = 0)
    (hm : Mapped p a.toNat) {k : Nat} (hk : k < 4) :
    a.toNat + k < 2 ^ 32 ∧ Mapped p (a.toNat + k) := by
  obtain ⟨r, hr, hh⟩ := hm
  obtain ⟨hlt, hk'⟩ := regionHolds_add hp hr (by decide) ha ((regionHolds_iff r a).2 hh) hk
  rw [regionHolds_iff, toNat_add_ofNat hlt] at hk'
  exact ⟨hlt, r, hr, hk'⟩

/-- Settles O26: a well-formed map has one region for an address, and it holds the whole access. -/
theorem arbiterRoutesEachAccessToOneRegion : Obligations.ArbiterRoutesEachAccessToOneRegion := by
  intro p addr hp
  refine ⟨lookup_none_iff_not_mapped p addr,
    fun r hr hlow hhigh => lookup_of_regionHolds hp hr ((regionHolds_iff r addr).2 ⟨hlow, hhigh⟩),
    fun n kind hn => ⟨check_misaligned kind, check_unmapped kind,
      fun r off ha hl => ⟨check_of_lookup kind ha hl, fun k hk => ?_⟩⟩,
    rfl, rfl, rfl, rfl, rfl, rfl⟩
  obtain ⟨hr, hh, hcell⟩ := lookup_some p addr r off hl
  obtain ⟨hlt, hh'⟩ := regionHolds_add hp hr hn ha hh hk
  refine ⟨hlt, ?_⟩
  have hoff : addr.toNat + k - r.base.toNat = off + k := by
    rw [← hcell, cellOf]
    omega
  rw [lookup_of_regionHolds hp hr hh', toNat_add_ofNat hlt, hoff]

/-! ### Bytes, halfwords and words (R65, R68) -/

theorem byteOf_append_byteOf (w : Word) (j : Nat) :
    byteOf w (j + 1) ++ byteOf w j = w.extractLsb' (8 * j) 16 :=
  BitVec.extractLsb'_append_extractLsb'_eq_extractLsb' (by omega)

/-- Two bytes that are those of `w` from byte `j` on read as its 16 bits there. -/
theorem Memory.read16_of_bytes {m : Memory} {a : Nat} {w : Word} {j : Nat}
    (h0 : m.byte a = byteOf w j) (h1 : m.byte (a + 1) = byteOf w (j + 1)) :
    m.read16 a = w.extractLsb' (8 * j) 16 := by
  rw [Memory.read16, h0, h1, byteOf_append_byteOf]

/-- The bytes of the word read at an address are the bytes that stand there. -/
theorem Memory.byte_add_eq_byteOf_read32 (m : Memory) (a : Nat) {k : Nat} (hk : k < 4) :
    m.byte (a + k) = byteOf (m.read32 a) k := by
  obtain ⟨h0, h1, h2, h3⟩ :=
    byteOf_wordOfBytes (m.byte a) (m.byte (a + 1)) (m.byte (a + 2)) (m.byte (a + 3))
  obtain rfl | rfl | rfl | rfl : k = 0 ∨ k = 1 ∨ k = 2 ∨ k = 3 := by omega
  · exact h0.symm
  · exact h1.symm
  · exact h2.symm
  · exact h3.symm

/-! ### Word reads, and the host's (R65, R71, R112) -/

theorem memRead32_ok {s : State} {addr : Word} (kind : AccessKind) (ha : addr.toNat % 4 = 0)
    (hm : Mapped s.params addr.toNat) : memRead32 s addr kind = .ok (s.mem.read32 addr.toNat) := by
  obtain ⟨r, off, hc, -, -, hcell⟩ := check_ok s.params addr 4 kind ha ((mappedTest_iff _ _).2 hm)
  simp only [memRead32, hc, hcell]

theorem memRead32_error {s : State} {addr : Word} (kind : AccessKind)
    (h : addr.toNat % 4 ≠ 0 ∨ ¬Mapped s.params addr.toNat) :
    ∃ e, memRead32 s addr kind = .error e := by
  rw [← mappedTest_iff] at h
  obtain ⟨-, ha, hm, -⟩ | ⟨f, -, hc⟩ := check_cases s.params addr 4 kind
  · exact absurd h (by simp [ha, hm])
  · exact ⟨{ cause := f, addr := addr }, by simp only [memRead32, hc]⟩

/-- Settles O59, by the two answers of the read. -/
theorem hostReadsNeverFault : Obligations.HostReadsNeverFault := by
  rintro s addr _ rfl
  refine ⟨fun ha hm => ?_, fun h => ?_⟩
  · have hread := memRead32_ok .load ha hm
    simp only [readWord, decodeForDisplay, hread]
    exact ⟨rfl, rfl⟩
  · obtain ⟨e, hread⟩ := memRead32_error .load h
    simp only [readWord, decodeForDisplay, hread, and_self]

/-! ### What a load reads (R182 to R184) -/

section Loads

variable {s : State} {rt base : Reg} {imm : Imm16} {ea : Word}

theorem setsRegister_lw (hu : s.Unified) (hea : effectiveAddress (s.readX base) imm = ea)
    (ha : ea.toNat % 4 = 0) (hm : Mapped s.params ea.toNat) :
    SetsRegister (.lw rt base imm) s rt (s.mem.read32 ea.toNat) := by
  subst hea
  obtain ⟨r, off, hc, -, -, hcell⟩ := check_ok s.params _ 4 .load ha ((mappedTest_iff _ _).2 hm)
  rw [← hcell]
  exact setsRegister_of_exec hu (exec_lw s rt base imm r off hc)

theorem setsRegister_lh (hu : s.Unified) (hea : effectiveAddress (s.readX base) imm = ea)
    (ha : ea.toNat % 2 = 0) (hm : Mapped s.params ea.toNat) :
    SetsRegister (.lh rt base imm) s rt ((s.mem.read16 ea.toNat).signExtend 32) := by
  subst hea
  obtain ⟨r, off, hc, -, -, hcell⟩ := check_ok s.params _ 2 .load ha ((mappedTest_iff _ _).2 hm)
  rw [← hcell]
  exact setsRegister_of_exec hu (exec_lh s rt base imm r off hc)

theorem setsRegister_lb (hu : s.Unified) (hea : effectiveAddress (s.readX base) imm = ea)
    (hm : Mapped s.params ea.toNat) :
    SetsRegister (.lb rt base imm) s rt ((s.mem.byte ea.toNat).signExtend 32) := by
  subst hea
  obtain ⟨r, off, hc, -, -, hcell⟩ :=
    check_ok s.params _ 1 .load (Nat.mod_one _) ((mappedTest_iff _ _).2 hm)
  rw [← hcell]
  exact setsRegister_of_exec hu (exec_lb s rt base imm r off hc)

end Loads

/-! ### What a store leaves (R185 to R187) -/

theorem accessFault_eq_none_iff {p : Params} {addr : Word} {n : Nat} {f g : Fault} :
    accessFault p addr n f g = none ↔ addr.toNat % n = 0 ∧ Mapped p addr.toNat := by
  by_cases ha : addr.toNat % n = 0 <;> simp [accessFault, ha, ← mappedTest_iff]

theorem exec_sw_eq_memWrite (s : State) (rt base : Reg) (imm : Imm16) : exec (.sw rt base imm) s =
    perform s fun t => t.memWrite (effectiveAddress (s.readX base) imm) 4 (s.readX rt) := rfl

theorem exec_sh_eq_memWrite (s : State) (rt base : Reg) (imm : Imm16) : exec (.sh rt base imm) s =
    perform s fun t => t.memWrite (effectiveAddress (s.readX base) imm) 2 (s.readX rt) := rfl

theorem exec_sb_eq_memWrite (s : State) (rt base : Reg) (imm : Imm16) : exec (.sb rt base imm) s =
    perform s fun t => t.memWrite (effectiveAddress (s.readX base) imm) 1 (s.readX rt) := rfl

/-- The `n` bytes at `addr` are the low `n` bytes of `v`, little-endian (R66). -/
def Memory.HoldsBytes (m : Memory) (addr : Word) (n : Nat) (v : Word) : Prop :=
  ∀ k, k < n → m.byte (addr.toNat + k) = byteOf v k

theorem Memory.HoldsBytes.congr {m m' : Memory} {addr v : Word} {n : Nat} (h : m.HoldsBytes addr n v)
    (hsame : ∀ k, k < n → m'.byte (addr.toNat + k) = m.byte (addr.toNat + k)) :
    m'.HoldsBytes addr n v :=
  fun k hk => (hsame k hk).trans (h k hk)

/-- A store that does not fault leaves its bytes at an aligned, mapped address. -/
theorem holdsBytes_of_store {i : Instr} {s t : State} {addr v : Word} {n : Nat} (hwf : s.mem.wf = true)
    (hx : exec i s = perform s fun t => t.memWrite addr n v)
    (hf : accessFault s.params addr n .storeMisaligned .storeUnmapped = none) (ht : exec i s = .next t) :
    addr.toNat % n = 0 ∧ Mapped s.params addr.toNat ∧ t.mem.HoldsBytes addr n v := by
  obtain ⟨ha, hm⟩ := accessFault_eq_none_iff.1 hf
  refine ⟨ha, hm, fun k hk => ?_⟩
  obtain ⟨r, off, hc, -, -, hcell⟩ := check_ok s.params addr n .store ha ((mappedTest_iff _ _).2 hm)
  rw [hx, perform_ok s _ (committedTxn s { s.next with pc := s.current.pc + 4#32 }
    (some { cell := addr.toNat, n := n, value := v }) false)
    (by simp [Txn.memWrite, hc, hcell, committedTxn])] at ht
  obtain rfl := Host.Outcome.next.inj ht
  show (s.mem.write addr.toNat v n).byte _ = _
  rw [Memory.byte_write _ _ _ _ _ hwf, if_pos (by omega), Nat.add_sub_cancel_left]

/-- Settles O44: the store leaves the bytes of the value, and the load of that width puts them together. -/
theorem loadReturnsTheStoredValue : Obligations.LoadReturnsTheStoredValue := by
  rintro s t u rt base rd base' imm imm' ea hwf hu hp rfl hea
  refine ⟨fun ht hf hsame => ?_, fun ht hf hsame => ?_, fun ht hf hsame => ?_⟩
  · obtain ⟨ha, hm, hbytes⟩ := holdsBytes_of_store hwf (exec_sw_eq_memWrite s rt base imm) hf ht
    rw [← hp] at hm
    rw [← Memory.read32_of_bytes u.mem _ _ (hbytes.congr hsame)]
    exact setsRegister_lw hu hea ha hm
  · obtain ⟨ha, hm, hbytes⟩ := holdsBytes_of_store hwf (exec_sh_eq_memWrite s rt base imm) hf ht
    rw [← hp] at hm
    have hhalf := hbytes.congr hsame
    rw [← Memory.read16_of_bytes (j := 0) (hhalf 0 (by decide)) (hhalf 1 (by decide))]
    exact setsRegister_lh hu hea ha hm
  · obtain ⟨-, hm, hbytes⟩ := holdsBytes_of_store hwf (exec_sb_eq_memWrite s rt base imm) hf ht
    rw [← hp] at hm
    have hbyte : u.mem.byte _ = (s.readX rt).extractLsb' 0 8 := hsame.trans (hbytes 0 (by decide))
    rw [← hbyte]
    exact setsRegister_lb hu hea hm

/-! ### Mixed widths, and code that is stored to (R68, R83) -/

/-- Settles O45: every access inside an aligned word stays in its region and reads bytes of the word. -/
theorem mixedWidthAccessesAreLittleEndian : Obligations.MixedWidthAccessesAreLittleEndian := by
  constructor
  · intro s rt base imm a v k hs ha hm hv hk hea
    obtain rfl : v = s.mem.read32 a.toNat := hv
    obtain ⟨hlt, hmk⟩ := mapped_add hs.paramsWf ha hm hk
    have hto := toNat_add_ofNat hlt
    rw [← hto] at hmk
    have hbyte := s.mem.byte_add_eq_byteOf_read32 a.toNat hk
    refine ⟨?_, fun heven => ?_, ?_, ?_⟩
    · have hlb := setsRegister_lb (rt := rt) hs.unified hea hmk
      rwa [hto, hbyte] at hlb
    · have hlh := setsRegister_lh (rt := rt) hs.unified hea (by omega) hmk
      rwa [hto, Memory.read16_of_bytes hbyte
        (s.mem.byte_add_eq_byteOf_read32 a.toNat (by omega : k + 1 < 4))] at hlh
    · rintro rfl
      exact setsRegister_lw hs.unified (hea.trans (BitVec.add_zero a)) ha hm
    · rintro rfl
      exact memRead32_ok .fetch ha hm
  · rintro s t rt base imm _ hs rfl hf ht
    obtain ⟨-, -, hbytes⟩ := holdsBytes_of_store hs.memoryWf (exec_sw_eq_memWrite s rt base imm) hf ht
    exact Memory.read32_of_bytes t.mem _ _ hbytes

/-- Settles O46: a fetch reads the bytes a store left, and a store is fetched before it writes. -/
theorem fetchSeesStoredInstructions : Obligations.FetchSeesStoredInstructions := by
  refine ⟨fun u ha hm => memRead32_ok .fetch ha hm, ?_,
    fun s rt base imm w hs hr hw hd hea => ⟨?_, ?_⟩⟩
  · rintro s t u rt base imm _ i hwf rfl hf ht hp hpc hr hsame
    obtain ⟨ha, hm, hbytes⟩ := holdsBytes_of_store hwf (exec_sw_eq_memWrite s rt base imm) hf ht
    have hw : Fetches u (s.readX rt) := by
      rw [← hp, ← hpc, ← mappedTest_iff] at hm
      rw [← hpc] at ha hbytes hsame
      exact ⟨ha, hm, hbytes.congr hsame⟩
    refine ⟨fetch_of_fetches u _ hw, fun hd => ?_⟩
    rw [step_of_fetches u _ hr hw, hd]
  · rw [step_of_fetches s w hr hw, hd]
  · have he := exec_sw_eq_memWrite s rt base imm
    rw [hea] at he
    exact storesBytes_of_exec hs.unified hs.memoryWf hw.aligned hw.mapped he

end Sys2Proof.Machine
end

section
/-! PROOFS. The fields of a word and the two immediates (spec/30_encoding.md R93, R95), which bits the
decoder reads (R105), and which words are unrecognized and what their step does (R104, R232). -/

namespace Sys2Proof

/-! ### Fields side by side (R93) -/

theorem setWidth_append_eq_or {m n : Nat} (x : BitVec m) (y : BitVec n) (k : Nat) :
    (x ++ y).setWidth k = x.setWidth k <<< n ||| y.setWidth k := by
  ext i hi
  by_cases h : i < n
  · simp [h, BitVec.getLsbD_append]
  · simp [h, BitVec.getLsbD_append, BitVec.getLsbD_of_ge y i (by omega)]

/-- Six fields shifted to their places and or-ed together stand side by side. -/
theorem or_shifted_fieldsR (op : BitVec 6) (rs rt rd shamt : BitVec 5) (funct : BitVec 6) :
    (op.setWidth 32 <<< 26 ||| rs.setWidth 32 <<< 21 ||| rt.setWidth 32 <<< 16 ||| rd.setWidth 32 <<< 11 |||
      shamt.setWidth 32 <<< 6 ||| funct.setWidth 32) = op ++ rs ++ rt ++ rd ++ shamt ++ funct := by
  rw [← BitVec.setWidth_eq (op ++ rs ++ rt ++ rd ++ shamt ++ funct)]
  simp only [setWidth_append_eq_or, BitVec.shiftLeft_or_distrib, ← BitVec.shiftLeft_add]

theorem or_shifted_fieldsI (op : BitVec 6) (rs rt : BitVec 5) (imm : Imm16) :
    (op.setWidth 32 <<< 26 ||| rs.setWidth 32 <<< 21 ||| rt.setWidth 32 <<< 16 ||| imm.setWidth 32) =
      packI op rs rt imm := by
  rw [packI, ← BitVec.setWidth_eq (op ++ rs ++ rt ++ imm)]
  simp only [setWidth_append_eq_or, BitVec.shiftLeft_or_distrib, ← BitVec.shiftLeft_add]

theorem or_shifted_fieldsJ (op : BitVec 6) (target : Target26) :
    (op.setWidth 32 <<< 26 ||| target.setWidth 32) = packJ op target := by
  rw [packJ, ← BitVec.setWidth_eq (op ++ target), setWidth_append_eq_or]

/-- Settles O5: or-ed together at their places, the fields of `x` are `x`'s own fields side by side. -/
theorem fieldsReencodeToTheWord : Obligations.FieldsReencodeToTheWord := fun x =>
  ⟨(or_shifted_fieldsR ..).trans (word_eq_fieldsR x), (or_shifted_fieldsI ..).trans (word_eq_fieldsI x),
    (or_shifted_fieldsJ ..).trans (word_eq_fieldsJ x)⟩

/-- Settles O7: `imm_s` and `imm_z` are the signed and the unsigned value by definition. -/
theorem immediatesAreExtendedAsStated : Obligations.ImmediatesAreExtendedAsStated :=
  ⟨fun imm => ⟨rfl, (BitVec.ofNat_toNat 32 imm).symm⟩, by decide, by decide, by decide, by decide⟩

/-! ### A masked word that is a packed word

One equivalence for each shape of word in `encode`, with the mask of R105 that goes with it: clearing the
ignored fields leaves the packed word exactly if the fixed fields and the operands are the word's own. -/

theorem append_eq_append_iff {m n : Nat} {x x' : BitVec m} {y y' : BitVec n} :
    x ++ y = x' ++ y' ↔ x = x' ∧ y = y' := by
  refine ⟨fun h => ⟨?_, ?_⟩, fun ⟨hx, hy⟩ => hx ▸ hy ▸ rfl⟩
  · simpa only [BitVec.extractLsb'_append_eq_left] using congrArg (BitVec.extractLsb' n m) h
  · simpa only [BitVec.extractLsb'_append_eq_right] using congrArg (BitVec.extractLsb' 0 n) h

theorem eq_indexField_iff {f : BitVec 5} {i : Fin 32} : f = indexField i ↔ fieldIndex f = i :=
  ⟨fun h => h ▸ fieldIndex_indexField i, fun h => h ▸ (indexField_fieldIndex f).symm⟩

/-- A mask that keeps `op` and `funct` leaves a SPECIAL word exactly if it leaves that word's fields. -/
theorem and_eq_packR_iff {w m : Word} {ms mt md mh rs rt rd shamt : BitVec 5} {funct : BitVec 6}
    (hm : m = BitVec.allOnes 6 ++ ms ++ mt ++ md ++ mh ++ BitVec.allOnes 6) :
    w &&& m = packR rs rt rd shamt funct ↔ fieldOp w = 0x00#6 ∧ fieldRs w &&& ms = rs ∧
      fieldRt w &&& mt = rt ∧ fieldRd w &&& md = rd ∧ fieldShamt w &&& mh = shamt ∧
      fieldFunct w = funct := by
  conv_lhs => rw [← word_eq_fieldsR w, hm]
  show (fieldOp w ++ fieldRs w ++ fieldRt w ++ fieldRd w ++ fieldShamt w ++ fieldFunct w) &&&
    (BitVec.allOnes 6 ++ ms ++ mt ++ md ++ mh ++ BitVec.allOnes 6) =
      0x00#6 ++ rs ++ rt ++ rd ++ shamt ++ funct ↔ _
  simp only [BitVec.and_append, append_eq_append_iff, BitVec.and_allOnes, and_assoc]

/-- A mask that keeps `op` and the immediate leaves an I-type word exactly if it leaves that word's
fields. -/
theorem and_eq_packI_iff {w m : Word} {ms mt rs rt : BitVec 5} {op : BitVec 6} {imm : Imm16}
    (hm : m = BitVec.allOnes 6 ++ ms ++ mt ++ BitVec.allOnes 16) :
    w &&& m = packI op rs rt imm ↔ fieldOp w = op ∧ fieldRs w &&& ms = rs ∧ fieldRt w &&& mt = rt ∧
      fieldImm16 w = imm := by
  conv_lhs => rw [← word_eq_fieldsI w, hm]
  show (fieldOp w ++ fieldRs w ++ fieldRt w ++ fieldImm16 w) &&&
    (BitVec.allOnes 6 ++ ms ++ mt ++ BitVec.allOnes 16) = op ++ rs ++ rt ++ imm ↔ _
  simp only [BitVec.and_append, append_eq_append_iff, BitVec.and_allOnes, and_assoc]

theorem eq_packJ_iff {w : Word} {op : BitVec 6} {target : Target26} :
    w = packJ op target ↔ fieldOp w = op ∧ fieldTarget26 w = target := by
  conv_lhs => rw [← word_eq_fieldsJ w]
  exact append_eq_append_iff

section Shapes

variable {w : Word} {op funct : BitVec 6} {rs rt rd : Reg} {shamt : Shamt} {imm : Imm16}

theorem masked_eq_encodeRegs_iff : w &&& ~~~0x000007C0#32 = encodeRegs funct rd rs rt ↔
    fieldOp w = 0x00#6 ∧ regRs w = rs ∧ regRt w = rt ∧ regRd w = rd ∧ fieldFunct w = funct := by
  refine (and_eq_packR_iff (ms := .allOnes 5) (mt := .allOnes 5) (md := .allOnes 5) (mh := 0#5) rfl).trans ?_
  simp only [BitVec.and_allOnes, eq_indexField_iff, BitVec.and_zero, true_and, regRs, regRt, regRd]

theorem masked_eq_encodeShift_iff : w &&& ~~~0x03E00000#32 = encodeShift funct rd rt shamt ↔
    fieldOp w = 0x00#6 ∧ regRt w = rt ∧ regRd w = rd ∧ amount w = shamt ∧ fieldFunct w = funct := by
  refine (and_eq_packR_iff (ms := 0#5) (mt := .allOnes 5) (md := .allOnes 5) (mh := .allOnes 5) rfl).trans ?_
  simp only [BitVec.and_allOnes, eq_indexField_iff, BitVec.and_zero, true_and, regRt, regRd, amount]

theorem masked_eq_packR_rs_rt_iff : w &&& ~~~0x0000FFC0#32 =
    packR (indexField rs) (indexField rt) 0#5 0#5 funct ↔
    fieldOp w = 0x00#6 ∧ regRs w = rs ∧ regRt w = rt ∧ fieldFunct w = funct := by
  refine (and_eq_packR_iff (ms := .allOnes 5) (mt := .allOnes 5) (md := 0#5) (mh := 0#5) rfl).trans ?_
  simp only [BitVec.and_allOnes, eq_indexField_iff, BitVec.and_zero, true_and, regRs, regRt]

theorem masked_eq_packR_rs_rd_iff : w &&& ~~~0x001F07C0#32 =
    packR (indexField rs) 0#5 (indexField rd) 0#5 funct ↔
    fieldOp w = 0x00#6 ∧ regRs w = rs ∧ regRd w = rd ∧ fieldFunct w = funct := by
  refine (and_eq_packR_iff (ms := .allOnes 5) (mt := 0#5) (md := .allOnes 5) (mh := 0#5) rfl).trans ?_
  simp only [BitVec.and_allOnes, eq_indexField_iff, BitVec.and_zero, true_and, regRs, regRd]

theorem masked_eq_packR_rs_iff : w &&& ~~~0x001FFFC0#32 = packR (indexField rs) 0#5 0#5 0#5 funct ↔
    fieldOp w = 0x00#6 ∧ regRs w = rs ∧ fieldFunct w = funct := by
  refine (and_eq_packR_iff (ms := .allOnes 5) (mt := 0#5) (md := 0#5) (mh := 0#5) rfl).trans ?_
  simp only [BitVec.and_allOnes, eq_indexField_iff, BitVec.and_zero, true_and, regRs]

theorem masked_eq_packR_rd_iff : w &&& ~~~0x03FF07C0#32 = packR 0#5 0#5 (indexField rd) 0#5 funct ↔
    fieldOp w = 0x00#6 ∧ regRd w = rd ∧ fieldFunct w = funct := by
  refine (and_eq_packR_iff (ms := 0#5) (mt := 0#5) (md := .allOnes 5) (mh := 0#5) rfl).trans ?_
  simp only [BitVec.and_allOnes, eq_indexField_iff, BitVec.and_zero, true_and, regRd]

theorem masked_eq_packR_iff : w &&& ~~~0x03FFFFC0#32 = packR 0#5 0#5 0#5 0#5 funct ↔
    fieldOp w = 0x00#6 ∧ fieldFunct w = funct := by
  refine (and_eq_packR_iff (ms := 0#5) (mt := 0#5) (md := 0#5) (mh := 0#5) rfl).trans ?_
  simp only [BitVec.and_zero, true_and]

theorem masked_eq_encodeImm_iff : w &&& ~~~0x00000000#32 = encodeImm op rs rt imm ↔
    fieldOp w = op ∧ regRs w = rs ∧ regRt w = rt ∧ fieldImm16 w = imm := by
  refine (and_eq_packI_iff (ms := .allOnes 5) (mt := .allOnes 5) rfl).trans ?_
  simp only [BitVec.and_allOnes, eq_indexField_iff, regRs, regRt]

theorem masked_eq_regimm_iff {sel : BitVec 5} : w &&& ~~~0x00000000#32 = packI op (indexField rs) sel imm ↔
    fieldOp w = op ∧ regRs w = rs ∧ fieldRt w = sel ∧ fieldImm16 w = imm := by
  refine (and_eq_packI_iff (ms := .allOnes 5) (mt := .allOnes 5) rfl).trans ?_
  simp only [BitVec.and_allOnes, eq_indexField_iff, regRs]

theorem masked_eq_packI_rt_iff : w &&& ~~~0x03E00000#32 = packI op 0#5 (indexField rt) imm ↔
    fieldOp w = op ∧ regRt w = rt ∧ fieldImm16 w = imm := by
  refine (and_eq_packI_iff (ms := 0#5) (mt := .allOnes 5) rfl).trans ?_
  simp only [BitVec.and_allOnes, eq_indexField_iff, BitVec.and_zero, true_and, regRt]

theorem masked_eq_packI_rs_iff : w &&& ~~~0x001F0000#32 = packI op (indexField rs) 0#5 imm ↔
    fieldOp w = op ∧ regRs w = rs ∧ fieldImm16 w = imm := by
  refine (and_eq_packI_iff (ms := .allOnes 5) (mt := 0#5) rfl).trans ?_
  simp only [BitVec.and_allOnes, eq_indexField_iff, BitVec.and_zero, true_and, regRs]

theorem masked_eq_packJ_iff {target : Target26} : w &&& ~~~0x00000000#32 = packJ op target ↔
    fieldOp w = op ∧ fieldTarget26 w = target := by
  rw [BitVec.not_zero, BitVec.and_allOnes, eq_packJ_iff]

end Shapes

/-! ### What the decoder reads (R100 to R105) -/

theorem masked_eq_encode_of_decodeSpecial {w : Word} {i : Instr} (hop : fieldOp w = 0x00#6)
    (h : decodeSpecial w = .ok i) : w &&& ~~~i.ignoredMask = encode i := by
  unfold decodeSpecial at h
  split at h
  all_goals
    cases h <;>
    simp only [Instr.ignoredMask, encode, masked_eq_encodeRegs_iff, masked_eq_encodeShift_iff,
      masked_eq_packR_rs_rt_iff, masked_eq_packR_rs_rd_iff, masked_eq_packR_rs_iff,
      masked_eq_packR_rd_iff, masked_eq_packR_iff, *, -BitVec.reduceNot, and_self]

theorem masked_eq_encode_of_decodeRegimm {w : Word} {i : Instr} (hop : fieldOp w = 0x01#6)
    (h : decodeRegimm w = .ok i) : w &&& ~~~i.ignoredMask = encode i := by
  unfold decodeRegimm at h
  split at h
  all_goals
    cases h <;>
    simp only [Instr.ignoredMask, encode, masked_eq_regimm_iff, *, -BitVec.reduceNot, and_self]

/-- A word that decodes is its instruction's word but for the ignored fields: the branch of the decoder
fixes the fields that the shape of the instruction's word asks for. -/
theorem masked_eq_encode_of_decodeWord {w : Word} {i : Instr} (h : decodeWord w = .ok i) :
    w &&& ~~~i.ignoredMask = encode i := by
  unfold decodeWord at h
  split at h
  · exact masked_eq_encode_of_decodeSpecial ‹_› h
  · exact masked_eq_encode_of_decodeRegimm ‹_› h
  all_goals
    cases h <;>
    simp only [Instr.ignoredMask, encode, masked_eq_encodeImm_iff, masked_eq_packI_rt_iff,
      masked_eq_packI_rs_iff, masked_eq_packJ_iff, *, -BitVec.reduceNot, and_self]

/-- A word that is an instruction's word but for the ignored fields decodes to it: the shape of the
instruction's word fixes the fields that select the branch of the decoder. -/
theorem decodeWord_of_masked_eq_encode {w : Word} {i : Instr} (h : w &&& ~~~i.ignoredMask = encode i) :
    decodeWord w = .ok i := by
  cases i
  all_goals
    simp only [Instr.ignoredMask, encode, masked_eq_encodeRegs_iff, masked_eq_encodeShift_iff,
      masked_eq_packR_rs_rt_iff, masked_eq_packR_rs_rd_iff, masked_eq_packR_rs_iff,
      masked_eq_packR_rd_iff, masked_eq_packR_iff, masked_eq_encodeImm_iff, masked_eq_regimm_iff,
      masked_eq_packI_rt_iff, masked_eq_packI_rs_iff, masked_eq_packJ_iff, -BitVec.reduceNot] at h
    simp only [decodeWord, decodeSpecial, decodeRegimm, h]

/-- Settles O2: both directions go through the fields that the instruction's word fixes. -/
theorem decodeIgnoresExactlyTheUnusedFields : Obligations.DecodeIgnoresExactlyTheUnusedFields :=
  fun _ _ => ⟨masked_eq_encode_of_decodeWord, decodeWord_of_masked_eq_encode⟩

/-! ### Unrecognized words (R104) -/

theorem decodeSpecial_error_iff {w : Word} : (∃ e, decodeSpecial w = .error e) ↔ fieldFunct w ∉
    [0x00#6, 0x02#6, 0x03#6, 0x08#6, 0x09#6, 0x0C#6, 0x10#6, 0x11#6, 0x12#6, 0x13#6, 0x18#6, 0x19#6,
     0x1A#6, 0x1B#6, 0x20#6, 0x21#6, 0x22#6, 0x23#6, 0x24#6, 0x25#6, 0x26#6, 0x27#6, 0x2A#6] := by
  unfold decodeSpecial
  split <;> simp_all

theorem decodeRegimm_error_iff {w : Word} :
    (∃ e, decodeRegimm w = .error e) ↔ fieldRt w ≠ 0x00#5 ∧ fieldRt w ≠ 0x01#5 := by
  unfold decodeRegimm
  split <;> simp_all

/-- R104's list of the `op` values that name no instruction. -/
def UnassignedOp (op : BitVec 6) : Prop :=
  op = 0x0B#6 ∨ (0x10 ≤ op.toNat ∧ op.toNat ≤ 0x1F) ∨ op = 0x22#6 ∨
    (0x24 ≤ op.toNat ∧ op.toNat ≤ 0x27) ∨ op = 0x2A#6 ∨ 0x2C ≤ op.toNat

/-- The listed values are all but the 21 that R101 keys the decoder by. -/
theorem unassignedOp_iff (op : BitVec 6) : UnassignedOp op ↔ op ∉
    [0x00#6, 0x01#6, 0x02#6, 0x03#6, 0x04#6, 0x05#6, 0x06#6, 0x07#6, 0x08#6, 0x09#6, 0x0A#6, 0x0C#6, 0x0D#6,
     0x0E#6, 0x0F#6, 0x20#6, 0x21#6, 0x23#6, 0x28#6, 0x29#6, 0x2B#6] := by
  unfold UnassignedOp
  decide +revert

/-- The decoder refuses a word in its SPECIAL map, in its REGIMM map, or for its `op`. -/
theorem decodeWord_error_iff {w : Word} : (∃ e, decodeWord w = .error e) ↔
    (fieldOp w = 0x00#6 ∧ ∃ e, decodeSpecial w = .error e) ∨
    (fieldOp w = 0x01#6 ∧ ∃ e, decodeRegimm w = .error e) ∨ UnassignedOp (fieldOp w) := by
  rw [unassignedOp_iff]
  unfold decodeWord
  split <;> simp_all

theorem decodeRecord_eq_unrecognized_iff {w : Word} :
    decodeRecord w = .unrecognized w ↔ ∃ e, decodeWord w = .error e := by
  unfold decodeRecord
  cases decodeWord w <;> simp

end Sys2Proof

namespace Sys2Proof.Machine

/-- Settles O4: the decoder's maps one by one, then the transaction of an unrecognized encoding. -/
theorem unrecognizedWordsRunAsNoOps : Obligations.UnrecognizedWordsRunAsNoOps := by
  refine ⟨fun w => ?_, fun s w hu hr hw hd => ?_⟩
  · rw [decodeRecord_eq_unrecognized_iff, decodeWord_error_iff, decodeSpecial_error_iff,
      decodeRegimm_error_iff]
    rfl
  · obtain ⟨e, he⟩ := decodeRecord_eq_unrecognized_iff.1 hd
    refine ⟨_, step_of_decode_error hr hw he, ?_⟩
    have hx : s.next.x = s.current.x := congrArg Arch.x hu.symm
    have hhi : s.next.hi = s.current.hi := congrArg Arch.hi hu.symm
    have hlo : s.next.lo = s.current.lo := congrArg Arch.lo hu.symm
    refine ⟨hx, ⟨hhi, hlo⟩, fun _ => rfl, rfl, rfl, hr, ⟨rfl, rfl, rfl, rfl⟩, ill_unrecognized s,
      fun h => ?_, fun h => (sameIllegalRecord_unrecognized h).2, rfl, rfl, rfl⟩
    obtain ⟨hpc, hword⟩ := illegalRecord_unrecognized h
    exact ⟨hpc, hword.trans (wordAtPc_of_fetches s w hw)⟩

end Sys2Proof.Machine
end

section
/-! PROOFS. The arithmetic, bitwise, shift and compare instructions (spec/40_arith_logic.md): which words
they are, and the value each writes. -/

namespace Sys2Proof.Machine

/-! ### Words by shape (R101, R102)

Of an instruction whose word has one of the shapes of `encode`, with the fields R105 ignores in that shape:
every word with its fixed fields decodes to it. The two facts about the instruction hold by definition. -/

/-- The shape of three registers. -/
theorem specialEncoding_of_encodeRegs {funct : BitVec 6} (i : Reg → Reg → Reg → Instr)
    (hm : ∀ rd rs rt, (i rd rs rt).ignoredMask = 0x000007C0#32 := by intros; rfl)
    (he : ∀ rd rs rt, encode (i rd rs rt) = encodeRegs funct rd rs rt := by intros; rfl) :
    SpecialEncoding funct fun w => i (regRd w) (regRs w) (regRt w) := fun w hop hf =>
  decodeWord_of_masked_eq_encode (by rw [hm, he, masked_eq_encodeRegs_iff]; exact ⟨hop, rfl, rfl, rfl, hf⟩)

/-- The shape of two registers and a shift amount. -/
theorem specialEncoding_of_encodeShift {funct : BitVec 6} (i : Reg → Reg → Shamt → Instr)
    (hm : ∀ rd rt n, (i rd rt n).ignoredMask = 0x03E00000#32 := by intros; rfl)
    (he : ∀ rd rt n, encode (i rd rt n) = encodeShift funct rd rt n := by intros; rfl) :
    SpecialEncoding funct fun w => i (regRd w) (regRt w) (amount w) := fun w hop hf =>
  decodeWord_of_masked_eq_encode (by rw [hm, he, masked_eq_encodeShift_iff]; exact ⟨hop, rfl, rfl, rfl, hf⟩)

/-- The shape of two registers and an immediate. -/
theorem primaryEncoding_of_encodeImm {op : BitVec 6} (i : Reg → Reg → Imm16 → Instr)
    (hm : ∀ rt rs imm, (i rt rs imm).ignoredMask = 0x00000000#32 := by intros; rfl)
    (he : ∀ rt rs imm, encode (i rt rs imm) = encodeImm op rs rt imm := by intros; rfl) :
    PrimaryEncoding op fun w => i (regRt w) (regRs w) (fieldImm16 w) := fun w hop =>
  decodeWord_of_masked_eq_encode (by rw [hm, he, masked_eq_encodeImm_iff]; exact ⟨hop, rfl, rfl, rfl⟩)

/-! ### Sums and differences (R121 to R126) -/

theorem ofInt_sub {w : Nat} (a b : Int) : BitVec.ofInt w (a - b) = BitVec.ofInt w a - BitVec.ofInt w b := by
  rw [Int.sub_eq_add_neg, BitVec.ofInt_add, BitVec.ofInt_neg, BitVec.sub_eq_add_neg]

theorem toInt_immS (imm : Imm16) : (immS imm).toInt = imm.toInt :=
  BitVec.toInt_signExtend_of_le (by decide)

/-- Settles O27: the exact sum or difference, narrowed, is that of the words, read as signed or not. -/
theorem addAndSubtractWrapAndNeverTrap : Obligations.AddAndSubtractWrapAndNeverTrap := by
  refine ⟨specialEncoding_of_encodeRegs .add, specialEncoding_of_encodeRegs .addu,
    specialEncoding_of_encodeRegs .sub, specialEncoding_of_encodeRegs .subu, fun s rd rs rt hu => ?_⟩
  simp only [BitVec.ofInt_add, BitVec.ofNat_add, ofInt_sub, BitVec.ofInt_toInt, BitVec.ofInt_natCast,
    BitVec.ofNat_toNat, BitVec.setWidth_eq]
  exact ⟨setsRegister_of_exec hu rfl, setsRegister_of_exec hu rfl, setsRegister_of_exec hu rfl,
    setsRegister_of_exec hu rfl⟩

/-- Settles O28: the sign-extended immediate has the immediate's signed value. -/
theorem addImmediatesSignExtendAndWrap : Obligations.AddImmediatesSignExtendAndWrap := by
  refine ⟨primaryEncoding_of_encodeImm .addi, primaryEncoding_of_encodeImm .addiu,
    fun s rt rs imm hu => ?_⟩
  rw [← toInt_immS, BitVec.ofInt_add, BitVec.ofInt_toInt, BitVec.ofInt_toInt]
  exact ⟨setsRegister_of_exec hu rfl, setsRegister_of_exec hu rfl⟩

/-! ### Bitwise instructions (R130 to R136) -/

/-- Settles O29: each meaning writes the combination the rule names. -/
theorem bitwiseRegistersCombineBits : Obligations.BitwiseRegistersCombineBits :=
  ⟨specialEncoding_of_encodeRegs .and, specialEncoding_of_encodeRegs .or,
    specialEncoding_of_encodeRegs .xor, specialEncoding_of_encodeRegs .nor,
    fun _ _ _ _ hu => ⟨setsRegister_of_exec hu rfl, setsRegister_of_exec hu rfl,
      setsRegister_of_exec hu rfl, setsRegister_of_exec hu rfl⟩⟩

/-- A word is its two halves side by side. -/
theorem halves_append (v : Word) : v.extractLsb' 16 16 ++ v.extractLsb' 0 16 = v :=
  (BitVec.extractLsb'_append_extractLsb'_eq_extractLsb' rfl).trans BitVec.extractLsb'_eq_self

/-- `imm_z` is 0 above the immediate (R95). -/
theorem immZ_eq_append (imm : Imm16) : immZ imm = 0#16 ++ imm :=
  BitVec.setWidth_eq_append (by decide)

theorem and_immZ (v : Word) (imm : Imm16) : v &&& immZ imm = 0#16 ++ (v.extractLsb' 0 16 &&& imm) := by
  conv_lhs => rw [immZ_eq_append, ← halves_append v, BitVec.and_append, BitVec.and_zero]

theorem or_immZ (v : Word) (imm : Imm16) :
    v ||| immZ imm = v.extractLsb' 16 16 ++ (v.extractLsb' 0 16 ||| imm) := by
  conv_lhs => rw [immZ_eq_append, ← halves_append v, BitVec.or_append, BitVec.or_zero]

theorem xor_immZ (v : Word) (imm : Imm16) :
    v ^^^ immZ imm = v.extractLsb' 16 16 ++ (v.extractLsb' 0 16 ^^^ imm) := by
  conv_lhs => rw [immZ_eq_append, ← halves_append v, BitVec.xor_append, BitVec.xor_zero]

/-- Settles O30: both operands are two halves, and the high half of the immediate is 0. -/
theorem bitwiseImmediatesZeroExtend : Obligations.BitwiseImmediatesZeroExtend := by
  refine ⟨primaryEncoding_of_encodeImm .andi, primaryEncoding_of_encodeImm .ori,
    primaryEncoding_of_encodeImm .xori, fun s rt rs imm hu => ?_⟩
  rw [← and_immZ, ← or_immZ, ← xor_immZ]
  exact ⟨setsRegister_of_exec hu rfl, setsRegister_of_exec hu rfl, setsRegister_of_exec hu rfl⟩

/-! ### Shifts (R140 to R142) and the upper immediate (R150) -/

theorem shiftLeft_eq_ofNat (v : Word) (n : Shamt) :
    shiftLeft v n = BitVec.ofNat 32 (v.toNat * 2 ^ n.val) := by
  rw [← Nat.shiftLeft_eq]
  rfl

theorem shiftRightLogical_eq_ofNat (v : Word) (n : Shamt) :
    shiftRightLogical v n = BitVec.ofNat 32 (v.toNat / 2 ^ n.val) := by
  rw [← Nat.shiftRight_eq_div_pow, ← BitVec.toNat_ushiftRight, BitVec.ofNat_toNat, BitVec.setWidth_eq]
  rfl

theorem shiftRightArith_eq_ofInt (v : Word) (n : Shamt) :
    shiftRightArith v n = BitVec.ofInt 32 (v.toInt / 2 ^ n.val) := by
  have h := Int.shiftRight_eq_div_pow v.toInt n.val
  push_cast at h
  rw [← h]
  rfl

/-- Settles O31: the shifts of a word are those of its unsigned or signed value. -/
theorem shiftsScaleByPowersOfTwo : Obligations.ShiftsScaleByPowersOfTwo := by
  refine ⟨specialEncoding_of_encodeShift .sll, specialEncoding_of_encodeShift .srl,
    specialEncoding_of_encodeShift .sra, fun s rd rt n hu => ?_⟩
  rw [← shiftLeft_eq_ofNat, ← shiftRightLogical_eq_ofNat, ← shiftRightArith_eq_ofInt]
  exact ⟨setsRegister_of_exec hu rfl, setsRegister_of_exec hu rfl, setsRegister_of_exec hu rfl⟩

theorem luiValue_eq_ofNat (imm : Imm16) : luiValue imm = BitVec.ofNat 32 (imm.toNat * 2 ^ 16) := by
  refine BitVec.eq_of_toNat_eq ?_
  rw [luiValue, BitVec.toNat_append, BitVec.toNat_ofNat, Nat.zero_mod, Nat.or_zero, Nat.shiftLeft_eq,
    BitVec.toNat_ofNat]
  omega

/-- Settles O33: `rs` is a field the decoder ignores, and the word ends in 16 zeros. -/
theorem loadUpperImmediateFillsTheUpperHalf : Obligations.LoadUpperImmediateFillsTheUpperHalf := by
  refine ⟨fun w hop => decodeWord_of_masked_eq_encode (masked_eq_packI_rt_iff.2 ⟨hop, rfl, rfl⟩),
    fun s rt imm hu => ?_⟩
  rw [← luiValue_eq_ofNat]
  exact setsRegister_of_exec hu rfl

/-! ### Compares (R145, R146) -/

theorem compareResult_lessSigned (a b : Word) :
    compareResult (lessSigned a b) = if a.toInt < b.toInt then 1#32 else 0#32 := by
  simp only [compareResult, lessSigned, decide_eq_true_eq]

/-- Settles O32: SLTI's sign-extended immediate has the immediate's signed value. -/
theorem setOnLessThanComparesSigned : Obligations.SetOnLessThanComparesSigned := by
  refine ⟨specialEncoding_of_encodeRegs .slt, primaryEncoding_of_encodeImm .slti,
    fun s rd rs rt hu => ?_, fun s rt rs imm hu => ?_⟩
  · rw [← compareResult_lessSigned]
    exact setsRegister_of_exec hu rfl
  · rw [← toInt_immS, ← compareResult_lessSigned]
    exact setsRegister_of_exec hu rfl

end Sys2Proof.Machine
end

section
/-! PROOFS. Multiply, divide and the HI/LO moves (spec/41_muldiv_hilo.md): which words they are, what they
leave in HI and LO, and the laws of R169. -/

namespace Sys2Proof.Machine

/-! ### Words by shape (R102, R105) -/

/-- The shape of `rs` and `rt`, with `rd` and `shamt` ignored. -/
theorem specialEncoding_of_packR_rs_rt {funct : BitVec 6} (i : Reg → Reg → Instr)
    (hm : ∀ rs rt, (i rs rt).ignoredMask = 0x0000FFC0#32 := by intros; rfl)
    (he : ∀ rs rt, encode (i rs rt) = packR (indexField rs) (indexField rt) 0#5 0#5 funct := by intros; rfl) :
    SpecialEncoding funct fun w => i (regRs w) (regRt w) := fun w hop hf =>
  decodeWord_of_masked_eq_encode (by rw [hm, he, masked_eq_packR_rs_rt_iff]; exact ⟨hop, rfl, rfl, hf⟩)

/-- The shape of `rd` alone. -/
theorem specialEncoding_of_packR_rd {funct : BitVec 6} (i : Reg → Instr)
    (hm : ∀ rd, (i rd).ignoredMask = 0x03FF07C0#32 := by intros; rfl)
    (he : ∀ rd, encode (i rd) = packR 0#5 0#5 (indexField rd) 0#5 funct := by intros; rfl) :
    SpecialEncoding funct fun w => i (regRd w) := fun w hop hf =>
  decodeWord_of_masked_eq_encode (by rw [hm, he, masked_eq_packR_rd_iff]; exact ⟨hop, rfl, hf⟩)

/-- The shape of `rs` alone. -/
theorem specialEncoding_of_packR_rs {funct : BitVec 6} (i : Reg → Instr)
    (hm : ∀ rs, (i rs).ignoredMask = 0x001FFFC0#32 := by intros; rfl)
    (he : ∀ rs, encode (i rs) = packR (indexField rs) 0#5 0#5 0#5 funct := by intros; rfl) :
    SpecialEncoding funct fun w => i (regRs w) := fun w hop hf =>
  decodeWord_of_masked_eq_encode (by rw [hm, he, masked_eq_packR_rs_iff]; exact ⟨hop, rfl, hf⟩)

/-! ### Writing both accumulators (R160) -/

/-- An instruction whose meaning writes a pair to HI and LO. -/
theorem setsHiLo_of_writeHiLo {i : Instr} {s : State} {p : HiLo} (hu : s.Unified)
    (h : exec i s = .next ((Txn.start s).writeHiLo p).commit) : SetsHiLo i s p.hi p.lo :=
  setsHiLo_of_exec hu h

theorem exec_mult (s : State) (rs rt : Reg) : exec (.mult rs rt) s =
    .next ((Txn.start s).writeHiLo (signedProduct (s.readX rs) (s.readX rt))).commit := rfl

theorem exec_multu (s : State) (rs rt : Reg) : exec (.multu rs rt) s =
    .next ((Txn.start s).writeHiLo (unsignedProduct (s.readX rs) (s.readX rt))).commit := rfl

/-! ### Products (R161, R162) -/

/-- Of a product narrowed to 64 bits, the halves are those of the exact one. -/
theorem splitProduct_ofInt (p : Int) : splitProduct (BitVec.ofInt 64 p) =
    { hi := BitVec.ofInt 32 (p / 2 ^ 32), lo := BitVec.ofInt 32 p } := by
  have hhi : (BitVec.ofInt 64 p).extractLsb' 32 32 = BitVec.ofInt 32 (p / 2 ^ 32) := by
    refine BitVec.eq_of_toNat_eq ?_
    rw [BitVec.extractLsb'_toNat, BitVec.toNat_ofInt, BitVec.toNat_ofInt, Nat.shiftRight_eq_div_pow]
    omega
  have hlo : (BitVec.ofInt 64 p).extractLsb' 0 32 = BitVec.ofInt 32 p := by
    refine BitVec.eq_of_toNat_eq ?_
    rw [BitVec.extractLsb'_toNat, BitVec.toNat_ofInt, BitVec.toNat_ofInt, Nat.shiftRight_zero]
    omega
  rw [splitProduct, hhi, hlo]

theorem signedProduct_eq (a b : Word) : signedProduct a b =
    { hi := BitVec.ofInt 32 (a.toInt * b.toInt / 2 ^ 32), lo := BitVec.ofInt 32 (a.toInt * b.toInt) } :=
  splitProduct_ofInt _

theorem unsignedProduct_eq (a b : Word) : unsignedProduct a b =
    { hi := BitVec.ofNat 32 (a.toNat * b.toNat / 2 ^ 32), lo := BitVec.ofNat 32 (a.toNat * b.toNat) } := by
  rw [← BitVec.ofInt_natCast, ← BitVec.ofInt_natCast, Int.natCast_ediv, unsignedProduct,
    ← BitVec.ofInt_natCast]
  exact splitProduct_ofInt _

/-- Settles O34: the halves of the product narrowed to 64 bits are those of the exact product. -/
theorem multiplyLeavesTheProductInHiLo : Obligations.MultiplyLeavesTheProductInHiLo := by
  refine ⟨specialEncoding_of_packR_rs_rt .mult, specialEncoding_of_packR_rs_rt .multu,
    fun s rs rt hu => ⟨?_, ?_⟩⟩
  · exact setsHiLo_of_writeHiLo hu (signedProduct_eq _ _ ▸ exec_mult s rs rt)
  · exact setsHiLo_of_writeHiLo hu (unsignedProduct_eq _ _ ▸ exec_multu s rs rt)

theorem splitProduct_append (p : BitVec 64) : (splitProduct p).hi ++ (splitProduct p).lo = p :=
  (BitVec.extractLsb'_append_extractLsb'_eq_extractLsb' rfl).trans BitVec.extractLsb'_eq_self

/-- The exact signed product fits in 64 bits (R169). -/
theorem toInt_signedProduct (a b : Word) :
    ((signedProduct a b).hi ++ (signedProduct a b).lo).toInt = a.toInt * b.toInt := by
  have hle : a.toInt * b.toInt ≤ 2 ^ 62 := BitVec.toInt_mul_toInt_le
  have hge : -2 ^ 62 ≤ a.toInt * b.toInt := BitVec.le_toInt_mul_toInt
  rw [signedProduct, splitProduct_append, BitVec.toInt_ofInt_eq_self (by decide)] <;> omega

/-- The exact unsigned product fits in 64 bits (R169). -/
theorem toNat_unsignedProduct (a b : Word) :
    ((unsignedProduct a b).hi ++ (unsignedProduct a b).lo).toNat = a.toNat * b.toNat := by
  rw [unsignedProduct, splitProduct_append, BitVec.toNat_ofNat, Nat.mod_eq_of_lt BitVec.toNat_mul_toNat_lt]

/-! ### Signed quotient and remainder (R163) -/

/-- The quotient of the magnitudes with the product of the signs is the quotient truncated toward zero. -/
theorem truncQuotient_eq_tdiv (n d : Int) : truncQuotient n d = n.tdiv d := by
  have h : ((n.natAbs / d.natAbs : Nat) : Int) = (n.tdiv d).natAbs := congrArg _ (Int.natAbs_tdiv n d).symm
  rw [truncQuotient]
  by_cases hlt : n.natAbs < d.natAbs
  · have hz : n.tdiv d = 0 := Int.sign_eq_zero_iff_zero.1 ((Int.sign_tdiv n d).trans (if_pos hlt))
    rw [h, hz, Int.natAbs_zero, Int.natCast_zero, Int.mul_zero]
  · rw [h, ← (Int.sign_tdiv n d).trans (if_neg hlt), Int.sign_mul_natAbs]

theorem signedDivide_eq (a b : Word) : signedDivide a b =
    { hi := BitVec.ofInt 32 (a.toInt.tmod b.toInt), lo := BitVec.ofInt 32 (a.toInt.tdiv b.toInt) } := by
  rw [signedDivide, truncQuotient_eq_tdiv, Int.tmod_def, Int.mul_comm]

theorem divOverflows_iff {a b : Word} :
    divOverflows a b = true ↔ a = 0x80000000#32 ∧ b = 0xFFFFFFFF#32 := by
  rw [divOverflows, Bool.and_eq_true, decide_eq_true_iff, decide_eq_true_iff]

theorem faultsWith_div_zero {s : State} {rs rt : Reg} (h : s.readX rt = 0#32) :
    FaultsWith (.div rs rt) s .divZero 0#32 :=
  faultsWith_of_exec (exec_div_zero s rs rt h)

theorem faultsWith_div_overflow {s : State} {rs rt : Reg} (hrs : s.readX rs = 0x80000000#32)
    (hrt : s.readX rt = 0xFFFFFFFF#32) : FaultsWith (.div rs rt) s .divOverflow 0#32 :=
  faultsWith_of_exec (exec_div_overflow s rs rt (hrt ▸ by decide) (divOverflows_iff.2 ⟨hrs, hrt⟩))

/-- Settles O35: the model's quotient is the truncated one, and its remainder is what that leaves. -/
theorem signedDivideTruncatesOrFaults : Obligations.SignedDivideTruncatesOrFaults := by
  refine ⟨specialEncoding_of_packR_rs_rt .div, fun s rs rt hu h0 hov => ?_,
    fun _ _ _ => faultsWith_div_zero, fun _ _ _ => faultsWith_div_overflow⟩
  exact setsHiLo_of_writeHiLo hu (signedDivide_eq _ _ ▸ exec_div s rs rt h0 (mt divOverflows_iff.1 hov))

/-- The remainder fits in 32 bits. -/
theorem toInt_signedDivide_hi (a b : Word) : (signedDivide a b).hi.toInt = a.toInt.tmod b.toInt := by
  rw [signedDivide_eq, ← BitVec.toInt_srem, BitVec.ofInt_toInt]

/-- The quotient fits in 32 bits but for -2^31 / -1. -/
theorem toInt_signedDivide_lo {a b : Word} (h : ¬(a = 0x80000000#32 ∧ b = 0xFFFFFFFF#32)) :
    (signedDivide a b).lo.toInt = a.toInt.tdiv b.toInt := by
  rw [signedDivide_eq, ← BitVec.toInt_sdiv_of_ne_or_ne a b (not_and_or.1 h), BitVec.ofInt_toInt]

theorem dividend_eq_signedDivide {a b : Word} (h : ¬(a = 0x80000000#32 ∧ b = 0xFFFFFFFF#32)) :
    a.toInt = (signedDivide a b).lo.toInt * b.toInt + (signedDivide a b).hi.toInt := by
  rw [toInt_signedDivide_lo h, toInt_signedDivide_hi, Int.tdiv_mul_add_tmod]

theorem natAbs_signedDivide_hi_lt (a : Word) {b : Word} (h : b ≠ 0#32) :
    (signedDivide a b).hi.toInt.natAbs < b.toInt.natAbs := by
  rw [toInt_signedDivide_hi, Int.natAbs_tmod]
  exact Nat.mod_lt _ (Int.natAbs_pos.2 (BitVec.toInt_zero ▸ BitVec.toInt_ne.2 h))

theorem signedDivide_hi_zero_or_sign (a b : Word) :
    (signedDivide a b).hi = 0#32 ∨ (signedDivide a b).hi.toInt.sign = a.toInt.sign := by
  by_cases hd : b.toInt ∣ a.toInt
  · exact .inl (BitVec.eq_of_toInt_eq ((toInt_signedDivide_hi a b).trans (Int.tmod_eq_zero_of_dvd hd)))
  · exact .inr (by rw [toInt_signedDivide_hi, Int.sign_tmod, if_neg hd])

/-! ### Unsigned quotient and remainder (R164) -/

theorem faultsWith_divu_zero {s : State} {rs rt : Reg} (h : s.readX rt = 0#32) :
    FaultsWith (.divu rs rt) s .divZero 0#32 :=
  faultsWith_of_exec (exec_divu_zero s rs rt h)

/-- Settles O36: DIVU writes the quotient and the remainder of the unsigned values. -/
theorem unsignedDivideOrFaults : Obligations.UnsignedDivideOrFaults :=
  ⟨specialEncoding_of_packR_rs_rt .divu,
    fun s rs rt hu h0 => setsHiLo_of_writeHiLo hu (exec_divu s rs rt h0),
    fun _ _ _ => faultsWith_divu_zero⟩

theorem toNat_unsignedDivide_lo (a b : Word) : (unsignedDivide a b).lo.toNat = a.toNat / b.toNat := by
  rw [unsignedDivide, ← BitVec.udiv_def, BitVec.toNat_udiv]

theorem toNat_unsignedDivide_hi (a b : Word) : (unsignedDivide a b).hi.toNat = a.toNat % b.toNat := by
  rw [unsignedDivide, ← BitVec.umod_def, BitVec.toNat_umod]

theorem dividend_eq_unsignedDivide (a b : Word) :
    a.toNat = (unsignedDivide a b).lo.toNat * b.toNat + (unsignedDivide a b).hi.toNat := by
  rw [toNat_unsignedDivide_lo, toNat_unsignedDivide_hi, Nat.div_add_mod']

theorem unsignedDivide_hi_lt (a : Word) {b : Word} (h : b ≠ 0#32) :
    (unsignedDivide a b).hi.toNat < b.toNat := by
  rw [toNat_unsignedDivide_hi]
  exact Nat.mod_lt _ (Nat.pos_of_ne_zero (BitVec.toNat_ne.1 h))

/-! ### The laws (R169) -/

/-- Settles O37: each law holds of the pair that the instruction writes. -/
theorem multiplyAndDivideLaws : Obligations.MultiplyAndDivideLaws := by
  refine fun s rs rt => ⟨⟨_, exec_mult s rs rt, toInt_signedProduct _ _⟩,
    ⟨_, exec_multu s rs rt, toNat_unsignedProduct _ _⟩, fun h0 hov => ?_, fun h0 => ?_,
    fun h0 => ⟨faultsWith_div_zero h0, faultsWith_divu_zero h0⟩, faultsWith_div_overflow⟩
  · exact ⟨_, exec_div s rs rt h0 (mt divOverflows_iff.1 hov), dividend_eq_signedDivide hov,
      natAbs_signedDivide_hi_lt _ h0, signedDivide_hi_zero_or_sign _ _⟩
  · exact ⟨_, exec_divu s rs rt h0, dividend_eq_unsignedDivide _ _, unsignedDivide_hi_lt _ h0⟩

/-! ### The moves (R165 to R168) -/

/-- Settles O38: a move from HI or LO reads it and writes one register. -/
theorem movesFromHiLoCopy : Obligations.MovesFromHiLoCopy :=
  ⟨specialEncoding_of_packR_rd .mfhi, specialEncoding_of_packR_rd .mflo,
    fun _ _ hu => ⟨setsRegister_of_exec hu rfl, setsRegister_of_exec hu rfl⟩⟩

/-- Settles O39: a move writes one of HI and LO, and the other is the same in both copies (R37). -/
theorem movesToHiLoCopy : Obligations.MovesToHiLoCopy := by
  refine ⟨specialEncoding_of_packR_rs .mthi, specialEncoding_of_packR_rs .mtlo, fun s rs hu => ⟨?_, ?_⟩⟩
  · rw [show s.current.lo = s.next.lo from congrArg Arch.lo hu]
    exact setsHiLo_of_exec hu rfl
  · rw [show s.current.hi = s.next.hi from congrArg Arch.hi hu]
    exact setsHiLo_of_exec hu rfl

end Sys2Proof.Machine
end

section
/-! PROOFS. Loads and stores (spec/42_load_store.md): which words they are, the effective address and its
base register, what an access that passes leaves, and the faults of the others. -/

namespace Sys2Proof.Machine

/-! ### The faults of an access (R181, R241, R244) -/

/-- An instruction takes the fault that R241 gives for it. -/
theorem faultsWith_of_instrFault {i : Instr} {s : State} {f : Fault} {addr : Word}
    (hf : instrFault s i = some (f, addr)) : FaultsWith i s f addr := by
  obtain ⟨f', addr', hf', he⟩ | ⟨hn, -⟩ := exec_cases i s
  · obtain ⟨rfl, rfl⟩ : f = f' ∧ addr = addr' := by simpa using hf.symm.trans hf'
    exact faultsWith_of_exec he
  · nomatch hn.symm.trans hf

section Access

variable {i : Instr} {s : State} {addr : Word} {n : Nat} {misaligned unmapped : Fault}

/-- The alignment test comes first, mapped or not (R244). -/
theorem faultsWith_misaligned (hi : instrFault s i = accessFault s.params addr n misaligned unmapped)
    (ha : addr.toNat % n ≠ 0) : FaultsWith i s misaligned addr :=
  faultsWith_of_instrFault (hi.trans (if_pos ha))

theorem faultsWith_unmapped (hi : instrFault s i = accessFault s.params addr n misaligned unmapped)
    (ha : addr.toNat % n = 0) (hm : ¬Mapped s.params addr.toNat) : FaultsWith i s unmapped addr := by
  refine faultsWith_of_instrFault (hi.trans ?_)
  rw [accessFault, if_neg (not_not.2 ha), if_neg (mt (mappedTest_iff _ _).1 hm)]

end Access

/-! ### The effective address and its base register (R180) -/

theorem effectiveAddress_eq_ofInt (b : Word) (imm : Imm16) :
    effectiveAddress b imm = BitVec.ofInt 32 (b.toNat + imm.toInt) := by
  rw [effectiveAddress, BitVec.ofInt_add, BitVec.ofInt_natCast, BitVec.ofNat_toNat, BitVec.setWidth_eq,
    ← toInt_immS, BitVec.ofInt_toInt]

/-- Only an instruction's destination changes what it stores, completed or faulted (R22, R243). -/
theorem exec_getElem_of_ne_destination {i : Instr} {s t : State} {r : Reg} (hu : s.Unified)
    (ht : exec i s = .next t) (hr : destination i ≠ some r) : t.current.x[r.val] = s.current.x[r.val] := by
  obtain ⟨f, addr, -, he⟩ | ⟨-, a, pw, heff, he⟩ := exec_cases i s <;>
    obtain rfl := Host.Outcome.next.inj (he.symm.trans ht)
  · rfl
  · calc a.x[r.val] = s.next.x[r.val] := heff.registers r hr
      _ = s.current.x[r.val] := by rw [show s.current = s.next from hu]

theorem exec_readX_of_ne_destination {i : Instr} {s t : State} {r : Reg} (hu : s.Unified)
    (ht : exec i s = .next t) (hr : destination i ≠ some r) : t.readX r = s.readX r := by
  rw [State.readX, State.readX, hardwired_eq, hardwired_eq, exec_params ht,
    exec_getElem_of_ne_destination hu ht hr]

/-- Settles O40: a store has no destination register, and a load's is its `rt`. -/
theorem effectiveAddressWrapsAndKeepsTheBase : Obligations.EffectiveAddressWrapsAndKeepsTheBase := by
  refine ⟨effectiveAddress_eq_ofInt, by decide, by decide, fun s t rt base imm hu h => ?_⟩
  obtain h | h | h | ⟨hne, hload⟩ := h
  · exact exec_readX_of_ne_destination hu h nofun
  · exact exec_readX_of_ne_destination hu h nofun
  · exact exec_readX_of_ne_destination hu h nofun
  · have hdest : some rt ≠ some base := mt Option.some.inj hne
    obtain h | h | h := hload <;> exact exec_readX_of_ne_destination hu h hdest

/-! ### Loads (R182 to R184) -/

/-- Settles O41: LW writes the word of the four bytes, and the fault R241 gives for it is its access's. -/
theorem loadWordReadsOrFaults : Obligations.LoadWordReadsOrFaults := by
  refine ⟨primaryEncoding_of_encodeImm .lw, ?_⟩
  rintro s rt base imm _ rfl
  exact ⟨fun hu ha hm => setsRegister_lw hu rfl ha hm, faultsWith_misaligned rfl, faultsWith_unmapped rfl⟩

/-- Settles O42: a sign extension keeps the signed value, and no address is misaligned for one byte. -/
theorem subwordLoadsSignExtendOrFault : Obligations.SubwordLoadsSignExtendOrFault := by
  refine ⟨primaryEncoding_of_encodeImm .lh, primaryEncoding_of_encodeImm .lb, ?_⟩
  rintro s rt base imm _ rfl
  exact ⟨fun hu ha hm => setsRegister_lh hu rfl ha hm, faultsWith_misaligned rfl, faultsWith_unmapped rfl,
    fun hu hm => setsRegister_lb hu rfl hm, faultsWith_unmapped rfl (Nat.mod_one _)⟩

/-! ### Stores (R185 to R187) -/

/-- Settles O43: each store is one `MemWrite` of its width, and no address is misaligned for one byte. -/
theorem storesWriteTheirBytesOrFault : Obligations.StoresWriteTheirBytesOrFault := by
  refine ⟨primaryEncoding_of_encodeImm .sw, primaryEncoding_of_encodeImm .sh,
    primaryEncoding_of_encodeImm .sb, ?_⟩
  rintro s rt base imm _ rfl
  refine ⟨fun hu hwf ha hm => ?_, faultsWith_misaligned rfl, faultsWith_unmapped rfl,
    fun hu hwf ha hm => ?_, faultsWith_misaligned rfl, faultsWith_unmapped rfl,
    fun hu hwf hm => ?_, faultsWith_unmapped rfl (Nat.mod_one _)⟩
  all_goals rw [← mappedTest_iff] at hm
  · exact storesBytes_of_exec hu hwf ha hm (exec_sw_eq_memWrite s rt base imm)
  · exact storesBytes_of_exec hu hwf ha hm (exec_sh_eq_memWrite s rt base imm)
  · exact storesBytes_of_exec hu hwf (Nat.mod_one _) hm (exec_sb_eq_memWrite s rt base imm)

end Sys2Proof.Machine
end

section
/-! PROOFS. Branches and jumps (spec/43_control.md): which words they are, where a taken branch and a jump
go, and that they change nothing else but the link. -/

namespace Sys2Proof.Machine

/-! ### Words by shape (R101 to R103, R105) -/

/-- The shape of `rs` and an immediate, with `rt` ignored. -/
theorem primaryEncoding_of_packI_rs {op : BitVec 6} (i : Reg → Imm16 → Instr)
    (hm : ∀ rs imm, (i rs imm).ignoredMask = 0x001F0000#32 := by intros; rfl)
    (he : ∀ rs imm, encode (i rs imm) = packI op (indexField rs) 0#5 imm := by intros; rfl) :
    PrimaryEncoding op fun w => i (regRs w) (fieldImm16 w) := fun w hop =>
  decodeWord_of_masked_eq_encode (by rw [hm, he, masked_eq_packI_rs_iff]; exact ⟨hop, rfl, rfl⟩)

/-- The shape of `rs` and an immediate, with `rt` selecting the instruction (R103). -/
theorem regimmEncoding_of_packI {sel : BitVec 5} (i : Reg → Imm16 → Instr)
    (hm : ∀ rs imm, (i rs imm).ignoredMask = 0x00000000#32 := by intros; rfl)
    (he : ∀ rs imm, encode (i rs imm) = packI 0x01#6 (indexField rs) sel imm := by intros; rfl) :
    RegimmEncoding sel fun w => i (regRs w) (fieldImm16 w) := fun w hop hsel =>
  decodeWord_of_masked_eq_encode (by rw [hm, he, masked_eq_regimm_iff]; exact ⟨hop, rfl, hsel, rfl⟩)

/-- The shape of a jump target. -/
theorem primaryEncoding_of_packJ {op : BitVec 6} (i : Target26 → Instr)
    (hm : ∀ target, (i target).ignoredMask = 0x00000000#32 := by intros; rfl)
    (he : ∀ target, encode (i target) = packJ op target := by intros; rfl) :
    PrimaryEncoding op fun w => i (fieldTarget26 w) := fun w hop =>
  decodeWord_of_masked_eq_encode (by rw [hm, he, masked_eq_packJ_iff]; exact ⟨hop, rfl⟩)

/-! ### Branches (R200 to R206) -/

/-- Shifting the extended offset left by 2 scales its signed value by 4. -/
theorem branchTarget_eq_ofInt (pc : Word) (imm : Imm16) :
    branchTarget pc imm = BitVec.ofInt 32 (pc.toNat + 4 + imm.toInt * 4) := by
  rw [branchTarget, BitVec.shiftLeft_eq_mul_twoPow, ← toInt_immS, BitVec.ofInt_add, BitVec.ofInt_add,
    BitVec.ofInt_mul, BitVec.ofInt_toInt, BitVec.ofInt_natCast, BitVec.ofNat_toNat, BitVec.setWidth_eq]
  rfl

/-- An instruction whose meaning is a branch on `p` (R200). -/
theorem goesTo_of_branchIf {i : Instr} {s : State} {imm : Imm16} {target : Word} {p : Prop} [Decidable p]
    (hu : s.Unified) (ht : target = BitVec.ofInt 32 (s.current.pc.toNat + 4 + imm.toInt * 4))
    (h : exec i s = .next ((Txn.start s).branchIf (decide p) imm).commit) :
    GoesTo i s (if p then target else s.current.pc + 4#32) := by
  refine goesTo_of_exec hu (h.trans ?_)
  simp only [Txn.branchIf_eq, decide_eq_true_eq, Txn.start_pc, branchTarget_eq_ofInt, ← ht]
  rfl

/-- Settles O47: BEQ and BNE branch on the two registers being equal or not. -/
theorem equalityBranchesGoWhereStated : Obligations.EqualityBranchesGoWhereStated := by
  refine ⟨primaryEncoding_of_encodeImm fun rt rs => .beq rs rt,
    primaryEncoding_of_encodeImm fun rt rs => .bne rs rt, fun s rs rt imm target hu ht => ⟨?_, ?_⟩⟩
  · exact goesTo_of_branchIf hu ht rfl
  · exact goesTo_of_branchIf hu ht (by rw [decide_not]; rfl)

/-- Settles O48: each of the four branches on its own test of the signed register. -/
theorem signBranchesGoWhereStated : Obligations.SignBranchesGoWhereStated :=
  ⟨primaryEncoding_of_packI_rs .blez, primaryEncoding_of_packI_rs .bgtz, regimmEncoding_of_packI .bltz,
    regimmEncoding_of_packI .bgez, fun _ _ _ _ hu ht => ⟨goesTo_of_branchIf hu ht rfl,
      goesTo_of_branchIf hu ht rfl, goesTo_of_branchIf hu ht rfl, goesTo_of_branchIf hu ht rfl⟩⟩

/-! ### Jumps (R207 to R210) -/

/-- The block of a jump is its pc with the low 28 bits cleared. -/
theorem jumpTarget_eq_ofNat (pc : Word) (target : Target26) :
    jumpTarget pc target = BitVec.ofNat 32 (pc.toNat / 2 ^ 28 * 2 ^ 28 + target.toNat * 4) := by
  refine BitVec.eq_of_toNat_eq ?_
  rw [jumpTarget, BitVec.toNat_append, BitVec.toNat_append, BitVec.extractLsb'_toNat,
    ← Nat.shiftLeft_add_eq_or_of_lt target.isLt, Nat.shiftRight_eq_div_pow, BitVec.toNat_ofNat,
    BitVec.toNat_ofNat, Nat.zero_mod, Nat.or_zero, Nat.shiftLeft_eq, Nat.shiftLeft_eq]
  omega

/-- Settles O49: both go to the target as the model packs it, and JAL writes its link besides. -/
theorem jumpsStayInTheirBlock : Obligations.JumpsStayInTheirBlock := by
  refine ⟨primaryEncoding_of_packJ .j, primaryEncoding_of_packJ .jal, fun s target dest hu hd => ?_⟩
  rw [hd, ← jumpTarget_eq_ofNat]
  exact ⟨goesTo_of_exec hu rfl, linksAndGoesTo_of_exec hu rfl⟩

/-- Settles O50: the target is read from the current copy, which the link does not change. -/
theorem registerJumpsGoToTheOldValue : Obligations.RegisterJumpsGoToTheOldValue :=
  ⟨specialEncoding_of_packR_rs .jr,
    fun _ hop hf => decodeWord_of_masked_eq_encode (masked_eq_packR_rs_rd_iff.2 ⟨hop, rfl, rfl, hf⟩),
    fun _ _ _ hu => ⟨goesTo_of_exec hu rfl, linksAndGoesTo_of_exec hu rfl⟩⟩

end Sys2Proof.Machine
end

section
/-! PROOFS. The halt (spec/44_system.md R230, R231): which words it is, and the transaction it commits. -/

namespace Sys2Proof.Machine

/-- The shape of op and funct alone: bits 25:6 are ignored (R105, R230). -/
theorem specialEncoding_of_packR {funct : BitVec 6} {i : Instr} (hm : i.ignoredMask = 0x03FFFFC0#32)
    (he : encode i = packR 0#5 0#5 0#5 0#5 funct) : SpecialEncoding funct fun _ => i := fun w hop hf =>
  decodeWord_of_masked_eq_encode (by rw [hm, he, masked_eq_packR_iff]; exact ⟨hop, hf⟩)

/-- The halt commits the default advance and its request, in every state (R230, R231). -/
theorem exec_syscall (s : State) : exec .syscall s =
    .next (committedTxn s { s.next with pc := s.current.pc + 4#32 } none true).commit := rfl

/-- Settles O52: the next copy differs from the current one in pc alone, and nothing is stored. -/
theorem haltStopsUnconditionally : Obligations.HaltStopsUnconditionally := by
  refine ⟨specialEncoding_of_packR rfl rfl, fun s hu => ?_⟩
  have hs : s.next = s.current := hu.symm
  refine ⟨_, exec_syscall s, ?registers, ?hiLo, fun _ => rfl, rfl, rfl, committed_commit s _ _ _⟩
  case registers => rw [hs]; rfl
  case hiLo => rw [hs]; exact ⟨rfl, rfl⟩

end Sys2Proof.Machine
end

section
/-! PROOFS. Faults (spec/60_exceptions.md R241, R243, R244): what taking one leaves, and when a step takes
one. Every other step is a commit from RUNNING, which never ends in FAULTED. -/

namespace Sys2Proof.Machine

/-- A commit stops on a halt and otherwise keeps the status (R41). -/
theorem Txn.commit_status_ne_faulted {t : Txn} (h : t.st.status = .running) :
    t.commit.status ≠ .faulted := by
  cases hh : t.halt <;> simp [hh, h]

/-- A step that ends in FAULTED took a fault (R243). -/
theorem faultTaken_of_step {s t : State} (hr : s.status = .running) (ht : step s = .next t)
    (hft : t.status = .faulted) : ∃ f addr word, FaultTaken s t f addr word := by
  cases stepTo_of_step ht with
  | idle hr' => exact absurd hr hr'
  | fault f addr w => exact ⟨f, addr, w, faultTaken_takeFault s { cause := f, addr := addr } w⟩
  | instruction => exact absurd hft (Txn.commit_status_ne_faulted hr)
  | unrecognized => exact absurd hft (Txn.commit_status_ne_faulted hr)

/-- Settles O16: the one step into FAULTED is the taking of a fault, and FAULTED is not RUNNING. -/
theorem faultsArePreciseAndTerminal : Obligations.FaultsArePreciseAndTerminal := fun _s t hr ht hft =>
  have hterminal : t.status ≠ .running := by simp [hft]
  ⟨faultTaken_of_step hr ht hft, step_not_running t hterminal, rfl⟩

/-- Settles O17, by the three things a RUNNING step can do: only the first has a tabulated fault. -/
theorem faultsAreExactlyThoseTabulated : Obligations.FaultsAreExactlyThoseTabulated := by
  refine ⟨rfl, fun s hr => ?_⟩
  cases step_cases s hr with
  | fault f addr w hf h =>
    refine ⟨_, h, ?_⟩
    simp only [hf]
    exact faultTaken_takeFault s { cause := f, addr := addr } w
  | instruction _ i a pw hn _ _ _ _ h =>
    refine ⟨_, h, ?_⟩
    simp only [hn]
    exact ⟨Txn.commit_status_ne_faulted hr, (committed_commit s a pw _).faultRecord, rfl⟩
  | unrecognized _ _ hn _ _ h =>
    refine ⟨_, h, ?_⟩
    simp only [hn]
    exact ⟨Txn.commit_status_ne_faulted hr, ⟨rfl, rfl, rfl, rfl⟩, rfl⟩

end Sys2Proof.Machine
end

section
/-! PROOFS. The host's operations (spec/70_reset_and_hazards.md): what loadProgram writes (R272, R273), the
launch state (R275), what step reports (R276), and how far runFor runs (R277). -/

namespace Sys2Proof.Machine

/-! ### Loading and launch (R272, R273, R275) -/

/-- An image that fits is written from TEXT_BASE on and kept in IMAGE (R272). -/
theorem loadProgram_of_imageFits {s : State} {words : List Word} (h : s.params.imageFits words = true) :
    loadProgram words s =
      ({ s with mem := writeImage s.params s.mem words, image := words }, .loaded words.length) :=
  if_pos h

/-- An image that does not fit is refused whole (R273). -/
theorem loadProgram_of_not_imageFits {s : State} {words : List Word}
    (h : s.params.imageFits words = false) : loadProgram words s = (s, .loadError) :=
  if_neg (by simp [h])

/-- Settles O54, by whether the image fits: what a written image leaves in memory says the rest. -/
theorem loadProgramWritesTheImageOrNothing : Obligations.LoadProgramWritesTheImageOrNothing := by
  intro s words hm
  refine ⟨fun hfits => ⟨_, loadProgram_of_imageFits (decide_eq_true hfits), rfl,
    fun k hk j hj => ?inside, fun a ha => ?outside, rfl, rfl, rfl, rfl, ⟨rfl, rfl, rfl, rfl⟩,
    ⟨rfl, rfl, rfl⟩, rfl⟩, fun hlarge => ?refused⟩
  case inside => exact Memory.byte_writeWords_inside s.mem _ words k j hm hk hj
  case outside => exact Memory.byte_writeWords_outside s.mem _ words a hm ha
  case refused => exact loadProgram_of_not_imageFits (decide_eq_false (Nat.not_le.2 hlarge))

/-- The launch state is the initialized state but for memory and IMAGE (R275). -/
theorem launch_of_imageFits {p : Params} {words : List Word} (h : p.imageFits words = true) :
    State.launch p words =
      { State.initialized p with mem := writeImage p [] words, image := words } :=
  congrArg Prod.fst (loadProgram_of_imageFits (s := State.initialized p) h)

/-- A reset after loading forgets the state but for its parameters (R274, R275). -/
theorem hostReset_loadProgram {s : State} {words : List Word} (h : s.params.imageFits words = true) :
    hostReset (loadProgram words s).1 = State.launch s.params words := by
  rw [loadProgram_of_imageFits h, launch_of_imageFits h]
  rfl

/-- Settles O55: the launch state is the initialized state with the image, and so is the reset state. -/
theorem launchIsResetAfterLoading : Obligations.LaunchIsResetAfterLoading := by
  intro p words hfits
  have hlaunch := launch_of_imageFits hfits
  refine ⟨?zeroed, holdsExactly_of_mem (congrArg State.mem hlaunch), congrArg State.image hlaunch,
    congrArg State.params hlaunch, ?reset⟩
  case zeroed => rw [hlaunch]; exact (zeroed_initialized p).with_mem_image _ _
  case reset => rintro s rfl; exact hostReset_loadProgram hfits

/-! ### One step and its report (R276) -/

/-- A step is never refused and never left without a next state. -/
theorem step_eq_next_stepState (s : State) : step s = .next (stepState s) := by
  obtain ⟨t, ht⟩ : ∃ t, step s = .next t := by
    by_cases hr : s.status = .running
    · cases step_cases s hr with
      | fault _ _ _ _ h | instruction _ _ _ _ _ _ _ _ _ h | unrecognized _ _ _ _ _ h => exact ⟨_, h⟩
    · exact ⟨s, step_not_running s hr⟩
  simp only [stepState, ht]

section Reports
variable {s : State}

theorem stepState_of_not_running (h : s.status ≠ .running) : stepState s = s :=
  Host.Outcome.next.inj ((step_eq_next_stepState s).symm.trans (step_not_running s h))

theorem stepResult_of_not_running (h : s.status ≠ .running) : stepResult s = .notRunning := by
  cases hs : s.status with
  | running => exact absurd hs h
  | stopped | faulted => simp only [stepResult, hs]

theorem stepResult_ok (h : s.status = .running) (ht : (stepState s).status = .running) :
    stepResult s = .ok := by
  simp only [stepResult, h, ht]

theorem stepResult_halted (h : s.status = .running) (ht : (stepState s).status = .stopped) :
    stepResult s = .halted := by
  simp only [stepResult, h, ht]

theorem stepResult_faulted (h : s.status = .running) (ht : (stepState s).status = .faulted) :
    stepResult s = .faulted := by
  simp only [stepResult, h, ht]

end Reports

/-- Settles O10: the next state is `stepState`, whose status the report names. -/
theorem stepReportsItsResult : Obligations.StepReportsItsResult := by
  refine fun s => ⟨fun h => ⟨step_not_running s h, ?idle⟩, fun h =>
    ⟨stepState s, step_eq_next_stepState s, fun ht => congrArg (Prod.mk _) (stepResult_ok h ht),
      fun ht => congrArg (Prod.mk _) (stepResult_halted h ht),
      fun ht => congrArg (Prod.mk _) (stepResult_faulted h ht)⟩⟩
  case idle => rw [hostStep, stepState_of_not_running h, stepResult_of_not_running h]

/-! ### Runs of at most `n` steps (R277) -/

theorem runSteps_of_not_running {s : State} (h : s.status ≠ .running) (n : Nat) : runSteps n s = (s, 0) := by
  cases n with
  | zero => rfl
  | succ n => simp only [runSteps, stepResult_of_not_running h]

/-- A run from a RUNNING state is one step, counted unless it faults, and the run from where it leads: a
run from there stops at once when the step halted or faulted. -/
theorem runSteps_succ_of_running {s : State} (h : s.status = .running) (n : Nat) :
    runSteps (n + 1) s = ((runSteps n (stepState s)).1,
      (runSteps n (stepState s)).2 + if (stepState s).status = .faulted then 0 else 1) := by
  cases ht : (stepState s).status with
  | running => simp [runSteps, stepResult_ok h ht]
  | stopped => simp [runSteps, stepResult_halted h ht, runSteps_of_not_running (s := stepState s), ht]
  | faulted => simp [runSteps, stepResult_faulted h ht, runSteps_of_not_running (s := stepState s), ht]

/-- A run of at most `n` steps from `s` makes `k` of them: each is from a RUNNING state, and there is no
next one. -/
structure MakesSteps (n : Nat) (s : State) (k : Nat) : Prop where
  le : k ≤ n
  running : ∀ j, j < k → (stepState^[j] s).status = .running
  ended : k = n ∨ (stepState^[k] s).status ≠ .running

/-- One more step, made before the others. -/
theorem MakesSteps.succ {n k : Nat} {s : State} (h : s.status = .running)
    (hk : MakesSteps n (stepState s) k) : MakesSteps (n + 1) s (k + 1) where
  le := Nat.succ_le_succ hk.le
  running j hj := by
    cases j with
    | zero => exact h
    | succ j => exact hk.running j (Nat.lt_of_succ_lt_succ hj)
  ended := hk.ended.imp_left (congrArg (· + 1))

/-- The committed steps among `k` that lead to `t`: all, but for a last one that faulted (R31, R277). -/
def committedSteps (k : Nat) (t : State) : Nat := if t.status = .faulted then k - 1 else k

/-- The step made before `k` others is one more that committed, unless it faulted: then it was the last. -/
theorem MakesSteps.committedSteps_succ {n k : Nat} {t : State} (hk : MakesSteps n t k) :
    committedSteps (k + 1) (stepState^[k] t) =
      committedSteps k (stepState^[k] t) + if t.status = .faulted then 0 else 1 := by
  cases k with
  | zero => by_cases ht : t.status = .faulted <;> simp [committedSteps, ht]
  | succ k =>
    have ht : t.status = .running := hk.running 0 k.succ_pos
    simp only [committedSteps, ht]
    split <;> rfl

/-- `runSteps` makes steps as `MakesSteps` says, and answers where they lead and how many committed. -/
theorem runSteps_makesSteps (n : Nat) (s : State) : ∃ k, MakesSteps n s k ∧
    runSteps n s = (stepState^[k] s, committedSteps k (stepState^[k] s)) := by
  induction n generalizing s with
  | zero => exact ⟨0, ⟨le_rfl, nofun, .inl rfl⟩, by simp [runSteps, committedSteps]⟩
  | succ n ih =>
    by_cases h : s.status = .running
    · obtain ⟨k, hk, hrun⟩ := ih (stepState s)
      refine ⟨k + 1, hk.succ h, ?_⟩
      rw [runSteps_succ_of_running h, hrun, Function.iterate_succ_apply, hk.committedSteps_succ]
    · exact ⟨0, ⟨Nat.zero_le _, nofun, .inr h⟩, by simp [runSteps_of_not_running h, committedSteps]⟩

theorem runFor_of_not_running {s : State} (h : s.status ≠ .running) (n : Nat) :
    runFor n s = (s, .notRunning) := by
  cases hs : s.status with
  | running => exact absurd hs h
  | stopped | faulted => simp only [runFor, hs]

theorem runFor_of_running {s : State} (h : s.status = .running) (n : Nat) :
    runFor n s = ((runSteps n s).1, .ran (runSteps n s).2 (runSteps n s).1.status) := by
  simp only [runFor, h]

/-- Settles O57, by the steps that `runSteps` makes. -/
theorem runForStopsEarlyAndCountsCommits : Obligations.RunForStopsEarlyAndCountsCommits := by
  refine fun n s => ⟨fun h => runFor_of_not_running h n, fun h => ?_⟩
  obtain ⟨k, hk, hrun⟩ := runSteps_makesSteps n s
  rw [runFor_of_running h, hrun]
  exact ⟨k, hk.le, rfl, hk.running, hk.ended, rfl⟩

end Sys2Proof.Machine
end

section
/-! PROOFS. Encoding and decode (spec/30_encoding.md): the round trip (R90, R100 to R103), the rows of
spec/opcode_table.json, the spec's sample words, and the step that runs what the decoder reads (R40). -/

namespace Sys2Proof.Laws.RowMatch

/-- Every instruction's own word: the lemmas of this family, in the order of the constructors. -/
theorem statement (i : Instr) : Statement i :=
  Instr.rec (motive := Statement) add addu sub subu addi addiu and or xor nor andi ori xori sll srl sra slt
    slti lui mult multu div divu mfhi mflo mthi mtlo lw lh lb sw sh sb beq bne blez bgtz bltz bgez j jal jr jalr
    syscall i

end Sys2Proof.Laws.RowMatch

namespace Sys2Proof

/-! ### Decoding what was encoded (R90, R100 to R103) -/

/-- Clearing bits that are 0 changes nothing. -/
theorem and_not_eq_self {w : Nat} {x m : BitVec w} (h : x &&& m = 0#w) : x &&& ~~~m = x := by
  have hbits : (x &&& m) ||| (x &&& ~~~m) = x := by
    rw [← BitVec.and_or_distrib_left]; simp
  rwa [h, BitVec.zero_or] at hbits

theorem decodeWord_encode (i : Instr) : decodeWord (encode i) = .ok i :=
  decodeWord_of_masked_eq_encode (and_not_eq_self (Laws.RowMatch.statement i).2)

/-- The decoder reads one word, little-endian, and leaves the bytes after it (R67, R90). -/
theorem decode_eq_ok_iff {b0 b1 b2 b3 : Byte} {bytes rest : List Byte} {i : Instr} :
    decode (b0 :: b1 :: b2 :: b3 :: bytes) = .ok (i, rest) ↔
      decodeWord (wordOfBytes b0 b1 b2 b3) = .ok i ∧ bytes = rest := by
  cases h : decodeWord (wordOfBytes b0 b1 b2 b3) <;> simp [decode, h]

/-- Settles O1: the ignored bits of an encoded word are 0, and its four bytes put together are the word. -/
theorem decodeOfEncodeIsIdentity : Obligations.DecodeOfEncodeIsIdentity := by
  refine fun i rest => ⟨decodeWord_encode i, decode_eq_ok_iff.2 ⟨?_, rfl⟩⟩
  rw [Machine.wordOfBytes_byteOf, decodeWord_encode]

/-! ### The rows of the opcode table (R101 to R103) -/

theorem Instr.row_mem_opcodeTable (i : Instr) : i.row ∈ opcodeTable := by
  cases i <;> exact of_decide_eq_true rfl

/-- No instruction ignores a bit that its row fixes (R105). -/
theorem Instr.rowMask_and_ignoredMask (i : Instr) : i.row.mask &&& i.ignoredMask = 0#32 := by
  cases i <;>
    simp [Instr.row, OpcodeRow.special, OpcodeRow.regimm, OpcodeRow.primary, Instr.ignoredMask]

/-- A word that decodes has the fixed bits of its instruction's row, as the encoded word has. -/
theorem row_hits_of_decodeWord {w : Word} {i : Instr} (h : decodeWord w = .ok i) : i.row.hits w :=
  calc w &&& i.row.mask
    _ = w &&& ~~~i.ignoredMask &&& i.row.mask := by
      rw [BitVec.and_assoc, BitVec.and_comm (~~~_), and_not_eq_self i.rowMask_and_ignoredMask]
    _ = encode i &&& i.row.mask := by rw [masked_eq_encode_of_decodeWord h]
    _ = i.row.pattern := (Laws.RowMatch.statement i).1

theorem packI_inj {op op' : BitVec 6} {rs rs' rt rt' : BitVec 5} {imm imm' : Imm16} :
    packI op rs rt imm = packI op' rs' rt' imm' ↔ op = op' ∧ rs = rs' ∧ rt = rt' ∧ imm = imm' := by
  refine ⟨fun h => ⟨?_, ?_, ?_, ?_⟩, fun ⟨hop, hrs, hrt, himm⟩ => by rw [hop, hrs, hrt, himm]⟩
  · simpa using congrArg fieldOp h
  · simpa using congrArg fieldRs h
  · simpa using congrArg fieldRt h
  · simpa using congrArg fieldImm16 h

/-- The row of the SPECIAL map for a `funct` (R102). -/
def specialRow (funct : BitVec 6) : OpcodeRow := .special (packR 0#5 0#5 0#5 0#5 funct)

/-- The row of the REGIMM map for an `rt` (R103). -/
def regimmRow (sel : BitVec 5) : OpcodeRow := .regimm (packI 0x01#6 0#5 sel 0#16)

/-- The row of R101's map for an `op`. -/
def primaryRow (op : BitVec 6) : OpcodeRow := .primary (packI op 0#5 0#5 0#16)

theorem specialRow_hits_iff {funct : BitVec 6} {w : Word} :
    (specialRow funct).hits w ↔ fieldOp w = 0x00#6 ∧ fieldFunct w = funct := by
  refine (and_eq_packR_iff (ms := 0#5) (mt := 0#5) (md := 0#5) (mh := 0#5) rfl).trans ?_
  simp only [BitVec.and_zero, true_and]

theorem regimmRow_hits_iff {sel : BitVec 5} {w : Word} :
    (regimmRow sel).hits w ↔ fieldOp w = 0x01#6 ∧ fieldRt w = sel := by
  have hmask : w &&& 0xFC1F0000#32 = packI (fieldOp w) 0#5 (fieldRt w) 0#16 := by
    conv_lhs => rw [← word_eq_fieldsI w, packI_regimm]
  show w &&& 0xFC1F0000#32 = packI 0x01#6 0#5 sel 0#16 ↔ _
  simp only [hmask, packI_inj, true_and, and_true]

theorem primaryRow_hits_iff {op : BitVec 6} {w : Word} : (primaryRow op).hits w ↔ fieldOp w = op := by
  have hmask : w &&& 0xFC000000#32 = packI (fieldOp w) 0#5 0#5 0#16 := by
    conv_lhs => rw [← word_eq_fieldsI w, packI_primary]
  show w &&& 0xFC000000#32 = packI op 0#5 0#5 0#16 ↔ _
  simp only [hmask, packI_inj, and_true]

/-- The keys of R102. -/
def specialFuncts : List (BitVec 6) :=
  [0x00#6, 0x02#6, 0x03#6, 0x08#6, 0x09#6, 0x0C#6, 0x10#6, 0x11#6, 0x12#6, 0x13#6, 0x18#6, 0x19#6,
   0x1A#6, 0x1B#6, 0x20#6, 0x21#6, 0x22#6, 0x23#6, 0x24#6, 0x25#6, 0x26#6, 0x27#6, 0x2A#6]

/-- The keys of R101 that name an instruction by themselves. -/
def primaryOps : List (BitVec 6) :=
  [0x02#6, 0x03#6, 0x04#6, 0x05#6, 0x06#6, 0x07#6, 0x08#6, 0x09#6, 0x0A#6, 0x0C#6, 0x0D#6, 0x0E#6, 0x0F#6,
   0x20#6, 0x21#6, 0x23#6, 0x28#6, 0x29#6, 0x2B#6]

/-- The rows are those of the decoder's keys. -/
theorem opcodeTable_eq : opcodeTable =
    specialFuncts.map specialRow ++ [0x00#5, 0x01#5].map regimmRow ++ primaryOps.map primaryRow := rfl

theorem decodeSpecial_row {w : Word} (h : fieldFunct w ∈ specialFuncts) :
    ∃ i, decodeSpecial w = .ok i ∧ i.row = specialRow (fieldFunct w) := by
  unfold decodeSpecial
  split
  case h_24 => simp_all [specialFuncts]
  all_goals exact ⟨_, rfl, by simp only [*]; rfl⟩

theorem decodeRegimm_row {w : Word} (h : fieldRt w ∈ [0x00#5, 0x01#5]) :
    ∃ i, decodeRegimm w = .ok i ∧ i.row = regimmRow (fieldRt w) := by
  unfold decodeRegimm
  split
  case h_3 => simp_all
  all_goals exact ⟨_, rfl, by simp only [*]; rfl⟩

theorem decodeWord_row_of_primary {w : Word} (h : fieldOp w ∈ primaryOps) :
    ∃ i, decodeWord w = .ok i ∧ i.row = primaryRow (fieldOp w) := by
  unfold decodeWord
  split
  case h_1 | h_2 | h_22 => simp_all [primaryOps]
  all_goals exact ⟨_, rfl, by simp only [*]; rfl⟩

/-- A word with the fixed bits of a row of the table decodes to an instruction of the row. -/
theorem decodeWord_row_of_hits {w : Word} {row : OpcodeRow} (hrow : row ∈ opcodeTable) (hw : row.hits w) :
    ∃ i, decodeWord w = .ok i ∧ i.row = row := by
  rw [opcodeTable_eq, List.mem_append, List.mem_append] at hrow
  simp only [List.mem_map] at hrow
  obtain (⟨funct, hmem, rfl⟩ | ⟨sel, hmem, rfl⟩) | ⟨op, hmem, rfl⟩ := hrow
  · obtain ⟨hop, rfl⟩ := specialRow_hits_iff.1 hw
    simp only [decodeWord, hop]
    exact decodeSpecial_row hmem
  · obtain ⟨hop, rfl⟩ := regimmRow_hits_iff.1 hw
    simp only [decodeWord, hop]
    exact decodeRegimm_row hmem
  · obtain rfl := primaryRow_hits_iff.1 hw
    exact decodeWord_row_of_primary hmem

/-- Settles O3: the encoded word has its row's bits, and the decoder's keys are the rows'. -/
theorem opcodeTableRowsDecideTheInstruction : Obligations.OpcodeTableRowsDecideTheInstruction :=
  ⟨fun _ i h => ⟨i.row_mem_opcodeTable, row_hits_of_decodeWord h⟩, fun _ _ => decodeWord_row_of_hits⟩

/-- Settles O6: each word is decoded. -/
theorem sampleWordsDecode : Obligations.SampleWordsDecode :=
  ⟨rfl, rfl, rfl, rfl, rfl, rfl, rfl, rfl, rfl, rfl⟩

end Sys2Proof

namespace Sys2Proof.Machine

/-- Settles O8: the four bytes are the word that the step fetches. -/
theorem stepRunsTheDecodedInstruction : Obligations.StepRunsTheDecodedInstruction := by
  intro s i rest hr ha hm hd
  obtain ⟨hword, -⟩ := decode_eq_ok_iff.1 hd
  rw [step_of_fetches s _ hr (fetches_read32 s ha ((mappedTest_iff _ _).2 hm)), Memory.read32, hword]

end Sys2Proof.Machine
end

section
/-! PROOFS. What an instruction may change: registers (spec/10_state.md R22), HI and LO (R27) and memory
(spec/20_memory.md R60), that it always has a next state, and what a return from a call reads (R211). -/

namespace Sys2Proof.Machine

/-- Settles O11: an instruction takes its fault or commits, and both are next states. -/
theorem everyStateHasOneSuccessor : Obligations.EveryStateHasOneSuccessor := by
  refine ⟨fun i s => ?_, fun s => ⟨_, step_eq_next_stepState s⟩⟩
  obtain ⟨_, _, -, he⟩ | ⟨-, _, _, -, he⟩ := exec_cases i s <;> exact ⟨_, he⟩

/-- Settles O20, by the frame of the registers, read and stored. -/
theorem onlyTheListedInstructionsWriteRegisters : Obligations.OnlyTheListedInstructionsWriteRegisters :=
  fun _ _ _ hu ht _ hr => ⟨exec_readX_of_ne_destination hu ht hr, exec_getElem_of_ne_destination hu ht hr⟩

/-- Settles O22: a fault stores nothing, and a commit stores the one write of `ExecEffect`. -/
theorem onlyStoresChangeMemory : Obligations.OnlyStoresChangeMemory := by
  intro i s t hwf ht
  obtain ⟨f, addr, -, he⟩ | ⟨-, a, pw, heff, he⟩ := exec_cases i s <;>
    obtain rfl := Host.Outcome.next.inj (he.symm.trans ht)
  · exact ⟨fun _ _ => rfl, fun _ _ _ _ _ => rfl⟩
  · refine ⟨fun hnone _ => ?_, fun addr n hstore c hc => ?_⟩
    · obtain rfl := heff.noStore hnone
      rfl
    · obtain ⟨v, r, rfl, -⟩ := heff.store addr n hstore
      exact (Memory.byte_write s.mem addr.toNat v n c hwf).trans (if_neg hc)

/-! ### HI and LO (R27) -/

/-- HI or LO. -/
inductive Accumulator where
  | hi
  | lo

/-- The accumulator set to `v` in one copy of the architectural state. -/
def Arch.setAccum (a : Arch) (v : Word) : Accumulator → Arch
  | .hi => { a with hi := v }
  | .lo => { a with lo := v }

/-- What the other accumulator holds. -/
def Arch.otherAccum (a : Arch) : Accumulator → Word
  | .hi => a.lo
  | .lo => a.hi

/-- The instruction that reads the accumulator, MFHI or MFLO. -/
def Accumulator.moveFrom (rd : Reg) : Accumulator → Instr
  | .hi => .mfhi rd
  | .lo => .mflo rd

/-- The state with the accumulator holding `v` in the current copy and `w` in the next. -/
def State.withAccum (s : State) (k : Accumulator) (v w : Word) : State :=
  { s with current := s.current.setAccum v k, next := s.next.setAccum w k }

/-- The step in progress, from the state with another accumulator. -/
def Txn.withAccum (t : Txn) (k : Accumulator) (v w : Word) : Txn := { t with st := t.st.withAccum k v w }

theorem pokeHi_eq_withAccum (v : Word) (s : State) : pokeHi v s = s.withAccum .hi v v := rfl

theorem pokeLo_eq_withAccum (v : Word) (s : State) : pokeLo v s = s.withAccum .lo v v := rfl

/-- An instruction's rule does the same whatever the accumulator holds in either copy, but for what it then
holds in the next copy. -/
def IgnoresAccum (k : Accumulator) (body : Txn → Except Raise Txn) : Prop :=
  ∀ t v w, ∃ w', body (t.withAccum k v w) = (body t).map (·.withAccum k v w')

section Rules
variable {k : Accumulator}

@[simp] theorem State.readX_withAccum (s : State) (v w : Word) (r : Reg) :
    (s.withAccum k v w).readX r = s.readX r := by
  cases k <;> rfl

@[simp] theorem Txn.readX_withAccum (t : Txn) (v w : Word) (r : Reg) :
    (t.withAccum k v w).readX r = t.readX r :=
  t.st.readX_withAccum v w r

@[simp] theorem Txn.pc_withAccum (t : Txn) (v w : Word) : (t.withAccum k v w).pc = t.pc := by
  cases k <;> rfl

theorem Txn.writeX_withAccum (t : Txn) (v w : Word) (r : Reg) (x : Word) :
    (t.withAccum k v w).writeX r x = (t.writeX r x).withAccum k v w := by
  have hw : hardwired (t.withAccum k v w).st r = hardwired t.st r := rfl
  unfold Txn.writeX
  rw [hw]
  cases hardwired t.st r <;> cases k <;> rfl

theorem Txn.writePc_withAccum (t : Txn) (v w : Word) (target : Word) :
    (t.withAccum k v w).writePc target = (t.writePc target).withAccum k v w := by
  cases k <;> rfl

theorem Txn.branchIf_withAccum (t : Txn) (v w : Word) (taken : Bool) (imm : Imm16) :
    (t.withAccum k v w).branchIf taken imm = (t.branchIf taken imm).withAccum k v w := by
  cases taken
  · rfl
  · simp only [Txn.branchIf, if_true, Txn.pc_withAccum, Txn.writePc_withAccum]

theorem ignoresAccum_ok {f : Txn → Txn}
    (hf : ∀ t v w, ∃ w', f (t.withAccum k v w) = (f t).withAccum k v w') :
    IgnoresAccum k fun t => .ok (f t) :=
  fun t v w => (hf t v w).imp fun _ h => congrArg Except.ok h

/-- A rule that leaves the accumulator alone. -/
theorem ignoresAccum_of_commutes {f : Txn → Txn}
    (hf : ∀ t v w, f (t.withAccum k v w) = (f t).withAccum k v w) : IgnoresAccum k fun t => .ok (f t) :=
  ignoresAccum_ok fun t v w => ⟨w, hf t v w⟩

theorem ignoresAccum_error (e : Raise) : IgnoresAccum k fun _ => .error e :=
  fun _ _ w => ⟨w, rfl⟩

theorem ignoresAccum_ite {p : Txn → Prop} [DecidablePred p] {f g : Txn → Except Raise Txn}
    (hp : ∀ t v w, p (t.withAccum k v w) ↔ p t) (hf : IgnoresAccum k f) (hg : IgnoresAccum k g) :
    IgnoresAccum k fun t => if p t then f t else g t := by
  intro t v w
  by_cases h : p t
  · simpa only [hp, h, if_true] using hf t v w
  · simpa only [hp, h, if_false] using hg t v w

/-- A load: what it reads decides whether it faults or writes a register. -/
theorem ignoresAccum_load {α : Type} {body : Txn → Except Raise Txn} (rt : Reg)
    (read : Txn → Except Raise α) (value : α → Word)
    (hread : ∀ t v w, read (t.withAccum k v w) = read t)
    (hbody : ∀ t, body t = (read t).map fun x => t.writeX rt (value x)) : IgnoresAccum k body := by
  intro t v w
  refine ⟨w, ?_⟩
  rw [hbody, hbody, hread]
  cases read t with
  | ok x => exact congrArg Except.ok (t.writeX_withAccum v w rt (value x))
  | error e => rfl

/-- A store: the check reads the parameters alone. -/
theorem ignoresAccum_store {addr x : Txn → Word} (n : Nat)
    (haddr : ∀ t v w, addr (t.withAccum k v w) = addr t) (hx : ∀ t v w, x (t.withAccum k v w) = x t) :
    IgnoresAccum k fun t => t.memWrite (addr t) n (x t) := by
  intro t v w
  refine ⟨w, ?_⟩
  have hparams : (t.withAccum k v w).st.params = t.st.params := rfl
  simp only [haddr, hx, Txn.memWrite, hparams]
  cases check t.st.params (addr t) n .store <;> rfl

/-- A multiply or divide: what it leaves does not depend on what it overwrites. -/
theorem ignoresAccum_writeHiLo {p : Txn → HiLo} (hp : ∀ t v w, p (t.withAccum k v w) = p t) :
    IgnoresAccum k fun t => .ok (t.writeHiLo (p t)) := by
  refine ignoresAccum_ok fun t v w => ?_
  rw [hp]
  cases k
  · exact ⟨(p t).hi, rfl⟩
  · exact ⟨(p t).lo, rfl⟩

theorem ignoresAccum_writeX (rd : Reg) {x : Txn → Word} (hx : ∀ t v w, x (t.withAccum k v w) = x t) :
    IgnoresAccum k fun t => .ok (t.writeX rd (x t)) :=
  ignoresAccum_of_commutes fun t v w => by rw [hx, Txn.writeX_withAccum]

theorem ignoresAccum_writePc {x : Txn → Word} (hx : ∀ t v w, x (t.withAccum k v w) = x t) :
    IgnoresAccum k fun t => .ok (t.writePc (x t)) :=
  ignoresAccum_of_commutes fun t v w => by rw [hx, Txn.writePc_withAccum]

theorem ignoresAccum_branchIf {taken : Txn → Bool} (imm : Imm16)
    (ht : ∀ t v w, taken (t.withAccum k v w) = taken t) :
    IgnoresAccum k fun t => .ok (t.branchIf (taken t) imm) :=
  ignoresAccum_of_commutes fun t v w => by rw [ht, Txn.branchIf_withAccum]

theorem ignoresAccum_link (rd : Reg) {x target : Txn → Word} (hx : ∀ t v w, x (t.withAccum k v w) = x t)
    (ht : ∀ t v w, target (t.withAccum k v w) = target t) :
    IgnoresAccum k fun t => .ok ((t.writeX rd (x t)).writePc (target t)) :=
  ignoresAccum_of_commutes fun t v w => by rw [hx, ht, Txn.writeX_withAccum, Txn.writePc_withAccum]

end Rules

/-- Every instruction but the one that reads the accumulator is the transaction of a rule that ignores it. -/
theorem exec_ignoresAccum (k : Accumulator) (i : Instr) (hi : ∀ rd, i ≠ k.moveFrom rd) :
    ∃ body, (∀ s, exec i s = perform s body) ∧ IgnoresAccum k body := by
  unfold exec
  cases i with
  | add rd rs rt | addu rd rs rt | sub rd rs rt | subu rd rs rt | and rd rs rt | or rd rs rt | xor rd rs rt
  | nor rd rs rt | slt rd rs rt | sll rd rt n | srl rd rt n | sra rd rt n
  | addi rd rs imm | addiu rd rs imm | andi rd rs imm | ori rd rs imm | xori rd rs imm | slti rd rs imm
  | lui rd imm =>
    exact ⟨_, fun _ => rfl, ignoresAccum_writeX rd fun t v w => by simp⟩
  | mfhi rd =>
    cases k
    · exact absurd rfl (hi rd)
    · exact ⟨_, fun _ => rfl, ignoresAccum_writeX rd fun _ _ _ => rfl⟩
  | mflo rd =>
    cases k
    · exact ⟨_, fun _ => rfl, ignoresAccum_writeX rd fun _ _ _ => rfl⟩
    · exact absurd rfl (hi rd)
  | mult rs rt | multu rs rt =>
    exact ⟨_, fun _ => rfl, ignoresAccum_writeHiLo fun t v w => by simp⟩
  | mthi rs =>
    refine ⟨_, fun _ => rfl, ignoresAccum_ok fun t v w => ?_⟩
    cases k
    · exact ⟨t.readX rs, rfl⟩
    · exact ⟨w, rfl⟩
  | mtlo rs =>
    refine ⟨_, fun _ => rfl, ignoresAccum_ok fun t v w => ?_⟩
    cases k
    · exact ⟨w, rfl⟩
    · exact ⟨t.readX rs, rfl⟩
  | div rs rt =>
    exact ⟨_, fun _ => rfl, ignoresAccum_ite (fun t v w => by simp) (ignoresAccum_error _)
      (ignoresAccum_ite (fun t v w => by simp) (ignoresAccum_error _)
        (ignoresAccum_writeHiLo fun t v w => by simp))⟩
  | divu rs rt =>
    exact ⟨_, fun _ => rfl, ignoresAccum_ite (fun t v w => by simp) (ignoresAccum_error _)
      (ignoresAccum_writeHiLo fun t v w => by simp)⟩
  | lw rt base imm =>
    exact ⟨_, fun _ => rfl, ignoresAccum_load rt (fun t => memRead32 t.st (t.ea base imm) .load) id
      (fun t v w => by cases k <;> rfl) fun t => by cases memRead32 t.st (t.ea base imm) .load <;> rfl⟩
  | lh rt base imm =>
    exact ⟨_, fun _ => rfl, ignoresAccum_load rt (fun t => memRead16 t.st (t.ea base imm))
      (·.signExtend 32) (fun t v w => by cases k <;> rfl)
      fun t => by cases memRead16 t.st (t.ea base imm) <;> rfl⟩
  | lb rt base imm =>
    exact ⟨_, fun _ => rfl, ignoresAccum_load rt (fun t => memRead8 t.st (t.ea base imm))
      (·.signExtend 32) (fun t v w => by cases k <;> rfl)
      fun t => by cases memRead8 t.st (t.ea base imm) <;> rfl⟩
  | sw rt base imm | sh rt base imm | sb rt base imm =>
    exact ⟨_, fun _ => rfl, ignoresAccum_store _ (fun t v w => by simp [Txn.ea]) fun t v w => by simp⟩
  | beq rs rt imm | bne rs rt imm | blez rs imm | bgtz rs imm | bltz rs imm | bgez rs imm =>
    exact ⟨_, fun _ => rfl, ignoresAccum_branchIf imm fun t v w => by simp⟩
  | j target | jr rs => exact ⟨_, fun _ => rfl, ignoresAccum_writePc fun t v w => by simp⟩
  | jal target =>
    exact ⟨_, fun _ => rfl, ignoresAccum_link 31 (fun t v w => by simp) fun t v w => by simp⟩
  | jalr rd rs =>
    exact ⟨_, fun _ => rfl, ignoresAccum_link rd (fun t v w => by simp) fun t v w => by simp⟩
  | syscall => exact ⟨_, fun _ => rfl, ignoresAccum_of_commutes fun _ _ _ => rfl⟩

/-- What two answers have in common when only the accumulator's old value tells their steps apart (R27). -/
structure AgreeBesideAccum (k : Accumulator) (t u : State) : Prop where
  registers : SameRegisters t u
  pc : u.current.pc = t.current.pc
  other : u.current.otherAccum k = t.current.otherAccum k
  memory : SameBytes t u
  status : u.status = t.status
  icount : u.icount = t.icount

/-- A rule that ignores the accumulator, run as a transaction. -/
theorem perform_withAccum {k : Accumulator} {body : Txn → Except Raise Txn} (hb : IgnoresAccum k body)
    {s t : State} (h : perform s body = .next t) (v : Word) :
    ∃ u, perform (s.withAccum k v v) body = .next u ∧ AgreeBesideAccum k t u := by
  have hstart : Txn.start (s.withAccum k v v) = (Txn.start s).withAccum k v v := by cases k <;> rfl
  obtain ⟨w', hbody'⟩ := hb (Txn.start s) v v
  rw [← hstart] at hbody'
  cases hbody : body (Txn.start s) with
  | error e =>
    obtain rfl := Host.Outcome.next.inj ((perform_error s body e hbody).symm.trans h)
    rw [hbody] at hbody'
    refine ⟨_, perform_error _ body e hbody', ?_⟩
    cases k <;> exact ⟨rfl, rfl, rfl, fun _ => rfl, rfl, rfl⟩
  | ok a =>
    obtain rfl := Host.Outcome.next.inj ((perform_ok s body a hbody).symm.trans h)
    rw [hbody] at hbody'
    refine ⟨_, perform_ok _ body _ hbody', ?_⟩
    cases k <;> exact ⟨rfl, rfl, rfl, fun _ => rfl, rfl, rfl⟩

theorem exec_withAccum {k : Accumulator} {i : Instr} {s t : State} (h : exec i s = .next t)
    (hi : ∀ rd, i ≠ k.moveFrom rd) (v : Word) :
    ∃ u, exec i (s.withAccum k v v) = .next u ∧ AgreeBesideAccum k t u := by
  obtain ⟨body, hexec, hb⟩ := exec_ignoresAccum k i hi
  rw [hexec] at h ⊢
  exact perform_withAccum hb h v

/-- HI and LO after an instruction that does not write them. -/
theorem exec_hi_lo {i : Instr} {s t : State} (hu : s.Unified) (ht : exec i s = .next t) :
    (writesHi i = false → t.current.hi = s.current.hi) ∧
      (writesLo i = false → t.current.lo = s.current.lo) := by
  obtain ⟨f, addr, -, he⟩ | ⟨-, a, pw, heff, he⟩ := exec_cases i s <;>
    obtain rfl := Host.Outcome.next.inj (he.symm.trans ht)
  · exact ⟨fun _ => rfl, fun _ => rfl⟩
  · exact ⟨fun h => (heff.hi h).trans (congrArg Arch.hi hu.symm),
      fun h => (heff.lo h).trans (congrArg Arch.lo hu.symm)⟩

/-- Settles O21: the writers by `ExecEffect`, the readers by `exec_withAccum` for HI and for LO. -/
theorem hiLoAreReachedOnlyByTheirInstructions : Obligations.HiLoAreReachedOnlyByTheirInstructions := by
  refine ⟨fun i s t hu ht => exec_hi_lo hu ht, fun i s t v ht hi => ?_, fun i s t v ht hi => ?_,
    fun s v => ⟨rfl, rfl, rfl, rfl⟩⟩
  · obtain ⟨u, hu, hx, hpc, hlo, hmem, hstatus, hcount⟩ := exec_withAccum (k := .hi) ht hi v
    rw [pokeHi_eq_withAccum]
    exact ⟨u, hu, hx, hpc, hlo, hmem, hstatus, hcount⟩
  · obtain ⟨u, hu, hx, hpc, hhi, hmem, hstatus, hcount⟩ := exec_withAccum (k := .lo) ht hi v
    rw [pokeLo_eq_withAccum]
    exact ⟨u, hu, hx, hpc, hhi, hmem, hstatus, hcount⟩

/-! ### Return from a call (R211) -/

/-- The link that an instruction left in a register, read in a later state that reads the same. -/
theorem goesTo_jr_of_links {i : Instr} {s t u : State} {rd : Reg} {link target : Word} (hu : u.Unified)
    (hi : LinksAndGoesTo i s rd link target) (ht : exec i s = .next t) (hw : hardwired s rd = false)
    (hread : u.readX rd = t.readX rd) : GoesTo (.jr rd) u link := by
  obtain ⟨t', ht', hwrites, -⟩ := hi
  obtain rfl := Host.Outcome.next.inj (ht'.symm.trans ht)
  have hlink : u.readX rd = link := by rw [hread, hwrites.reads, hw]; rfl
  rw [← hlink]
  exact goesTo_of_exec hu rfl

/-- Settles O51: JAL and JALR link their address + 8, and register 31 is never hardwired. -/
theorem returnFromCallSkipsOneWord : Obligations.ReturnFromCallSkipsOneWord := by
  intro s t u target rd rs hs hu
  refine ⟨fun ht hread => ?jal, fun ht hw hread => ?jalr⟩
  case jal =>
    exact goesTo_jr_of_links hu (linksAndGoesTo_of_exec hs rfl) ht (by simp [hardwired_eq]) hread
  case jalr => exact goesTo_jr_of_links hu (linksAndGoesTo_of_exec hs rfl) ht hw hread

end Sys2Proof.Machine
end

section
/-! PROOFS. The invariant under the host's operations (spec/70_reset_and_hazards.md R270 to R277,
spec/10_state.md R39, R45), and runs to completion (R278). -/

namespace Sys2Proof.Machine

/-! ### The power-on state, loadProgram and reset (R45, R270 to R274) -/

/-- The power-on state of well-formed parameters meets the invariant (R45). -/
theorem inv_initialized {p : Params} (hp : p.wf = true) : Inv (State.initialized p) where
  paramsWf := hp
  unified := rfl
  memoryWf := rfl
  onlyMappedBytes _ h := absurd rfl h
  imageFits := decide_eq_true (Nat.zero_le _)
  causeInRange := Nat.zero_le _
  faultedIff := by simp [State.initialized]
  noFaultRecord _ := ⟨rfl, rfl, rfl⟩
  noIllegalRecord _ := ⟨rfl, rfl⟩

/-- Settles O13: the default parameters meet R8. -/
theorem resetMeetsTheInvariant : Obligations.ResetMeetsTheInvariant := inv_initialized (by decide)

/-- The bytes of an image that fits are in the text region (R8 (d), R272). -/
theorem mapped_of_imageFits {p : Params} {words : List Word} (h : p.imageFits words = true) {a : Nat}
    (ha : p.textBase.toNat ≤ a ∧ a < p.textBase.toNat + 4 * words.length) : Mapped p a := by
  have hfits : 4 * words.length ≤ p.textSize := of_decide_eq_true h
  cases htext : p.textRegion with
  | none =>
    simp only [Params.textSize, htext] at hfits
    omega
  | some r =>
    simp only [Params.textSize, Params.textBase, htext] at hfits ha
    refine ⟨r, List.mem_of_find?_eq_some htext, ha.1, ?_⟩
    rw [Region.limit]
    omega

/-- An image that fits, written to memory that holds mapped bytes only, leaves it so. -/
theorem mapped_of_byte_writeImage {p : Params} {m : Memory} {words : List Word} (hm : m.wf = true)
    (hmapped : ∀ a, m.byte a ≠ 0#8 → Mapped p a) (hfits : p.imageFits words = true) (a : Nat)
    (ha : (writeImage p m words).byte a ≠ 0#8) : Mapped p a := by
  by_cases hin : p.textBase.toNat ≤ a ∧ a < p.textBase.toNat + 4 * words.length
  · exact mapped_of_imageFits hfits hin
  · rw [writeImage, Memory.byte_writeWords_outside _ _ _ _ hm hin] at ha
    exact hmapped a ha

/-- Writing an image that fits and keeping it in IMAGE keeps the invariant (R43, R272). -/
theorem Inv.with_image {s : State} (hs : Inv s) {words : List Word}
    (hfits : s.params.imageFits words = true) :
    Inv { s with mem := writeImage s.params s.mem words, image := words } :=
  { hs with
    memoryWf := Memory.wf_writeWords _ _ _ hs.memoryWf
    onlyMappedBytes := mapped_of_byte_writeImage hs.memoryWf hs.onlyMappedBytes hfits
    imageFits := hfits }

theorem inv_loadProgram {s : State} (hs : Inv s) (words : List Word) : Inv (loadProgram words s).1 := by
  cases hfits : s.params.imageFits words with
  | true =>
    rw [loadProgram_of_imageFits hfits]
    exact hs.with_image hfits
  | false =>
    rw [loadProgram_of_not_imageFits hfits]
    exact hs

/-- Reset writes IMAGE, which fits, to the power-on state (R274). -/
theorem inv_hostReset {s : State} (hs : Inv s) : Inv (hostReset s) :=
  (inv_initialized hs.paramsWf).with_image hs.imageFits

/-! ### Pokes (R39) -/

/-- The invariant asks of the two copies only that they agree (R37). -/
theorem Inv.with_copies {s : State} (hs : Inv s) {a b : Arch} (h : a = b) :
    Inv { s with current := a, next := b } :=
  { hs with unified := h }

theorem inv_pokeX {s : State} (hs : Inv s) (r : Reg) (v : Word) : Inv (pokeX r v s) := by
  cases hw : hardwired s r with
  | true => rw [pokeX_of_hardwired hw]; exact hs
  | false =>
    rw [pokeX_of_not_hardwired hw]
    exact hs.with_copies (congrArg (Arch.setX · r v) hs.unified)

theorem inv_pokeHi {s : State} (hs : Inv s) (v : Word) : Inv (pokeHi v s) :=
  hs.with_copies (congrArg (fun a => { a with hi := v }) hs.unified)

theorem inv_pokeLo {s : State} (hs : Inv s) (v : Word) : Inv (pokeLo v s) :=
  hs.with_copies (congrArg (fun a => { a with lo := v }) hs.unified)

/-! ### Runs (R276 to R278) -/

/-- What every step keeps, a run keeps. -/
theorem runSteps_preserves {P : State → Prop} (hstep : ∀ s, P s → P (stepState s)) (n : Nat) {s : State}
    (hs : P s) : P (runSteps n s).1 := by
  obtain ⟨k, -, hrun⟩ := runSteps_makesSteps n s
  rw [hrun]
  exact Function.Iterate.rec P hs hstep k

theorem inv_stepState (s : State) (hs : Inv s) : Inv (stepState s) :=
  stepKeepsTheInvariant s _ hs (step_eq_next_stepState s)

theorem inv_runFor {s : State} (hs : Inv s) (n : Nat) : Inv (runFor n s).1 := by
  by_cases hr : s.status = .running
  · rw [runFor_of_running hr]
    exact runSteps_preserves inv_stepState n hs
  · rw [runFor_of_not_running hr]
    exact hs

/-- Settles O14, one operation after the other. -/
theorem hostOperationsKeepTheInvariant : Obligations.HostOperationsKeepTheInvariant :=
  ⟨fun _ => inv_initialized, fun s hs => ⟨inv_loadProgram hs, inv_hostReset hs, inv_pokeX hs,
    inv_pokeHi hs, inv_pokeLo hs, inv_stepState s hs, inv_runFor hs⟩⟩

/-! ### Runs to completion (R278) -/

/-- A cap finds the state where the run within it ends, unless it is still RUNNING. -/
theorem runToCompletionWithin_eq_some_iff {cap : Nat} {s t : State} :
    runToCompletionWithin cap s = some t ↔ (runSteps cap s).1 = t ∧ t.status ≠ .running := by
  cases h : (runSteps cap s).1.status with
  | running =>
    simp only [runToCompletionWithin, h, reduceCtorEq, false_iff, not_and, not_not]
    rintro rfl
    exact h
  | stopped | faulted =>
    simp only [runToCompletionWithin, h, Option.some.injEq, iff_self_and]
    rintro rfl
    simp [h]

/-- Two runs that ended are one run: from a RUNNING state both make the same first step. -/
theorem runSteps_eq_of_ended {n m : Nat} {s : State} (hn : (runSteps n s).1.status ≠ .running)
    (hm : (runSteps m s).1.status ≠ .running) : (runSteps n s).1 = (runSteps m s).1 := by
  induction n generalizing s m with
  | zero => rw [runSteps_of_not_running (s := s) hn, runSteps_of_not_running (s := s) hn]
  | succ n ih =>
    by_cases hr : s.status = .running
    · cases m with
      | zero => exact absurd hr hm
      | succ m =>
        rw [runSteps_succ_of_running hr] at hn hm ⊢
        rw [runSteps_succ_of_running hr]
        exact ih hn hm
    · rw [runSteps_of_not_running hr, runSteps_of_not_running hr]

/-- RUNNING at a branch of a register to itself with offset -1. -/
structure AtSelfBranch (w : Word) (s : State) : Prop where
  unified : s.Unified
  running : s.status = .running
  fetches : Fetches s w

/-- A branch to itself comes back to its own address, and its word is still there. -/
theorem atSelfBranch_stepState {w : Word} {r : Reg} (hd : decodeWord w = .ok (.beq r r 0xFFFF#16))
    (s : State) (hs : AtSelfBranch w s) : AtSelfBranch w (stepState s) := by
  obtain ⟨hu, hr, hw⟩ := hs
  have htarget : s.current.pc = BitVec.ofInt 32 (s.current.pc.toNat + 4 + (0xFFFF#16).toInt * 4) := by
    rw [← branchTarget_eq_ofInt]
    exact (BitVec.add_assoc _ _ _).trans (BitVec.add_zero _) |>.symm
  obtain ⟨t, ht, -, -, hpc, hmem, hstatus, hcommit⟩ : GoesTo (.beq r r 0xFFFF#16) s s.current.pc := by
    simpa using (equalityBranchesGoWhereStated.2.2 s r r _ _ hu htarget).1
  have hstep : step s = .next t := by rw [step_of_fetches s w hr hw, hd, ← ht]
  obtain rfl := Host.Outcome.next.inj ((step_eq_next_stepState s).symm.trans hstep)
  refine ⟨hcommit.unified, hstatus.trans hr, ⟨?_, ?_, fun k hk => ?_⟩⟩
  · rw [hpc]; exact hw.aligned
  · rw [hpc, hcommit.params]; exact hw.mapped
  · rw [hpc, hmem]; exact hw.word k hk

/-- Settles O58: runs that ended agree, and no run from a branch to itself ends. -/
theorem runToCompletionReturnsAtMostOnce : Obligations.RunToCompletionReturnsAtMostOnce := by
  refine ⟨fun s t => exists_congr fun cap => runToCompletionWithin_eq_some_iff.symm, ?unique, ?loop⟩
  case unique =>
    rintro s t u ⟨n, rfl, hn⟩ ⟨m, rfl, hm⟩
    exact runSteps_eq_of_ended hn hm
  case loop =>
    rintro s w r hu hr hw hd ⟨t, n, rfl, hn⟩
    exact hn (runSteps_preserves (atSelfBranch_stepState hd) n ⟨hu, hr, hw⟩).running

end Sys2Proof.Machine
end
